-- ==== Sys2Proof/Word.lean ====
section
/-! DEFINITION. The words of HDC-sub014: registers and memory words of 16 bits, bytes, 21-bit DMA addresses, unit numbers. -/

namespace Sys2Proof

/-- A register or a word of host memory: 16 bits, bit 0 the least significant (00_scope.md R8, 10_state.md R13). -/
abbrev Word := BitVec 16

/-- A byte of host memory or of a backing store (20_memory.md R40, R42). -/
abbrev Byte := BitVec 8

/-- A DMA byte address: 21 bits, a 2 MiB window (00_scope.md R6 `DMA_ADDR_BITS`, 20_memory.md R39). -/
abbrev DmaAddr := BitVec 21

/-- The number of a unit the controller can own: at most four (00_scope.md R6 `MAX_UNITS`, 10_state.md R25). -/
abbrev UnitId := Fin 4

end Sys2Proof
end

