-- ==== Sys2Proof/Config.lean ====
section
/-! DEFINITION. The implementation parameters of 00_scope.md R6 and the one free value of the model. -/

namespace Sys2Proof

/-- The parameters of 00_scope.md R6 that a machine may fix differently. They stand in `State.cfg`, no step changes
them, and statements hold for every value (log 3). The other parameters of R6 have one value each, below. -/
structure Config where
  /-- The highest-numbered unit: `MAX_UNITS` is one more, so no machine has a value outside 1..4, for which "no
  behaviour is given and none may be invented" (R6, D31, U20; log 27). -/
  lastUnit : UnitId
  /-- `UFR_COUNT_BOUNDED`: OPEN; whether `BYTE_COUNT` bounds the echo of Unformatted Read (R6, D11). -/
  ufrCountBounded : Bool
  deriving DecidableEq, Repr

/-- `MAX_UNITS`: 4 by default, 1..4 admitted (R6, D31). -/
def Config.maxUnits (c : Config) : Nat := c.lastUnit.val + 1

/-- The values R6 gives: the default `MAX_UNITS` and the recommended `UFR_COUNT_BOUNDED`. DESIGN CHOICE (log 3). -/
def Config.default : Config := { lastUnit := 3, ufrCountBounded := true }

/-- The range D31 admits for `MAX_UNITS`; every `Config` is in it (`Config.admitted_eq_true`). -/
def Config.admitted (c : Config) : Bool := decide (1 ≤ c.maxUnits) && decide (c.maxUnits ≤ 4)

/-- FREE VALUE: what a byte of host memory that nothing has written reads as, "any value, fixed per run"
(20_memory.md R41, D21, U5). It has no body, so no proof can see a value of it (log 4). -/
opaque Config.unwrittenByte : Nat → Byte

/-- `MAX_SECTOR_SIZE` (R6): also the size of the sector buffer. -/
def Config.maxSectorSize : Nat := 512

/-- `HEADER_LEN` (R6): the bytes of a disk image before its payload. -/
def Config.headerLen : Nat := 16

/-- `DMA_MASK` (R6): even addresses of the 21-bit window. -/
def Config.dmaMask : DmaAddr := 0x1FFFFE#21

/-- `OVERHEAD_BYTE` (R6, D15): the low byte of the second word of Store Registers. -/
def Config.overheadByte : Nat := 0

end Sys2Proof
end

