-- ==== Sys2Proof/Syntax.lean ====
section
/-! DEFINITION. The syntax: command blocks, backing stores as operands, the thirteen instructions, the host's operations. -/

namespace Sys2Proof

/-- The command block `w1`..`w6`, field by field (30_encoding.md R59, R60; positions 10_state.md R16 to R19).
Every command uses the same layout and ignores the fields it has no use for. -/
structure CommandBlock where
  /-- `w1[15:14]` `EXT`, ignored (R68). -/
  ext : BitVec 2
  /-- `w1[13:12]`, unused. -/
  strobe : BitVec 2
  /-- `w1[11]` `TI`, transfer inhibit (R67). -/
  ti : Bool
  /-- `w1[7:6]`, unused. -/
  offset : BitVec 2
  /-- `w1[5:0]` `HEAD`. -/
  head : BitVec 6
  /-- `w2[15:8]`, unused (R17). -/
  recordCount : BitVec 8
  /-- `w2[7:0]` `SECTOR`. -/
  sector : BitVec 8
  /-- `w3` `CYLINDER`. -/
  cylinder : BitVec 16
  /-- `w4` `BYTE_COUNT`, bit 0 ignored (R65). -/
  count : BitVec 16
  /-- `w5` `DMA_LO`, bit 0 ignored (R66). -/
  dmaLo : BitVec 16
  /-- `w6[15:12]`, unused. -/
  selHigh : BitVec 4
  /-- `w6[11:8]` `SEL`: unit `k` at bit `3 - k` of the field (R22). -/
  sel : BitVec 4
  /-- `w6[7:5]`, unused. -/
  dmaSpare : BitVec 3
  /-- `w6[4:0]` `DMA_HI`. -/
  dmaHi : BitVec 5
  deriving DecidableEq, Repr

/-- The environment's answer to one `StoreSeek` (45_unit_management.md R129). -/
inductive SeekAnswer where
  /-- The position is set as asked. -/
  | moved
  /-- The reposition fails; `pos` is the position it leaves, which R129 leaves unspecified (log 7). -/
  | failed (pos : Nat)
  deriving DecidableEq, Repr

/-- The environment's answer to one `StoreWrite` (45_unit_management.md R131). -/
structure WriteAnswer where
  /-- The count it is ready to accept; the answer is this or the length, whichever is less. -/
  accepted : Nat
  /-- What it leaves in the place of the bytes it did not accept, empty for nothing changed (U9; log 8). -/
  tail : List Byte
  deriving DecidableEq, Repr

/-- A backing store (10_state.md R28): a byte list and a position, with the environment's answers still to come.
A plan that is empty answers as the reference store of 45_unit_management.md R132 (log 6). -/
structure BackingStore where
  data : List Byte
  pos : Nat
  /-- Answers to the coming `StoreSeek` calls, the next first. -/
  seekPlan : List SeekAnswer
  /-- Bounds on what the coming `StoreRead` calls deliver, the next first. -/
  readPlan : List Nat
  /-- Answers to the coming `StoreWrite` calls, the next first. -/
  writePlan : List WriteAnswer
  deriving DecidableEq, Repr

/-- The instructions: one constructor per row of spec/opcode_table.json. The eight commands carry the command block
(R59); the five host operations carry the operands of their signatures (30_encoding.md R57, R58). -/
inductive Instr where
  /-- STREG, Store Registers, code 0 (43_commands_control.md R113). -/
  | streg (b : CommandBlock)
  /-- WRFMT, Write Format, code 1 (44_commands_data.md R118). -/
  | wrfmt (b : CommandBlock)
  /-- RDDATA, Read Data, code 2 (44_commands_data.md R119). -/
  | rddata (b : CommandBlock)
  /-- WRDATA, Write Data, code 3 (44_commands_data.md R120). -/
  | wrdata (b : CommandBlock)
  /-- UFREAD, Unformatted Read, code 4 (43_commands_control.md R114). -/
  | ufread (b : CommandBlock)
  /-- UFWRITE, Unformatted Write, code 5 (43_commands_control.md R115). -/
  | ufwrite (b : CommandBlock)
  /-- SEEK, code 6 (43_commands_control.md R116). -/
  | seek (b : CommandBlock)
  /-- RESTORE, code 7 (43_commands_control.md R117). -/
  | restore (b : CommandBlock)
  /-- REGRD `read(index)` (40_register_access.md R73); an index above 7 is a model's wide index (D6, log 14). -/
  | regrd (index : Nat)
  /-- REGWR `write(index, value, lanes)` (40_register_access.md R74 to R80). -/
  | regwr (index : Nat) (value : Word) (lanes : BitVec 2)
  /-- INIT `init()` (70_reset_and_hazards.md R157). -/
  | init
  /-- ATTACH `attach(unit_id, backing_store, read_only)` (45_unit_management.md R124 to R126). -/
  | attach (unit : Nat) (store : BackingStore) (readOnly : Bool)
  /-- DETACH `detach(unit_id)` (45_unit_management.md R127, R128). -/
  | detach (unit : Nat)
  deriving DecidableEq, Repr

/-- The host operations, the complete set (30_encoding.md R57: "No other operation reaches the controller"). -/
inductive HostOp where
  | regrd (index : Nat)
  | regwr (index : Nat) (value : Word) (lanes : BitVec 2)
  | init
  | attach (unit : Nat) (store : BackingStore) (readOnly : Bool)
  | detach (unit : Nat)
  deriving DecidableEq, Repr

/-- A host operation as an instruction. -/
def HostOp.instr : HostOp → Instr
  | .regrd i => .regrd i
  | .regwr i v l => .regwr i v l
  | .init => .init
  | .attach k st ro => .attach k st ro
  | .detach k => .detach k

/-- What the outside world does next: an operation on the controller, or the host storing a word into its own memory
between operations (`MEM[a] = v` of 30_encoding.md R72; 70_reset_and_hazards.md R178; log 5). -/
inductive Input where
  | op (o : HostOp)
  /-- The word at byte address `2 * word` of host memory becomes `value`. -/
  | hostStore (word : BitVec 20) (value : Word)
  deriving DecidableEq, Repr

end Sys2Proof
end

