-- ==== Sys2Proof/WellFormed.lean ====
section
/-! DEFINITION. Well-formed instructions: operands inside the ranges of the signatures of 30_encoding.md R57. -/

namespace Sys2Proof

/-- The range `0..=7` of a register index (30_encoding.md R57, R58). -/
def indexInRange (index : Nat) : Bool := decide (index ≤ 7)

/-- The range of a unit number, `0..MAX_UNITS-1` with `MAX_UNITS` at most 4 (45_unit_management.md R124, D31). -/
def unitInRange (unit : Nat) : Bool := decide (unit < 4)

/-- Every command block is legal (30_encoding.md R69); the host operations' operands stand in their ranges. An
instruction outside them still has its meaning (R73, R74, R126(a), R128). -/
def Instr.wellFormed : Instr → Bool
  | .streg _ => true
  | .wrfmt _ => true
  | .rddata _ => true
  | .wrdata _ => true
  | .ufread _ => true
  | .ufwrite _ => true
  | .seek _ => true
  | .restore _ => true
  | .regrd index => indexInRange index
  | .regwr index _ _ => indexInRange index
  | .init => true
  | .attach unit _ _ => unitInRange unit
  | .detach unit => unitInRange unit

end Sys2Proof
end

