-- ==== Sys2Proof/Decode.lean ====
section
/-! DEFINITION. Decoding and encoding: the command block of six words, the operand bundles of REGRD and REGWR, and their bytes. -/

namespace Sys2Proof

/-- Two bytes as a word, the byte at the lower address or position first and high (20_memory.md R44). -/
def wordOfBytes (hi lo : Byte) : Word := hi ++ lo

/-- `v[15:8]` (00_scope.md R8). -/
def highByte (v : Word) : Byte := v.extractLsb' 8 8

/-- `v[7:0]` (00_scope.md R8). -/
def lowByte (v : Word) : Byte := v.extractLsb' 0 8

/-- The values of `w1`..`w6` (30_encoding.md R59). -/
structure BlockWords where
  w1 : Word
  w2 : Word
  w3 : Word
  w4 : Word
  w5 : Word
  w6 : Word
  deriving DecidableEq, Repr

/-- `CMD = w1[10:8]` (30_encoding.md R63, 41_command_execution.md R84). -/
def commandField (w1 : Word) : BitVec 3 := w1.extractLsb' 8 3

/-- The fields of a block, at the positions of 30_encoding.md R60. -/
def blockOfWords (ws : BlockWords) : CommandBlock where
  ext := ws.w1.extractLsb' 14 2
  strobe := ws.w1.extractLsb' 12 2
  ti := ws.w1.getLsbD 11
  offset := ws.w1.extractLsb' 6 2
  head := ws.w1.extractLsb' 0 6
  recordCount := ws.w2.extractLsb' 8 8
  sector := ws.w2.extractLsb' 0 8
  cylinder := ws.w3
  count := ws.w4
  dmaLo := ws.w5
  selHigh := ws.w6.extractLsb' 12 4
  sel := ws.w6.extractLsb' 8 4
  dmaSpare := ws.w6.extractLsb' 5 3
  dmaHi := ws.w6.extractLsb' 0 5

/-- The command a code selects: the opcode map of 30_encoding.md R63. -/
def commandOfField (code : BitVec 3) (b : CommandBlock) : Instr :=
  match code.toNat with
  | 0 => .streg b
  | 1 => .wrfmt b
  | 2 => .rddata b
  | 3 => .wrdata b
  | 4 => .ufread b
  | 5 => .ufwrite b
  | 6 => .seek b
  | _ => .restore b

/-- The command decoder: every block decodes to one of the eight commands (30_encoding.md R69). -/
def decodeBlock (ws : BlockWords) : Instr := commandOfField (commandField ws.w1) (blockOfWords ws)

/-- Why bytes are no instruction. The byte forms are the model's own (log 18). -/
inductive DecodeError where
  /-- No form has this many bytes; INIT, ATTACH and DETACH have no bit encoding (30_encoding.md R57). -/
  | noFormOfLength (bytes : Nat)
  /-- A bit above the 3 bits of REGRD's bundle is set. -/
  | regrdBundleTooWide
  /-- A bit above the 21 bits of REGWR's bundle is set. -/
  | regwrBundleTooWide
  deriving DecidableEq, Repr

/-- The decoder on bytes, total: 12 bytes are a command block, each word high byte first, `w1` first; 1 byte is REGRD's
bundle `iii`; 3 bytes are REGWR's bundle `lliiivvvvvvvvvvvvvvvv` (spec/opcode_table.json; log 18). -/
def decode : List Byte → Except DecodeError Instr
  | [b] =>
    if b.extractLsb' 3 5 = 0#5 then .ok (.regrd (b.extractLsb' 0 3).toNat) else .error .regrdBundleTooWide
  | [b2, b1, b0] =>
    if b2.extractLsb' 5 3 = 0#3 then
      .ok (.regwr (b2.extractLsb' 0 3).toNat (wordOfBytes b1 b0) (b2.extractLsb' 3 2))
    else .error .regwrBundleTooWide
  | [a1, b1, a2, b2, a3, b3, a4, b4, a5, b5, a6, b6] =>
    .ok (decodeBlock
      { w1 := wordOfBytes a1 b1, w2 := wordOfBytes a2 b2, w3 := wordOfBytes a3 b3,
        w4 := wordOfBytes a4 b4, w5 := wordOfBytes a5 b5, w6 := wordOfBytes a6 b6 })
  | bs => .error (.noFormOfLength bs.length)

/-- The words of a block with a command code (30_encoding.md R60). -/
def wordsOfBlock (code : BitVec 3) (b : CommandBlock) : BlockWords where
  w1 := b.ext ++ b.strobe ++ BitVec.ofBool b.ti ++ code ++ b.offset ++ b.head
  w2 := b.recordCount ++ b.sector
  w3 := b.cylinder
  w4 := b.count
  w5 := b.dmaLo
  w6 := b.selHigh ++ b.sel ++ b.dmaSpare ++ b.dmaHi

/-- The twelve bytes of a block, `w1` first, each word high byte first. -/
def bytesOfBlock (ws : BlockWords) : List Byte :=
  [highByte ws.w1, lowByte ws.w1, highByte ws.w2, lowByte ws.w2, highByte ws.w3, lowByte ws.w3,
   highByte ws.w4, lowByte ws.w4, highByte ws.w5, lowByte ws.w5, highByte ws.w6, lowByte ws.w6]

/-- The bundle of REGRD: the index in bits 2:0. -/
def regrdBytes (index : Nat) : List Byte := [0#5 ++ BitVec.ofNat 3 index]

/-- The bundle of REGWR: lanes in bits 20:19, index in 18:16, value in 15:0. -/
def regwrBytes (index : Nat) (value : Word) (lanes : BitVec 2) : List Byte :=
  [0#3 ++ lanes ++ BitVec.ofNat 3 index, highByte value, lowByte value]

/-- The encoder; none for an instruction the spec gives no bits (INIT, ATTACH, DETACH) and for an index that three
bits do not hold. -/
def encode : Instr → Option (List Byte)
  | .streg b => some (bytesOfBlock (wordsOfBlock 0#3 b))
  | .wrfmt b => some (bytesOfBlock (wordsOfBlock 1#3 b))
  | .rddata b => some (bytesOfBlock (wordsOfBlock 2#3 b))
  | .wrdata b => some (bytesOfBlock (wordsOfBlock 3#3 b))
  | .ufread b => some (bytesOfBlock (wordsOfBlock 4#3 b))
  | .ufwrite b => some (bytesOfBlock (wordsOfBlock 5#3 b))
  | .seek b => some (bytesOfBlock (wordsOfBlock 6#3 b))
  | .restore b => some (bytesOfBlock (wordsOfBlock 7#3 b))
  | .regrd index => if index ≤ 7 then some (regrdBytes index) else none
  | .regwr index value lanes => if index ≤ 7 then some (regwrBytes index value lanes) else none
  | .init => none
  | .attach _ _ _ => none
  | .detach _ => none

/-- The `n`-th word of `w`, bit 0 of the first word being bit 0 of `w` (the table's numbering). -/
def tableWord (w n : Nat) : Word := BitVec.ofNat 16 (w / 2 ^ (16 * n))

/-- The command block whose first bits are `w` and whose other bits are 0 (the table keys a command on `w1`). -/
def tableBlock (w : Nat) : BlockWords where
  w1 := tableWord w 0
  w2 := tableWord w 1
  w3 := tableWord w 2
  w4 := tableWord w 3
  w5 := tableWord w 4
  w6 := tableWord w 5

/-- The bytes of a row of `nbits` bits: none for a row without bits, REGRD's byte, REGWR's three, or a block's twelve. -/
def tableBytes (nbits w : Nat) : List Byte :=
  if nbits = 0 then []
  else if nbits ≤ 8 then [BitVec.ofNat 8 w]
  else if nbits ≤ 16 then bytesOfBlock (tableBlock w)
  else if nbits ≤ 24 then [BitVec.ofNat 8 (w / 65536), BitVec.ofNat 8 (w / 256), BitVec.ofNat 8 w]
  else bytesOfBlock (tableBlock w)

/-- What the decoder reads from a row of the table whose bits are `w`. -/
def decodeTableWord (nbits w : Nat) : Option Instr :=
  match decode (tableBytes nbits w) with
  | .ok i => some i
  | .error _ => none

end Sys2Proof
end

