-- ==== Sys2Proof/Machine/State.lean ====
section
/-! DEFINITION. The state of HDC-sub014 as plain data, the ways a step can stop, and the state after reset. -/

namespace Sys2Proof.Machine

/-- The eight registers, 16 bits each (10_state.md R13). -/
structure Regs where
  /-- Unit status, attention lines, attention enables (R15). -/
  w0 : Word
  /-- Command word (R16). -/
  w1 : Word
  /-- Sector address (R17). -/
  w2 : Word
  /-- Cylinder address (R18). -/
  w3 : Word
  /-- Byte count (R18). -/
  w4 : Word
  /-- DMA address, low word (R18). -/
  w5 : Word
  /-- DMA address high bits and unit select (R19). -/
  w6 : Word
  /-- Control and completion status (R20); bit 15 is also the control phase (R29). -/
  w7 : Word
  deriving DecidableEq, Repr

/-- A unit descriptor (10_state.md R26). -/
structure DiskUnit where
  /-- The medium; `none` means offline. -/
  backingStore : Option BackingStore
  writeProtected : Bool
  unsafeFlag : Bool
  cylinders : BitVec 32
  heads : BitVec 32
  sectorsPerTrack : BitVec 32
  bytesPerSector : BitVec 32
  deriving DecidableEq, Repr

/-- The Detached state of a unit: no store, flags false, geometry zero (10_state.md R27). -/
def DiskUnit.detached : DiskUnit where
  backingStore := none
  writeProtected := false
  unsafeFlag := false
  cylinders := 0#32
  heads := 0#32
  sectorsPerTrack := 0#32
  bytesPerSector := 0#32

/-- The descriptors `unit[0]`..`unit[3]` (10_state.md R25); those at or above `MAX_UNITS` are never selected. -/
structure Units where
  u0 : DiskUnit
  u1 : DiskUnit
  u2 : DiskUnit
  u3 : DiskUnit
  deriving DecidableEq, Repr

/-- Transient executor state (10_state.md R31): meaningful only inside a command, never visible in a register. What it
holds between commands nothing reads (log 11). -/
structure Transfer where
  /-- The operands sampled from the command block (41_command_execution.md R87). -/
  operands : CommandBlock
  /-- The resolved unit number. -/
  unit : Option UnitId
  /-- The running `dma_address`. -/
  dma : DmaAddr
  /-- The remaining byte count. -/
  remaining : Nat
  cylinder : Nat
  head : Nat
  sector : Nat
  /-- The sector buffer of `MAX_SECTOR_SIZE` bytes (42_geometry_dma.md R107). -/
  buffer : List Byte
  deriving DecidableEq, Repr

/-- Host memory: bytes that something has written, by address (20_memory.md R41, R44; log 4). An address not listed
holds no written byte. -/
abbrev Memory := List Host.Cell

/-- What a host operation returned to its caller (30_encoding.md R57; log 12). -/
inductive Reply where
  /-- The operation returns nothing. -/
  | done
  /-- The value of a REGRD (`rdata` of D20). -/
  | value (v : Word)
  /-- ATTACH answered `Ok`. -/
  | attached
  /-- ATTACH answered `AttachError`. -/
  | attachError
  deriving DecidableEq, Repr

/-- What the collaborators see of an operation (10_state.md R37; log 13). -/
inductive Event where
  /-- `IntSet(level)`. -/
  | sink (level : Bool)
  /-- `MemRead(addr, 2)`. -/
  | memRead (addr : DmaAddr)
  /-- `MemWrite(addr, 2, value)`. -/
  | memWrite (addr : DmaAddr) (value : Word)
  /-- `StoreSeek(unit, pos)` and its answer. -/
  | storeSeek (unit : UnitId) (pos : Nat) (ok : Bool)
  /-- `StoreRead(unit, asked)` and how many bytes it gave. -/
  | storeRead (unit : UnitId) (asked got : Nat)
  /-- `StoreWrite(unit, bytes)`: how many were offered and accepted. -/
  | storeWrite (unit : UnitId) (asked got : Nat)
  /-- A detached unit's store goes back to the environment with its content (45_unit_management.md R127; log 20). -/
  | released (unit : UnitId) (store : BackingStore)
  deriving DecidableEq, Repr

/-- The whole machine with its environment. INVENTORY.md lists every field with its rule and reset value. -/
structure State where
  /-- The parameters of the machine (00_scope.md R6); no step changes them. The model's own field (log 3). -/
  cfg : Config
  regs : Regs
  units : Units
  /-- The level last driven on the interrupt sink (10_state.md R32). -/
  intLevel : Bool
  /-- Transient executor state (10_state.md R31). -/
  xfer : Transfer
  /-- Host memory, an environment (10_state.md R33, 20_memory.md R41). -/
  mem : Memory
  /-- What the last operation returned. The model's own field (log 12). -/
  reply : Reply
  /-- What the collaborators saw of the last operation, newest first. The model's own field (log 13). -/
  trace : List Event
  /-- Operations and host stores still to come, the next first. The model's own field (log 1). -/
  pending : List Input
  deriving DecidableEq, Repr

/-- Why a step faults: never. "Every error is fully resolved inside the command handler: nothing propagates"
(41_command_execution.md R88, 60_exceptions.md R149), so the type has no constructor. -/
inductive Fault where
  deriving DecidableEq, Repr

/-- Why a step is refused. -/
inductive Refusal where
  /-- Raised by `exec` for an instruction without a meaning; none is left. Safe: nothing can be proved of it. -/
  | notModelled (mnemonic : String)
  /-- Raised by WRFMT, RDDATA and WRDATA, with any byte count, after every check of 41_command_execution.md R93, on a unit
  whose `bytes_per_sector` is odd, zero or above 512: "A model refuses such an attach or such a command"
  (45_unit_management.md R134, 70_reset_and_hazards.md R168). Safe: no behaviour is invented (log 9). -/
  | inadmissibleGeometry
  deriving DecidableEq, Repr

/-- The registers after `init` with no unit attached (10_state.md R36). -/
def Regs.reset : Regs where
  w0 := 0x0000#16
  w1 := 0x0000#16
  w2 := 0x0000#16
  w3 := 0x0000#16
  w4 := 0x0000#16
  w5 := 0x0000#16
  w6 := 0x0000#16
  w7 := 0x8000#16

/-- Every unit Detached (10_state.md R27, 70_reset_and_hazards.md R158). -/
def Units.reset : Units where
  u0 := DiskUnit.detached
  u1 := DiskUnit.detached
  u2 := DiskUnit.detached
  u3 := DiskUnit.detached

/-- Transient state at reset: "unspecified, and unobservable" (10_state.md R36). DESIGN CHOICE (log 11). -/
def Transfer.reset : Transfer where
  operands :=
    { ext := 0#2, strobe := 0#2, ti := false, offset := 0#2, head := 0#6, recordCount := 0#8, sector := 0#8,
      cylinder := 0#16, count := 0#16, dmaLo := 0#16, selHigh := 0#4, sel := 0#4, dmaSpare := 0#3, dmaHi := 0#5 }
  unit := none
  dma := 0#21
  remaining := 0
  cylinder := 0
  head := 0
  sector := 0
  buffer := List.replicate Config.maxSectorSize 0#8

/-- The machine right after reset: power-on followed by `init` (70_reset_and_hazards.md R158), which drives the sink
once (R157). Nothing is listed in memory and no operation is pending (log 2). -/
def State.reset : State where
  cfg := Config.default
  regs := Regs.reset
  units := Units.reset
  intLevel := false
  xfer := Transfer.reset
  mem := []
  reply := .done
  trace := [.sink false]
  pending := []

end Sys2Proof.Machine
end

