-- ==== Sys2Proof/Machine/Flags.lean ====
section
/-! DEFINITION. Flags: the named bits of `w0` and `w7`, the outcomes with their masks, and the interrupt arbiter's function. -/

namespace Sys2Proof.Machine

/-! Status bits of `w0` (10_state.md R15). -/

def maskOffline : Word := 0x8000#16
def maskNotReady : Word := 0x4000#16
def maskWriteProtect : Word := 0x2000#16
def maskUnsafe : Word := 0x1000#16
def maskEndOfCylinder : Word := 0x0800#16
def maskSeekIncomplete : Word := 0x0400#16
def maskPackChange : Word := 0x0100#16

/-- `ATTN[k]` is `w0[7-k]` (10_state.md R21). -/
def attnMask (k : UnitId) : Word := 0x0080#16 >>> k.val

/-- `ATTN_EN[k]` is `w0[3-k]` (10_state.md R21). -/
def attnEnableMask (k : UnitId) : Word := 0x0008#16 >>> k.val

/-! Control and detail bits of `w7` (10_state.md R20). -/

def maskIdle : Word := 0x8000#16
def maskComplete : Word := 0x4000#16
def maskError : Word := 0x2000#16
def maskIntEnable : Word := 0x1000#16
def maskAbnormalCompletion : Word := 0x0100#16
def maskCommandTimeout : Word := 0x0004#16
def maskUnitError : Word := 0x0001#16

/-- `IDLE` of a value of `w7`: also the control phase (10_state.md R29). -/
def idle (w7 : Word) : Bool := w7.getLsbD 15

/-- How a command ended (60_exceptions.md R135). -/
inductive CmdOutcome where
  | success
  | noUnitSelected
  | unsupported
  | unitOffline
  | unitUnsafe
  | writeProtected
  | cylinderOutOfRange
  | headOutOfRange
  | sectorOutOfRange
  | shortRead
  | shortWrite
  | seekFailed
  deriving DecidableEq, Repr

/-- `S0` of an outcome, ORed into `w0` (60_exceptions.md R135). -/
def CmdOutcome.status : CmdOutcome → Word
  | .success => 0#16
  | .noUnitSelected => 0#16
  | .unsupported => 0#16
  | .unitOffline => maskOffline ||| maskNotReady
  | .unitUnsafe => maskUnsafe ||| maskPackChange
  | .writeProtected => maskWriteProtect
  | .cylinderOutOfRange => maskSeekIncomplete
  | .headOutOfRange => maskEndOfCylinder
  | .sectorOutOfRange => 0#16
  | .shortRead => 0#16
  | .shortWrite => maskOffline ||| maskNotReady
  | .seekFailed => maskUnsafe ||| maskPackChange

/-- `S7` of an outcome, ORed into `w7` together with `IDLE` (60_exceptions.md R135). -/
def CmdOutcome.detail : CmdOutcome → Word
  | .success => maskComplete
  | .noUnitSelected => maskError ||| maskAbnormalCompletion
  | .unsupported => maskError ||| maskAbnormalCompletion
  | .unitOffline => maskError ||| maskUnitError
  | .unitUnsafe => maskError ||| maskUnitError
  | .writeProtected => maskError ||| maskUnitError
  | .cylinderOutOfRange => maskError ||| maskUnitError
  | .headOutOfRange => maskError ||| maskUnitError
  | .sectorOutOfRange => maskError ||| maskCommandTimeout
  | .shortRead => maskError ||| maskCommandTimeout
  | .shortWrite => maskError ||| maskUnitError
  | .seekFailed => maskError ||| maskUnitError

/-- `INT_ENABLE and (COMPLETE or ERROR)` (60_exceptions.md R140). -/
def completionPending (w7 : Word) : Bool := w7.getLsbD 12 && (w7.getLsbD 14 || w7.getLsbD 13)

/-- Some unit has both its attention line and its enable set (60_exceptions.md R140). -/
def attentionPending (w0 : Word) : Bool := ((w0 &&& (w0 >>> 4)) &&& 0x000F#16) != 0#16

/-- The arbiter: the level as a combinational function of `w0` and `w7` (60_exceptions.md R140). -/
def arbiterLevel (w0 w7 : Word) : Bool := idle w7 && (completionPending w7 || attentionPending w0)

end Sys2Proof.Machine
end

