-- ==== Sys2Proof/Machine/Operands.lean ====
section
/-! DEFINITION. Operands: register indices, write masks and byte lanes, unit numbers, and the operands of a command block. -/

namespace Sys2Proof.Machine

/-! ## Registers -/

/-- The register an index names; none outside 0..7 (20_memory.md R40). -/
def regIndex (index : Nat) : Option (Fin 8) := if h : index < 8 then some ⟨index, h⟩ else none

/-- `w[i]`: all 16 bits as they stand (10_state.md R13). -/
def Regs.get (r : Regs) (i : Fin 8) : Word :=
  match i with
  | 0 => r.w0
  | 1 => r.w1
  | 2 => r.w2
  | 3 => r.w3
  | 4 => r.w4
  | 5 => r.w5
  | 6 => r.w6
  | 7 => r.w7

/-- `w[i] <- v`, at controller privilege: all 16 bits (00_scope.md R9). -/
def Regs.set (r : Regs) (i : Fin 8) (v : Word) : Regs :=
  match i with
  | 0 => { r with w0 := v }
  | 1 => { r with w1 := v }
  | 2 => { r with w2 := v }
  | 3 => { r with w3 := v }
  | 4 => { r with w4 := v }
  | 5 => { r with w5 := v }
  | 6 => { r with w6 := v }
  | 7 => { r with w7 := v }

/-- `WMASK`: the bits of a register the host may modify (10_state.md R14). -/
def writeMask (i : Fin 8) : Word :=
  match i with
  | 0 => 0x000F#16
  | 1 => 0xFFFF#16
  | 2 => 0xFFFF#16
  | 3 => 0xFFFF#16
  | 4 => 0xFFFF#16
  | 5 => 0xFFFF#16
  | 6 => 0xFFFF#16
  | 7 => 0xF7FF#16

/-- `suppress_lanes`: the byte lanes the caller declared untouched (30_encoding.md R58, 40_register_access.md R77). -/
def suppressMask (lanes : BitVec 2) : Word :=
  (if lanes.getLsbD 0 then 0x00FF#16 else 0#16) ||| (if lanes.getLsbD 1 then 0xFF00#16 else 0#16)

/-- The masked merge of a host write (40_register_access.md R76). -/
def mergeWrite (i : Fin 8) (old value : Word) (lanes : BitVec 2) : Word :=
  (old &&& (~~~writeMask i ||| suppressMask lanes)) ||| (value &&& writeMask i &&& ~~~suppressMask lanes)

/-! ## Units -/

/-- `unit[k]`. -/
def Units.get (us : Units) (k : UnitId) : DiskUnit :=
  match k with
  | 0 => us.u0
  | 1 => us.u1
  | 2 => us.u2
  | 3 => us.u3

/-- `unit[k] <- u`. -/
def Units.set (us : Units) (k : UnitId) (u : DiskUnit) : Units :=
  match k with
  | 0 => { us with u0 := u }
  | 1 => { us with u1 := u }
  | 2 => { us with u2 := u }
  | 3 => { us with u3 := u }

/-- A number as a unit of this controller: none at or above `MAX_UNITS` (45_unit_management.md R126(a), R128). A machine's
`MAX_UNITS` is 1..4 (`Config.maxUnits`); the function is total, and what it answers for another bound no step uses
(U20; log 27). -/
def unitOfNat (maxUnits k : Nat) : Option UnitId :=
  if h : k < 4 then (if k < maxUnits then some ⟨k, h⟩ else none) else none

/-- The number of the lowest-numbered unit whose select bit is set: `SEL[k]` is `w6[11-k]`, so bit `3-k` of the field
(10_state.md R22, 41_command_execution.md R86). -/
def lowestSelected (sel : BitVec 4) : Option Nat :=
  if sel.getLsbD 3 then some 0
  else if sel.getLsbD 2 then some 1
  else if sel.getLsbD 1 then some 2
  else if sel.getLsbD 0 then some 3
  else none

/-- `current_unit()`: the lowest-numbered select bit wins, and a winner at or above `MAX_UNITS` is none
(41_command_execution.md R86). -/
def currentUnit (maxUnits : Nat) (sel : BitVec 4) : Option UnitId :=
  match lowestSelected sel with
  | none => none
  | some k => unitOfNat maxUnits k

/-! ## Operands of a command block -/

/-- The command block, read live (20_memory.md R55). -/
def Regs.block (r : Regs) : BlockWords :=
  { w1 := r.w1, w2 := r.w2, w3 := r.w3, w4 := r.w4, w5 := r.w5, w6 := r.w6 }

/-- `byte_count = w4 & 0xFFFE` (30_encoding.md R65). -/
def byteCount (b : CommandBlock) : Nat := (b.count &&& 0xFFFE#16).toNat

/-- `dma_address = ((w6[4:0] << 16) | w5) & 0x1FFFFE` (30_encoding.md R66, 42_geometry_dma.md R103). -/
def dmaAddress (b : CommandBlock) : DmaAddr := (b.dmaHi ++ b.dmaLo : DmaAddr) &&& Config.dmaMask

/-- `dma_address <- (dma_address + 2) & 0x1FFFFE` (42_geometry_dma.md R104). -/
def nextDma (a : DmaAddr) : DmaAddr := (a + 2#21) &&& Config.dmaMask

/-- The words a three-word transfer moves when `BYTE_COUNT` bounds it: `min(3, byte_count / 2)` (42_geometry_dma.md R108). -/
def wordLimit (b : CommandBlock) : Nat := min 3 (byteCount b / 2)

/-- `trunc_16` (00_scope.md R9, 42_geometry_dma.md R110). -/
def trunc16 (v : Nat) : Word := BitVec.ofNat 16 v

/-- The geometry words of Store Registers: formatted words per track, sectors per track with the overhead byte, heads
and cylinders packed (43_commands_control.md R113). -/
def geometryWords (u : DiskUnit) : List Word :=
  [ trunc16 ((u.sectorsPerTrack.toNat * u.bytesPerSector.toNat) >>> 1),
    trunc16 ((u.sectorsPerTrack.toNat <<< 8) ||| Config.overheadByte),
    trunc16 ((u.heads.toNat <<< 11) ||| u.cylinders.toNat) ]

/-- The echo words of Unformatted Read: the packed address, `0x0100 | sector`, words per sector
(43_commands_control.md R114). -/
def echoWords (u : DiskUnit) (b : CommandBlock) : List Word :=
  [ trunc16 ((b.head.toNat <<< 11) ||| b.cylinder.toNat),
    trunc16 ((1 <<< 8) ||| b.sector.toNat),
    trunc16 (u.bytesPerSector.toNat >>> 1) ]

/-! ## The disk image's header -/

/-- A big-endian 32-bit field of the header (45_unit_management.md R121). -/
def headerField (b0 b1 b2 b3 : Byte) : BitVec 32 := b0 ++ b1 ++ b2 ++ b3

/-- The geometry of a disk image: cylinders, heads, sectors per track, bytes per sector. -/
structure Geometry where
  cylinders : BitVec 32
  heads : BitVec 32
  sectorsPerTrack : BitVec 32
  bytesPerSector : BitVec 32
  deriving DecidableEq, Repr

/-- The four fields of a header of 16 bytes; none for another length (45_unit_management.md R121, R126(c)). -/
def parseHeader : List Byte → Option Geometry
  | [c0, c1, c2, c3, h0, h1, h2, h3, s0, s1, s2, s3, b0, b1, b2, b3] =>
    some { cylinders := headerField c0 c1 c2 c3, heads := headerField h0 h1 h2 h3,
           sectorsPerTrack := headerField s0 s1 s2 s3, bytesPerSector := headerField b0 b1 b2 b3 }
  | _ => none

end Sys2Proof.Machine
end

