-- ==== Sys2Proof/Machine/Ops.lean ====
section
/-! DEFINITION. The named operations over memory, backing stores and state that every meaning is written from; completion posting among them. -/

namespace Sys2Proof.Machine

/-! ## Updates of one field -/

namespace State

def withRegs (s : State) (r : Regs) : State := { s with regs := r }
def withUnits (s : State) (us : Units) : State := { s with units := us }
def withLevel (s : State) (l : Bool) : State := { s with intLevel := l }
def withXfer (s : State) (x : Transfer) : State := { s with xfer := x }
def withMem (s : State) (m : Memory) : State := { s with mem := m }
def withReply (s : State) (r : Reply) : State := { s with reply := r }
def withPending (s : State) (p : List Input) : State := { s with pending := p }

/-- The collaborators see one more event. -/
def emit (s : State) (e : Event) : State := { s with trace := e :: s.trace }

/-- `unit[k]`. -/
def unit (s : State) (k : UnitId) : DiskUnit := s.units.get k

/-- `unit[k] <- u`. -/
def setUnit (s : State) (k : UnitId) (u : DiskUnit) : State := s.withUnits (s.units.set k u)

/-- The store of unit `k` becomes `st` (its content or position changed). -/
def setStore (s : State) (k : UnitId) (st : BackingStore) : State :=
  s.setUnit k { s.unit k with backingStore := some st }

end State

/-! ## Host memory (20_memory.md R41, R44) -/

namespace Memory

/-- Addresses strictly rise from `lo` on and stay inside the 2 MiB window. -/
def wfFrom : Nat → Memory → Bool
  | _, [] => true
  | lo, (a, _) :: rest => decide (lo ≤ a) && decide (a < 0x200000) && wfFrom (a + 1) rest

/-- The canonical form: addresses strictly rising, all inside the window. What an unlisted address reads as is no
byte that was written, so no entry can equal it (log 4). -/
def wf (m : Memory) : Bool := wfFrom 0 m

/-- The byte written at an address; none where nothing has been written. -/
def lookup : Memory → Nat → Option Byte
  | [], _ => none
  | (a, v) :: rest, x => if x = a then some v else lookup rest x

/-- The byte an address reads as: what was written, else the free input (20_memory.md R41, D21). -/
def readByte (m : Memory) (a : Nat) : Byte := (lookup m a).getD (Config.unwrittenByte a)

/-- Write one byte, keeping the canonical form. -/
def writeByte : Memory → Nat → Byte → Memory
  | [], x, v => [(x, v)]
  | (a, b) :: rest, x, v =>
    if x < a then (x, v) :: (a, b) :: rest
    else if x = a then (x, v) :: rest
    else (a, b) :: writeByte rest x v

/-- The even byte address a word access uses: every address presented satisfies `address & ~0x1FFFFE = 0`
(20_memory.md R41, R46). -/
def wordBase (a : DmaAddr) : Nat := (a &&& Config.dmaMask).toNat

/-- `MemRead(addr, 2)`: big-endian, byte `a` high and `a + 1` low (20_memory.md R44). -/
def readWord (m : Memory) (a : DmaAddr) : Word :=
  wordOfBytes (readByte m (wordBase a)) (readByte m (wordBase a + 1))

/-- `MemWrite(addr, 2, v)`. -/
def writeWord (m : Memory) (a : DmaAddr) (v : Word) : Memory :=
  writeByte (writeByte m (wordBase a) (highByte v)) (wordBase a + 1) (lowByte v)

end Memory

/-! ## The DMA engine (42_geometry_dma.md R104 to R108) -/

/-- Write one word at the running address and advance it (R104). -/
def dmaWriteWord (v : Word) (s : State) : State :=
  ((s.withMem (s.mem.writeWord s.xfer.dma v)).withXfer { s.xfer with dma := nextDma s.xfer.dma }).emit
    (.memWrite s.xfer.dma v)

/-- Write words in order of transfer (20_memory.md R52). -/
def dmaWriteWords : List Word → State → State
  | [], s => s
  | v :: vs, s => dmaWriteWords vs (dmaWriteWord v s)

/-- Read one word at the running address and advance it (R104, R106). -/
def dmaReadWord (s : State) : Word × State :=
  (s.mem.readWord s.xfer.dma,
    (s.withXfer { s.xfer with dma := nextDma s.xfer.dma }).emit (.memRead s.xfer.dma))

/-- Read `n` words in order of transfer (20_memory.md R52). -/
def dmaReadWords : Nat → State → List Word × State
  | 0, s => ([], s)
  | n + 1, s => ((dmaReadWord s).1 :: (dmaReadWords n (dmaReadWord s).2).1, (dmaReadWords n (dmaReadWord s).2).2)

/-- "the bytes two-at-a-time as big-endian words" (R105). An admitted sector leaves no odd byte (log 24). -/
def packWords : List Byte → List Word
  | hi :: lo :: rest => wordOfBytes hi lo :: packWords rest
  | _ => []

/-- Words into bytes, the mirror of packing (R106). -/
def unpackWords : List Word → List Byte
  | [] => []
  | v :: vs => highByte v :: lowByte v :: unpackWords vs

/-- The sector buffer takes bytes at its front and keeps the rest (R107). -/
def fillBuffer (buffer bytes : List Byte) : List Byte := bytes ++ buffer.drop bytes.length

/-! ## Backing stores (45_unit_management.md R129 to R132) -/

end Sys2Proof.Machine

namespace Sys2Proof.BackingStore

/-- `StoreSeek` (R129): the environment's answer, or success as the reference store answers (R132). -/
def seek (st : BackingStore) (pos : Nat) : Bool × BackingStore :=
  match st.seekPlan with
  | [] => (true, { st with pos := pos })
  | .moved :: rest => (true, { st with pos := pos, seekPlan := rest })
  | .failed at' :: rest => (false, { st with pos := at', seekPlan := rest })

/-- How many of `n` bytes the environment is ready to deliver: all of them when its plan is empty (R130, R132). -/
def readLimit (st : BackingStore) (n : Nat) : Nat :=
  match st.readPlan with
  | [] => n
  | l :: _ => min l n

/-- The bytes a `StoreRead` of `n` delivers: content from the position on, at most what the store holds (R130, R132). -/
def readBytes (st : BackingStore) (n : Nat) : List Byte := (st.data.drop st.pos).take (st.readLimit n)

/-- `StoreRead` (R130): the bytes, and the store with its position advanced by their number. -/
def read (st : BackingStore) (n : Nat) : List Byte × BackingStore :=
  (st.readBytes n, { st with pos := st.pos + (st.readBytes n).length, readPlan := st.readPlan.tail })

/-- Content with the bytes at `pos` on replaced; a gap before `pos` is filled with 0x00 and the list grows as needed
(R132). No byte written changes nothing (R131). R132 says so of the reference store; that the gap is 0x00 for a store with
planned answers too, where R131 is silent, is the model's choice: DESIGN CHOICE, unsafe (log 28). -/
def overwrite (data : List Byte) (pos : Nat) (bytes : List Byte) : List Byte :=
  match bytes with
  | [] => data
  | _ => data.take pos ++ List.replicate (pos - data.length) 0#8 ++ bytes ++ data.drop (pos + bytes.length)

/-- The environment's answer to the next `StoreWrite` of `n` bytes: all are accepted when its plan is empty (R132). -/
def writeAnswer (st : BackingStore) (n : Nat) : WriteAnswer :=
  match st.writePlan with
  | [] => { accepted := n, tail := [] }
  | a :: _ => a

/-- The count `m` a `StoreWrite` of `n` bytes answers (R131). -/
def acceptedCount (st : BackingStore) (n : Nat) : Nat := min (st.writeAnswer n).accepted n

/-- What a `StoreWrite` puts from the position on: the first `m` bytes, then what the environment leaves in the place
of the others (R131, U9; log 8). -/
def writtenBytes (st : BackingStore) (bytes : List Byte) : List Byte :=
  bytes.take (st.acceptedCount bytes.length) ++
    (st.writeAnswer bytes.length).tail.take (bytes.length - st.acceptedCount bytes.length)

/-- `StoreWrite` (R131): the count `m`, and the store with its content changed and its position advanced by `m`. -/
def write (st : BackingStore) (bytes : List Byte) : Nat × BackingStore :=
  (st.acceptedCount bytes.length,
    { st with data := overwrite st.data st.pos (st.writtenBytes bytes),
              pos := st.pos + st.acceptedCount bytes.length, writePlan := st.writePlan.tail })

end Sys2Proof.BackingStore

namespace Sys2Proof.Machine

/-- `StoreSeek(k, pos)`. The case without a store is never reached: `seek` tests for it first (log 23). -/
def storeSeek (k : UnitId) (pos : Nat) (s : State) : Bool × State :=
  match (s.unit k).backingStore with
  | none => (false, s)
  | some st => ((st.seek pos).1,
      (s.setStore k (st.seek pos).2).emit (.storeSeek k pos (st.seek pos).1))

/-- `StoreRead(k, n)`. Without a store nothing is delivered; `require_online` comes first (log 23). -/
def storeRead (k : UnitId) (n : Nat) (s : State) : List Byte × State :=
  match (s.unit k).backingStore with
  | none => ([], s)
  | some st => ((st.read n).1,
      (s.setStore k (st.read n).2).emit (.storeRead k n (st.read n).1.length))

/-- `StoreWrite(k, bytes)`. Without a store nothing is accepted; `require_online` comes first (log 23). -/
def storeWrite (k : UnitId) (bytes : List Byte) (s : State) : Nat × State :=
  match (s.unit k).backingStore with
  | none => (0, s)
  | some st => ((st.write bytes).1,
      (s.setStore k (st.write bytes).2).emit
        (.storeWrite k bytes.length (st.write bytes).1))

/-! ## The arbiter, entry and completion -/

/-- `arbiter()`: evaluate the level and drive the sink (60_exceptions.md R141). -/
def driveSink (s : State) : State :=
  (s.withLevel (arbiterLevel s.regs.w0 s.regs.w7)).emit (.sink (arbiterLevel s.regs.w0 s.regs.w7))

/-- The entry of a command: the status byte of `w0` is cleared, nothing else (41_command_execution.md R83). -/
def enterCommand (s : State) : State := s.withRegs { s.regs with w0 := s.regs.w0 &&& 0x00FF#16 }

/-- Completion posting, the hardware's only exception entry (41_command_execution.md R94, 60_exceptions.md R144): the
outcome's masks are ORed into `w0` and `w7` with `IDLE`, and the arbiter runs. -/
def complete (o : CmdOutcome) (s : State) : State :=
  driveSink (s.withRegs
    { s.regs with w0 := s.regs.w0 ||| o.status, w7 := s.regs.w7 ||| maskIdle ||| o.detail })

/-- How a handler ends: with an outcome, or with no meaning given. -/
inductive Handler where
  | ended (o : CmdOutcome) (s : State)
  | noMeaning (r : Refusal)
  deriving DecidableEq, Repr

/-- Every handler ends by exactly one completion (41_command_execution.md R95). -/
def Handler.finish : Handler → Host.Outcome State Fault Refusal
  | .ended o s => .next (complete o s)
  | .noMeaning r => .refused r

/-! ## Preconditions (41_command_execution.md R89 to R93) -/

/-- `require_unit` (R89). -/
def requireUnit (b : CommandBlock) (s : State) (body : UnitId → Handler) : Handler :=
  match currentUnit s.cfg.maxUnits b.sel with
  | none => .ended .noUnitSelected s
  | some k => body k

/-- `require_online` (R90). -/
def requireOnline (k : UnitId) (s : State) (body : Handler) : Handler :=
  if (s.unit k).backingStore.isNone then .ended .unitOffline s else body

/-- `require_safe` (R91). -/
def requireSafe (k : UnitId) (s : State) (body : Handler) : Handler :=
  if (s.unit k).unsafeFlag then .ended .unitUnsafe s else body

/-- `require_writable` (R92). -/
def requireWritable (k : UnitId) (s : State) (body : Handler) : Handler :=
  if (s.unit k).writeProtected then .ended .writeProtected s else body

/-! ## The CHS validator, seek and advance (42_geometry_dma.md R97 to R101) -/

/-- `validate`: the first failing comparison, bounds inclusive; none for a valid address (R97, R98). -/
def validate (u : DiskUnit) (cylinder head sector : Nat) : Option CmdOutcome :=
  if cylinder > u.cylinders.toNat then some .cylinderOutOfRange
  else if head > u.heads.toNat then some .headOutOfRange
  else if sector > u.sectorsPerTrack.toNat then some .sectorOutOfRange
  else none

/-- `byte_position`, in unbounded naturals (R100). -/
def bytePosition (u : DiskUnit) (cylinder head sector : Nat) : Nat :=
  ((cylinder * u.heads.toNat + head) * u.sectorsPerTrack.toNat + sector) * u.bytesPerSector.toNat + Config.headerLen

/-- `seek(k, cyl, head, sector)` (R99), then the rest of the handler. -/
def seekUnit (k : UnitId) (cylinder head sector : Nat) (s : State) (body : State → Handler) : Handler :=
  match (s.unit k).backingStore with
  | none => .ended .unitOffline s
  | some _ =>
    match validate (s.unit k) cylinder head sector with
    | some o => .ended o s
    | none =>
      if (storeSeek k (bytePosition (s.unit k) cylinder head sector) s).1 then
        body (storeSeek k (bytePosition (s.unit k) cylinder head sector) s).2
      else .ended .seekFailed (storeSeek k (bytePosition (s.unit k) cylinder head sector) s).2

/-- The ripple carry of the running address: equality tests after the increment (R101). -/
def advanceChs (u : DiskUnit) (x : Transfer) : Transfer :=
  if x.sector + 1 = u.sectorsPerTrack.toNat then
    if x.head + 1 = u.heads.toNat then { x with sector := 0, head := 0, cylinder := x.cylinder + 1 }
    else { x with sector := 0, head := x.head + 1 }
  else { x with sector := x.sector + 1 }

/-- The geometries the data commands have a meaning for: `bytes_per_sector` even and in 2..512
(45_unit_management.md R134). -/
def admittedSectorSize (u : DiskUnit) : Bool :=
  decide (u.bytesPerSector.toNat % 2 = 0) && decide (2 ≤ u.bytesPerSector.toNat) &&
    decide (u.bytesPerSector.toNat ≤ Config.maxSectorSize)

/-! ## Transient executor state (10_state.md R31, 41_command_execution.md R87) -/

/-- The operands and the resolved unit are taken. -/
def takeOperands (b : CommandBlock) (k : UnitId) (s : State) : State :=
  s.withXfer { s.xfer with operands := b, unit := some k }

/-- The running DMA address starts at the block's (42_geometry_dma.md R103). -/
def takeDma (b : CommandBlock) (s : State) : State := s.withXfer { s.xfer with dma := dmaAddress b }

/-- The remaining count and the running CHS counters start at the block's operands (42_geometry_dma.md R101, R111). -/
def takeAddress (b : CommandBlock) (s : State) : State :=
  s.withXfer { s.xfer with remaining := byteCount b, cylinder := b.cylinder.toNat, head := b.head.toNat,
                           sector := b.sector.toNat }

/-- `unit[k].unsafe_flag <- false` (43_commands_control.md R113, R117). -/
def clearUnsafe (k : UnitId) (s : State) : State := s.setUnit k { s.unit k with unsafeFlag := false }

end Sys2Proof.Machine
end

