-- ==== Sys2Proof/Machine/Control.lean ====
section
/-! DEFINITION. The commands without sector data: Store Registers, Unformatted Read, Unformatted Write, Seek, Restore (43_commands_control.md). -/

namespace Sys2Proof.Machine

/-- The handler of Store Registers (R113). -/
def stregHandler (b : CommandBlock) (s : State) : Handler :=
  requireUnit b s fun k =>
  requireOnline k s <|
    let s1 := takeDma b (takeOperands b k (clearUnsafe k s))
    .ended .success
      (if b.ti then s1 else dmaWriteWords ((geometryWords (s.unit k)).take (wordLimit b)) s1)

/-- STREG, Store Registers (R113): entry, handler, completion, whatever the phase (log 19). -/
def execStreg (b : CommandBlock) (s : State) : Host.Outcome State Fault Refusal :=
  (stregHandler b (enterCommand s)).finish

/-- How many words Unformatted Read moves: `min(3, byte_count / 2)` if `UFR_COUNT_BOUNDED`, else 3 (R114, D11). -/
def echoLimit (cfg : Config) (b : CommandBlock) : Nat := if cfg.ufrCountBounded then wordLimit b else 3

/-- The handler of Unformatted Read (R114): the address is validated, nothing is sought, no store is touched. -/
def ufreadHandler (b : CommandBlock) (s : State) : Handler :=
  requireUnit b s fun k =>
  requireOnline k s <|
  requireSafe k s <|
    match validate (s.unit k) b.cylinder.toNat b.head.toNat b.sector.toNat with
    | some o => .ended o s
    | none =>
      let s1 := takeDma b (takeOperands b k s)
      .ended .success
        (if b.ti then s1 else dmaWriteWords ((echoWords (s.unit k) b).take (echoLimit s.cfg b)) s1)

/-- UFREAD, Unformatted Read (R114). -/
def execUfread (b : CommandBlock) (s : State) : Host.Outcome State Fault Refusal :=
  (ufreadHandler b (enterCommand s)).finish

/-- UFWRITE, Unformatted Write (R115): always `Unsupported`, no operand read. -/
def execUfwrite (s : State) : Host.Outcome State Fault Refusal :=
  (Handler.ended .unsupported (enterCommand s)).finish

/-- SEEK (R116): always `Success`, no operand read, no positioning. -/
def execSeek (s : State) : Host.Outcome State Fault Refusal :=
  (Handler.ended .success (enterCommand s)).finish

/-- The handler of Restore (R117): the flag is cleared before the seek and stays cleared if the seek fails. -/
def restoreHandler (b : CommandBlock) (s : State) : Handler :=
  requireUnit b s fun k =>
  requireOnline k s <|
  seekUnit k 0 0 0 (takeOperands b k (clearUnsafe k s)) fun s1 => .ended .success s1

/-- RESTORE (R117). -/
def execRestore (b : CommandBlock) (s : State) : Host.Outcome State Fault Refusal :=
  (restoreHandler b (enterCommand s)).finish

end Sys2Proof.Machine
end

