-- ==== Sys2Proof/Machine/Data.lean ====
section
/-! DEFINITION. The commands that move sector data: Write Format, Read Data, Write Data (44_commands_data.md). -/

namespace Sys2Proof.Machine

/-! ## Write Format (R118) -/

/-- "repeat S times: if StoreWrite(k, zero) != B: raise ShortWrite". -/
def formatSectors (k : UnitId) : Nat → State → Handler
  | 0, s => .ended .success s
  | n + 1, s =>
    let zero := List.replicate (s.unit k).bytesPerSector.toNat 0#8
    if (storeWrite k zero s).1 = zero.length then formatSectors k n (storeWrite k zero s).2
    else .ended .shortWrite (storeWrite k zero s).2

/-- The handler of Write Format: the checks, the seek to sector 0 of the track, one track of zero bytes. -/
def wrfmtHandler (b : CommandBlock) (s : State) : Handler :=
  requireUnit b s fun k =>
  requireOnline k s <|
  requireSafe k s <|
  requireWritable k s <|
  seekUnit k b.cylinder.toNat b.head.toNat 0 (takeOperands b k s) fun s1 =>
    if admittedSectorSize (s.unit k) then formatSectors k (s.unit k).sectorsPerTrack.toNat s1
    else .noMeaning .inadmissibleGeometry

/-- WRFMT, Write Format (R118). -/
def execWrfmt (b : CommandBlock) (s : State) : Host.Outcome State Fault Refusal :=
  (wrfmtHandler b (enterCommand s)).finish

/-! ## The sector loop of Read Data and Write Data -/

/-- How one iteration ends. -/
inductive Iteration where
  | again (s : State)
  | stop (o : CmdOutcome) (s : State)
  deriving DecidableEq, Repr

/-- "while remaining > 0". The first argument bounds the iterations: each moves at least two bytes of an admitted
sector, so the byte count is always enough (42_geometry_dma.md R111; log 21). -/
def sectorLoop (body : State → Iteration) : Nat → State → Handler
  | 0, s => .ended .success s
  | fuel + 1, s =>
    if s.xfer.remaining = 0 then .ended .success s
    else match body s with
      | .stop o s1 => .ended o s1
      | .again s1 => sectorLoop body fuel s1

/-- The end of an iteration: `remaining <- remaining - n`, then the address advances (R101, R111). -/
def nextSector (k : UnitId) (n : Nat) (s : State) : State :=
  s.withXfer (advanceChs (s.unit k) { s.xfer with remaining := s.xfer.remaining - n })

/-- `n = min(remaining, B)`. -/
def chunk (k : UnitId) (s : State) : Nat := min s.xfer.remaining (s.unit k).bytesPerSector.toNat

/-- The sector buffer takes bytes at its front. -/
def loadBuffer (bytes : List Byte) (s : State) : State :=
  s.withXfer { s.xfer with buffer := fillBuffer s.xfer.buffer bytes }

/-- One iteration of Read Data (R119): the in-loop cylinder check (R102), the store read, the DMA writes unless `TI`. -/
def readSector (k : UnitId) (ti : Bool) (s : State) : Iteration :=
  if s.xfer.cylinder > (s.unit k).cylinders.toNat then .stop .cylinderOutOfRange s
  else
    let r := storeRead k (chunk k s) s
    let s1 := loadBuffer r.1 r.2
    if r.1.length = chunk k s then
      .again (nextSector k (chunk k s) (if ti then s1 else dmaWriteWords (packWords r.1) s1))
    else .stop .shortRead s1

/-- The sector Write Data assembles: `n` bytes from host memory, zero bytes to the end of the sector (R106, R120). -/
def paddedSector (size : Nat) (bytes : List Byte) : List Byte := bytes ++ List.replicate (size - bytes.length) 0#8

/-- One iteration of Write Data (R120): the in-loop cylinder check, the DMA reads whatever `TI` says, the store write
of a whole sector. -/
def writeSector (k : UnitId) (s : State) : Iteration :=
  if s.xfer.cylinder > (s.unit k).cylinders.toNat then .stop .cylinderOutOfRange s
  else
    let size := (s.unit k).bytesPerSector.toNat
    let r := dmaReadWords (chunk k s / 2) s
    let s1 := loadBuffer (paddedSector size (unpackWords r.1)) r.2
    let w := storeWrite k (s1.xfer.buffer.take size) s1
    if w.1 = size then .again (nextSector k (chunk k s) w.2) else .stop .shortWrite w.2

/-- The loop, for a unit the data commands have a meaning for. On another it is refused with any byte count, 0 included:
"The rules of 44_commands_data.md are given a meaning only for" admitted geometries (R134, R168, U3; log 9, log 10). -/
def transferSectors (b : CommandBlock) (u : DiskUnit) (body : State → Iteration) (s : State) : Handler :=
  if admittedSectorSize u then sectorLoop body (byteCount b) s
  else .noMeaning .inadmissibleGeometry

/-! ## Read Data (R119) -/

/-- The handler of Read Data. -/
def rddataHandler (b : CommandBlock) (s : State) : Handler :=
  requireUnit b s fun k =>
  requireOnline k s <|
  requireSafe k s <|
  seekUnit k b.cylinder.toNat b.head.toNat b.sector.toNat (takeOperands b k s) fun s1 =>
    transferSectors b (s.unit k) (readSector k b.ti) (takeAddress b (takeDma b s1))

/-- RDDATA, Read Data (R119). -/
def execRddata (b : CommandBlock) (s : State) : Host.Outcome State Fault Refusal :=
  (rddataHandler b (enterCommand s)).finish

/-! ## Write Data (R120) -/

/-- The handler of Write Data. -/
def wrdataHandler (b : CommandBlock) (s : State) : Handler :=
  requireUnit b s fun k =>
  requireOnline k s <|
  requireSafe k s <|
  requireWritable k s <|
  seekUnit k b.cylinder.toNat b.head.toNat b.sector.toNat (takeOperands b k s) fun s1 =>
    transferSectors b (s.unit k) (writeSector k) (takeAddress b (takeDma b s1))

/-- WRDATA, Write Data (R120). -/
def execWrdata (b : CommandBlock) (s : State) : Host.Outcome State Fault Refusal :=
  (wrdataHandler b (enterCommand s)).finish

end Sys2Proof.Machine
end

