-- ==== Sys2Proof/Machine/Executor.lean ====
section
/-! DEFINITION. The command decoder and executor: the dispatch on the command field (41_command_execution.md R83, R84). -/

namespace Sys2Proof.Machine

/-- Exactly one handler runs, selected by the 3-bit command field (R84; 30_encoding.md R63). -/
def runCommand (code : BitVec 3) (b : CommandBlock) (s : State) : Host.Outcome State Fault Refusal :=
  match code.toNat with
  | 0 => execStreg b s
  | 1 => execWrfmt b s
  | 2 => execRddata b s
  | 3 => execWrdata b s
  | 4 => execUfread b s
  | 5 => execUfwrite s
  | 6 => execSeek s
  | _ => execRestore b s

/-- `execute_command()` (R83): the command block is read from the live registers (20_memory.md R55) and run. -/
def executeCommand (s : State) : Host.Outcome State Fault Refusal :=
  runCommand (commandField s.regs.w1) (blockOfWords s.regs.block) s

end Sys2Proof.Machine
end

