-- ==== Sys2Proof/Machine/Access.lean ====
section
/-! DEFINITION. Host register access: REGRD and REGWR, with the command trigger (40_register_access.md). -/

namespace Sys2Proof.Machine

/-- The value a read answers: the live register, 0x0000 for an index outside 0..7 (R73, D6). -/
def readValue (index : Nat) (s : State) : Word :=
  match regIndex index with
  | none => 0#16
  | some i => s.regs.get i

/-- REGRD (R73): no side effect; the value goes to the host. -/
def execRegrd (index : Nat) (s : State) : Host.Outcome State Fault Refusal :=
  .next (s.withReply (.value (readValue index s)))

/-- "If index != 7 and idle bit of w[7] is clear (controller busy): no-op" (R75; log 15). -/
def busyGuard (i : Fin 8) (s : State) : Bool := decide (i ≠ 7) && !idle s.regs.w7

/-- Step 3, the masked merge (R76). -/
def mergeRegister (i : Fin 8) (value : Word) (lanes : BitVec 2) (s : State) : State :=
  s.withRegs (s.regs.set i (mergeWrite i (s.regs.get i) value lanes))

/-- Step 4: a write to `w0` or `w7` re-runs the arbiter (R78). -/
def arbitrateWrite (i : Fin 8) (s : State) : State := if i = 0 ∨ i = 7 then driveSink s else s

/-- Step 5: a write to `w7` that changes `IDLE` from 1 to 0 starts a command (R79). -/
def triggers (i : Fin 8) (old new : Word) : Bool := decide (i = 7) && idle old && !idle new

/-- REGWR (R74 to R79), for an index in range. -/
def writeRegister (i : Fin 8) (value : Word) (lanes : BitVec 2) (s : State) : Host.Outcome State Fault Refusal :=
  if busyGuard i s then .next s
  else if triggers i (s.regs.get i) (mergeWrite i (s.regs.get i) value lanes) then
    executeCommand (arbitrateWrite i (mergeRegister i value lanes s))
  else .next (arbitrateWrite i (mergeRegister i value lanes s))

/-- REGWR (R74 to R80): an index outside 0..7 is a no-op (R74). -/
def execRegwr (index : Nat) (value : Word) (lanes : BitVec 2) (s : State) : Host.Outcome State Fault Refusal :=
  match regIndex index with
  | none => .next s
  | some i => writeRegister i value lanes s

end Sys2Proof.Machine
end

