-- ==== Sys2Proof/Machine/Management.lean ====
section
/-! DEFINITION. Unit management and reset: ATTACH, DETACH (45_unit_management.md), INIT (70_reset_and_hazards.md R157). -/

namespace Sys2Proof.Machine

/-! ## Detach (R127, R128) -/

/-- The detached unit's store, if any, goes back to the environment (R127; log 20). -/
def releaseStore (k : UnitId) (s : State) : State :=
  match (s.unit k).backingStore with
  | none => s
  | some st => s.emit (.released k st)

/-- `detach(k)`: the Detached fields, the attention line cleared, the arbiter (R127). -/
def detachUnit (k : UnitId) (s : State) : State :=
  let s1 := (releaseStore k s).setUnit k DiskUnit.detached
  driveSink (s1.withRegs { s1.regs with w0 := s1.regs.w0 &&& ~~~attnMask k })

/-- DETACH (R127, R128): no-op for a unit at or above `MAX_UNITS`. -/
def execDetach (unit : Nat) (s : State) : Host.Outcome State Fault Refusal :=
  match unitOfNat s.cfg.maxUnits unit with
  | none => .next s
  | some k => .next (detachUnit k s)

/-! ## Attach (R124 to R126) -/

/-- The header `attach` reads, with the store after it: `StoreSeek(0); StoreRead(16)`. No geometry when the reposition
fails, the header is short (R126(c)) or `bytes_per_sector` is above 512 (R123, R125). -/
def readHeader (st : BackingStore) : Option Geometry × BackingStore :=
  let sought := st.seek 0
  if sought.1 then
    let r := sought.2.read Config.headerLen
    match parseHeader r.1 with
    | none => (none, r.2)
    | some g => (if g.bytesPerSector.toNat ≤ Config.maxSectorSize then some g else none, r.2)
  else (none, sought.2)

/-- The store accesses of reading the header, as the store's owner sees them. -/
def headerEvents (k : UnitId) (st : BackingStore) (s : State) : State :=
  let sought := st.seek 0
  let s1 := s.emit (.storeSeek k 0 sought.1)
  if sought.1 then s1.emit (.storeRead k Config.headerLen (sought.2.read Config.headerLen).1.length) else s1

/-- The descriptor of a unit just attached (R124). -/
def attachedUnit (g : Geometry) (st : BackingStore) (readOnly : Bool) : DiskUnit where
  backingStore := some st
  writeProtected := readOnly
  unsafeFlag := true
  cylinders := g.cylinders
  heads := g.heads
  sectorsPerTrack := g.sectorsPerTrack
  bytesPerSector := g.bytesPerSector

/-- The success path of `attach`: the fields, the attention line, the arbiter, `Ok` (R124). -/
def installUnit (k : UnitId) (u : DiskUnit) (s : State) : State :=
  let s1 := s.setUnit k u
  (driveSink (s1.withRegs { s1.regs with w0 := s1.regs.w0 ||| attnMask k })).withReply .attached

/-- Attach to a unit that is Detached: installed, or `AttachError` with the unit left as it is (R124, R125; log 25). -/
def attachDetached (k : UnitId) (st : BackingStore) (readOnly : Bool) (s : State) : State :=
  let s1 := headerEvents k st s
  match (readHeader st).1 with
  | none => s1.withReply .attachError
  | some g => installUnit k (attachedUnit g (readHeader st).2 readOnly) s1

/-- "Unit k already attached: detach(k) is performed first" (R126(b)). -/
def detachIfAttached (k : UnitId) (s : State) : State :=
  if (s.unit k).backingStore.isSome then detachUnit k s else s

/-- ATTACH (R124 to R126): `AttachError` and no change for a unit at or above `MAX_UNITS` (R126(a)). -/
def execAttach (unit : Nat) (store : BackingStore) (readOnly : Bool) (s : State) : Host.Outcome State Fault Refusal :=
  match unitOfNat s.cfg.maxUnits unit with
  | none => .next (s.withReply .attachError)
  | some k => .next (attachDetached k store readOnly (detachIfAttached k s))

/-! ## Init (70_reset_and_hazards.md R157) -/

/-- `ATTN[k]` of `init`: set if unit `k` exists and is attached at that moment. -/
def attentionOf (k : UnitId) (s : State) : Word :=
  if k.val < s.cfg.maxUnits ∧ (s.unit k).backingStore.isSome then attnMask k else 0#16

/-- The registers after `init`: all zero, `IDLE` set, attention re-derived (R157, 10_state.md R36). -/
def initRegs (s : State) : Regs where
  w0 := attentionOf 0 s ||| attentionOf 1 s ||| attentionOf 2 s ||| attentionOf 3 s
  w1 := 0#16
  w2 := 0#16
  w3 := 0#16
  w4 := 0#16
  w5 := 0#16
  w6 := 0#16
  w7 := maskIdle

/-- INIT (R157): units and stores are not touched (R159); the arbiter runs once. -/
def execInit (s : State) : Host.Outcome State Fault Refusal := .next (driveSink (s.withRegs (initRegs s)))

end Sys2Proof.Machine
end

