-- ==== Sys2Proof/Machine/Dispatch.lean ====
section
/-! DEFINITION. What every instruction does: one arm per constructor, one meaning per arm. -/

namespace Sys2Proof.Machine

def exec (i : Instr) (s : State) : Host.Outcome State Fault Refusal :=
  match i with
  | .streg b => Sys2Proof.Machine.execStreg b s
  | .wrfmt b => Sys2Proof.Machine.execWrfmt b s
  | .rddata b => Sys2Proof.Machine.execRddata b s
  | .wrdata b => Sys2Proof.Machine.execWrdata b s
  | .ufread b => Sys2Proof.Machine.execUfread b s
  | .ufwrite _ => Sys2Proof.Machine.execUfwrite s
  | .seek _ => Sys2Proof.Machine.execSeek s
  | .restore b => Sys2Proof.Machine.execRestore b s
  | .regrd index => Sys2Proof.Machine.execRegrd index s
  | .regwr index value lanes => Sys2Proof.Machine.execRegwr index value lanes s
  | .init => Sys2Proof.Machine.execInit s
  | .attach unit store readOnly => Sys2Proof.Machine.execAttach unit store readOnly s
  | .detach unit => Sys2Proof.Machine.execDetach unit s

end Sys2Proof.Machine
end

