-- ==== Sys2Proof/Machine/Step.lean ====
section
/-! DEFINITION. One step: the next host operation or host store, and how an instruction of the table is placed before a step. -/

namespace Sys2Proof.Machine

/-- The queue moves on: the operation taken leaves it, nothing has been returned or seen yet (log 1, log 12, log 13). -/
def State.begin (s : State) (rest : List Input) : State := { s with pending := rest, reply := .done, trace := [] }

/-- The host stores a word into its own memory (70_reset_and_hazards.md R178; log 5). -/
def hostStoreWord (word : BitVec 20) (value : Word) (s : State) : State :=
  s.withMem (s.mem.writeWord (word ++ 0#1) value)

/-- One step: the next host operation with all its effects, a whole command among them (70_reset_and_hazards.md R176,
20_memory.md R51). With nothing pending the controller waits (R159). -/
def step (s : State) : Host.Outcome State Fault Refusal :=
  match s.pending with
  | [] => .next s
  | .op o :: rest => exec o.instr (s.begin rest)
  | .hostStore word value :: rest => .next (hostStoreWord word value (s.begin rest))

/-- `s` with the block in `w1`..`w6`, the controller idle, and the conventional trigger word 0x0000 next
(30_encoding.md R61): the next step triggers and runs exactly that command (log 2). -/
def State.withBlock (s : State) (ws : BlockWords) : State :=
  { s with
    regs := { w0 := s.regs.w0, w1 := ws.w1, w2 := ws.w2, w3 := ws.w3, w4 := ws.w4, w5 := ws.w5, w6 := ws.w6,
              w7 := s.regs.w7 ||| maskIdle }
    pending := .op (.regwr 7 0#16 0#2) :: s.pending }

/-- `s` with the table's instruction placed where the next step takes it: a command in the command block with its
trigger write pending, REGRD and REGWR as the next pending operation; a word the decoder refuses places nothing. -/
def State.withFetchWord (s : State) (nbits w : Nat) : State :=
  match decodeTableWord nbits w with
  | none => s
  | some (.regrd index) => { s with pending := .op (.regrd index) :: s.pending }
  | some (.regwr index value lanes) => { s with pending := .op (.regwr index value lanes) :: s.pending }
  | some .init => { s with pending := .op .init :: s.pending }
  | some (.attach unit store readOnly) => { s with pending := .op (.attach unit store readOnly) :: s.pending }
  | some (.detach unit) => { s with pending := .op (.detach unit) :: s.pending }
  | some (.streg _) => s.withBlock (tableBlock w)
  | some (.wrfmt _) => s.withBlock (tableBlock w)
  | some (.rddata _) => s.withBlock (tableBlock w)
  | some (.wrdata _) => s.withBlock (tableBlock w)
  | some (.ufread _) => s.withBlock (tableBlock w)
  | some (.ufwrite _) => s.withBlock (tableBlock w)
  | some (.seek _) => s.withBlock (tableBlock w)
  | some (.restore _) => s.withBlock (tableBlock w)

end Sys2Proof.Machine
end

