-- ==== Sys2Proof/Safety.lean ====
section
/-! DEFINITION. What a sound state is between host operations, what may stop a run, and the words statements are made of. -/

namespace Sys2Proof.Machine

/-! ## The invariant of the points where the host can act -/

/-- The controller is idle and the reserved bit is 0 (10_state.md R38). -/
abbrev Quiescent (s : State) : Prop := idle s.regs.w7 = true ∧ s.regs.w7.getLsbD 11 = false

/-- The status byte is one of the patterns outcomes leave: bit 9 is never set, OFFLINE and NOT_READY stand together,
UNSAFE and PACK_CHANGE stand together (10_state.md R15, 60_exceptions.md R156). -/
abbrev StatusByteSound (s : State) : Prop :=
  s.regs.w0.getLsbD 9 = false ∧ s.regs.w0.getLsbD 15 = s.regs.w0.getLsbD 14 ∧
    s.regs.w0.getLsbD 12 = s.regs.w0.getLsbD 8

/-- The line is the arbiter's function of the registers (60_exceptions.md R141). -/
abbrev LineSound (s : State) : Prop := s.intLevel = arbiterLevel s.regs.w0 s.regs.w7

/-- `ATTN[k]` is 1 exactly while unit `k` is attached (60_exceptions.md R142). -/
abbrev AttentionSound (s : State) : Prop :=
  ∀ k : UnitId, decide ((s.regs.w0 &&& attnMask k) ≠ 0#16) = (s.unit k).backingStore.isSome

/-- A unit without a store is Detached in every field (10_state.md R27), and no attached unit has a sector above
512 bytes (10_state.md R26, 45_unit_management.md R123). -/
abbrev UnitSound (u : DiskUnit) : Prop :=
  (u.backingStore = none → u = DiskUnit.detached) ∧ u.bytesPerSector.toNat ≤ Config.maxSectorSize

/-- Every unit is sound, and a unit at or above `MAX_UNITS` is never attached (10_state.md R25). -/
abbrev UnitsSound (s : State) : Prop :=
  ∀ k : UnitId, UnitSound (s.unit k) ∧ (s.cfg.maxUnits ≤ k.val → s.unit k = DiskUnit.detached)

/-- The transient state has its shape: the running DMA address is even, the sector buffer holds 512 bytes
(10_state.md R31). -/
abbrev TransferSound (s : State) : Prop :=
  s.xfer.dma.getLsbD 0 = false ∧ s.xfer.buffer.length = Config.maxSectorSize

/-- What holds wherever the host can act. -/
abbrev Inv (s : State) : Prop :=
  s.cfg.admitted = true ∧ Quiescent s ∧ StatusByteSound s ∧ LineSound s ∧ AttentionSound s ∧ UnitsSound s ∧
    TransferSound s ∧ s.mem.wf = true

/-! ## What may stop a run -/

/-- Every attached unit has a geometry the data commands have a meaning for (45_unit_management.md R134). -/
abbrev AllAdmitted (s : State) : Prop :=
  ∀ k : UnitId, (s.unit k).backingStore.isSome = true → admittedSectorSize (s.unit k) = true

/-- An image whose header, if it reads, has an admitted sector size (70_reset_and_hazards.md R178). -/
abbrev ImageAdmitted (st : BackingStore) : Prop :=
  ∀ g, (readHeader st).1 = some g → g.bytesPerSector.toNat % 2 = 0 ∧ 2 ≤ g.bytesPerSector.toNat

/-- The environment's duty of 70_reset_and_hazards.md R178: it offers no image with a zero or odd sector size. -/
abbrev InputAdmitted : Input → Prop
  | .op (.attach _ st _) => ImageAdmitted st
  | _ => True

/-- Every operation to come keeps that duty. -/
abbrev PendingAdmitted (s : State) : Prop := ∀ x ∈ s.pending, InputAdmitted x

/-! ## Words of the statements -/

/-- The sink levels an operation drove, in order (the "sink trace" of 95_test_vectors.md). -/
def sinkLevels : List Event → List Bool
  | [] => []
  | .sink l :: rest => sinkLevels rest ++ [l]
  | _ :: rest => sinkLevels rest

/-- The DMA writes of an operation, in order. -/
def dmaWrites : List Event → List (DmaAddr × Word)
  | [] => []
  | .memWrite a v :: rest => dmaWrites rest ++ [(a, v)]
  | _ :: rest => dmaWrites rest

/-- The addresses of the DMA reads of an operation, in order. -/
def dmaReads : List Event → List DmaAddr
  | [] => []
  | .memRead a :: rest => dmaReads rest ++ [a]
  | _ :: rest => dmaReads rest

/-- Whether an event is an access to a backing store. -/
def Event.isStoreAccess : Event → Bool
  | .storeSeek _ _ _ => true
  | .storeRead _ _ _ => true
  | .storeWrite _ _ _ => true
  | .sink _ => false
  | .memRead _ => false
  | .memWrite _ _ => false
  | .released _ _ => false

/-- Byte `i` of a transfer from `a`: the window's bytes in order of transfer, wrapping at its top
(42_geometry_dma.md R104). -/
def dmaByte (a : DmaAddr) (i : Nat) : Nat := (a.toNat + i) % 0x200000

/-- The commands that resolve a unit: codes 0, 1, 2, 3, 4, 7 (41_command_execution.md R89). -/
inductive UnitCommand (b : CommandBlock) : Instr → Prop where
  | streg : UnitCommand b (.streg b)
  | wrfmt : UnitCommand b (.wrfmt b)
  | rddata : UnitCommand b (.rddata b)
  | wrdata : UnitCommand b (.wrdata b)
  | ufread : UnitCommand b (.ufread b)
  | restore : UnitCommand b (.restore b)

/-- The commands that need a stable pack: codes 1, 2, 3, 4 (41_command_execution.md R91). -/
inductive SafePackCommand (b : CommandBlock) : Instr → Prop where
  | wrfmt : SafePackCommand b (.wrfmt b)
  | rddata : SafePackCommand b (.rddata b)
  | wrdata : SafePackCommand b (.wrdata b)
  | ufread : SafePackCommand b (.ufread b)

/-- The write-class commands: codes 1 and 3 (41_command_execution.md R92). -/
inductive WriteClassCommand (b : CommandBlock) : Instr → Prop where
  | wrfmt : WriteClassCommand b (.wrfmt b)
  | wrdata : WriteClassCommand b (.wrdata b)

/-- The eight commands. -/
inductive Command (b : CommandBlock) : Instr → Prop where
  | streg : Command b (.streg b)
  | wrfmt : Command b (.wrfmt b)
  | rddata : Command b (.rddata b)
  | wrdata : Command b (.wrdata b)
  | ufread : Command b (.ufread b)
  | ufwrite : Command b (.ufwrite b)
  | seek : Command b (.seek b)
  | restore : Command b (.restore b)

/-- The outcomes a command can end with: the table of 60_exceptions.md R136. -/
def possible (i : Instr) (o : CmdOutcome) : Bool :=
  match i with
  | .streg _ => o ∈ [.success, .noUnitSelected, .unitOffline]
  | .wrfmt _ => o ∈ [.success, .noUnitSelected, .unitOffline, .unitUnsafe, .writeProtected, .cylinderOutOfRange,
      .headOutOfRange, .shortWrite, .seekFailed]
  | .rddata _ => o ∈ [.success, .noUnitSelected, .unitOffline, .unitUnsafe, .cylinderOutOfRange, .headOutOfRange,
      .sectorOutOfRange, .shortRead, .seekFailed]
  | .wrdata _ => o ∈ [.success, .noUnitSelected, .unitOffline, .unitUnsafe, .writeProtected, .cylinderOutOfRange,
      .headOutOfRange, .sectorOutOfRange, .shortWrite, .seekFailed]
  | .ufread _ => o ∈ [.success, .noUnitSelected, .unitOffline, .unitUnsafe, .cylinderOutOfRange, .headOutOfRange,
      .sectorOutOfRange]
  | .ufwrite _ => o ∈ [.unsupported]
  | .seek _ => o ∈ [.success]
  | .restore _ => o ∈ [.success, .noUnitSelected, .unitOffline, .seekFailed]
  | .regrd _ => false
  | .regwr _ _ _ => false
  | .init => false
  | .attach _ _ _ => false
  | .detach _ => false

/-! ## Conditions and effects the statements name -/

/-- The unit the block selects is `k`, attached and safe: the preconditions shared by codes 1 to 4
(41_command_execution.md R89 to R91). -/
structure Ready (b : CommandBlock) (k : UnitId) (s : State) : Prop where
  selected : currentUnit s.cfg.maxUnits b.sel = some k
  online : (s.unit k).backingStore.isSome = true
  safe : (s.unit k).unsafeFlag = false

/-- Geometry and write protection are the same, and a store is present in both or in neither. -/
structure SameGeometry (u v : DiskUnit) : Prop where
  writeProtected : v.writeProtected = u.writeProtected
  cylinders : v.cylinders = u.cylinders
  heads : v.heads = u.heads
  sectorsPerTrack : v.sectorsPerTrack = u.sectorsPerTrack
  bytesPerSector : v.bytesPerSector = u.bytesPerSector
  online : v.backingStore.isSome = u.backingStore.isSome

/-- Cylinder and head inside the inclusive bounds (42_geometry_dma.md R97, R98). -/
abbrev ValidTrack (u : DiskUnit) (b : CommandBlock) : Prop :=
  b.cylinder.toNat ≤ u.cylinders.toNat ∧ b.head.toNat ≤ u.heads.toNat

/-- All three coordinates inside the inclusive bounds (42_geometry_dma.md R97, R98). -/
abbrev ValidAddress (u : DiskUnit) (b : CommandBlock) : Prop :=
  ValidTrack u b ∧ b.sector.toNat ≤ u.sectorsPerTrack.toNat

/-- The linear sector number of the block's address (42_geometry_dma.md R100). -/
def linearSector (u : DiskUnit) (b : CommandBlock) : Nat :=
  (b.cylinder.toNat * u.heads.toNat + b.head.toNat) * u.sectorsPerTrack.toNat + b.sector.toNat

/-- The store position of the block's address: `16 + lsn * B` (42_geometry_dma.md R100). -/
def startPosition (u : DiskUnit) (b : CommandBlock) : Nat := 16 + linearSector u b * u.bytesPerSector.toNat

/-- The sectors a transfer needs: `ceil(byte_count / B)` (42_geometry_dma.md R111). -/
def sectorsNeeded (u : DiskUnit) (b : CommandBlock) : Nat :=
  (byteCount b + u.bytesPerSector.toNat - 1) / u.bytesPerSector.toNat

/-- The sectors of cylinders 0 to `C`, which the in-loop check admits (42_geometry_dma.md R102). -/
def admittedSectors (u : DiskUnit) : Nat := (u.cylinders.toNat + 1) * u.heads.toNat * u.sectorsPerTrack.toNat

/-- The start is canonical: `head < H`, `sector < S` (42_geometry_dma.md R112). -/
abbrev CanonicalStart (u : DiskUnit) (b : CommandBlock) : Prop :=
  b.head.toNat < u.heads.toNat ∧ b.sector.toNat < u.sectorsPerTrack.toNat

/-- The in-loop cylinder check never fires: either the start is not canonical and the cylinder counter stands still,
or the transfer ends by the last sector of cylinder `C` (42_geometry_dma.md R102, R112). -/
abbrev StaysInside (u : DiskUnit) (b : CommandBlock) : Prop :=
  b.head.toNat = u.heads.toNat ∨ b.sector.toNat = u.sectorsPerTrack.toNat ∨
    linearSector u b + sectorsNeeded u b ≤ admittedSectors u

/-- The deterministic store of 45_unit_management.md R132: no answer is planned. -/
abbrev Reference (st : BackingStore) : Prop := st.seekPlan = [] ∧ st.readPlan = [] ∧ st.writePlan = []

/-- The environment grants the next reposition, by an answer still planned or as the reference store does
(45_unit_management.md R129, R132). -/
abbrev SeekGranted (st : BackingStore) : Prop := st.seekPlan = [] ∨ ∃ rest, st.seekPlan = .moved :: rest

/-- The in-loop cylinder check lets sector `j` of the transfer, counted from 0, be moved (42_geometry_dma.md R102,
R112). -/
abbrev ReachesSector (u : DiskUnit) (b : CommandBlock) (j : Nat) : Prop :=
  b.head.toNat = u.heads.toNat ∨ b.sector.toNat = u.sectorsPerTrack.toNat ∨ linearSector u b + j < admittedSectors u

/-- How many of `n` bytes a `StoreRead` at `pos` delivers when the environment is ready to deliver `answer`, all of them
where it has planned none: never more than the content holds from there on (45_unit_management.md R130, R132). -/
def deliveredBytes (st : BackingStore) (answer : Option Nat) (pos n : Nat) : Nat :=
  min (min (answer.getD n) n) (st.data.length - pos)

/-- The end of a command: the status byte is `S0` alone, `w7` has gained `IDLE` and `S7`, `w1`..`w6` and the low byte
of `w0` stay, the line is the arbiter's, configuration, queue and reply stay (41_command_execution.md R83, R94, R96). -/
structure Posted (s t : State) (S0 S7 : Word) : Prop where
  regs : t.regs = { s.regs with w0 := (s.regs.w0 &&& 0x00FF#16) ||| S0, w7 := s.regs.w7 ||| 0x8000#16 ||| S7 }
  level : t.intLevel = arbiterLevel t.regs.w0 t.regs.w7
  cfg : t.cfg = s.cfg
  pending : t.pending = s.pending
  reply : t.reply = s.reply

/-- Host memory holds the bytes from the address on, wrapping at the top of the window, and every other byte reads as
before. -/
abbrev Stored (m m' : Memory) (a : DmaAddr) (bytes : List Byte) : Prop :=
  (∀ i, i < bytes.length → some (Memory.readByte m' (dmaByte a i)) = bytes[i]?) ∧
    (∀ x, (∀ i, i < bytes.length → x ≠ dmaByte a i) → Memory.readByte m' x = Memory.readByte m x)

/-- A medium holds the bytes from the position on, a gap before them is zero, every other byte is as before, and it
has grown only as far as needed (45_unit_management.md R131, R132; the gap of a store with planned answers: log 28). -/
structure Written (old new : List Byte) (pos : Nat) (bytes : List Byte) : Prop where
  length : new.length = if bytes = [] then old.length else max old.length (pos + bytes.length)
  content : ∀ i, i < bytes.length → new[pos + i]? = bytes[i]?
  gap : ∀ i, bytes ≠ [] → old.length ≤ i → i < pos → new[i]? = some 0#8
  before : ∀ i, i < old.length → i < pos → new[i]? = old[i]?
  after : ∀ i, i < old.length → pos + bytes.length ≤ i → new[i]? = old[i]?

/-- The bytes of host memory a transfer of `n` bytes from `a` reads, in order (20_memory.md R44, R52). -/
def memoryBytes (m : Memory) (a : DmaAddr) (n : Nat) : List Byte :=
  (List.range n).map fun i => Memory.readByte m (dmaByte a i)

/-- What Write Data puts on the medium: the bytes fetched, then zero bytes to the end of the last sector
(44_commands_data.md R120). -/
def sectorImage (u : DiskUnit) (m : Memory) (b : CommandBlock) : List Byte :=
  memoryBytes m (dmaAddress b) (byteCount b) ++
    List.replicate (sectorsNeeded u b * u.bytesPerSector.toNat - byteCount b) 0#8

/-- The accesses to backing stores an operation made, in order. -/
def storeAccesses (tr : List Event) : List Event := (tr.filter Event.isStoreAccess).reverse

/-- An outcome without the transient state, which nothing can observe (10_state.md R31). -/
def observed : Host.Outcome State Fault Refusal → Host.Outcome State Fault Refusal
  | .next t => .next (t.withXfer Transfer.reset)
  | .fault f => .fault f
  | .refused r => .refused r

/-- Two blocks that agree on every bit a command can use; the others are those of 30_encoding.md R68 and R70. -/
structure SameOperands (b c : CommandBlock) : Prop where
  ti : b.ti = c.ti
  head : b.head = c.head
  sector : b.sector = c.sector
  cylinder : b.cylinder = c.cylinder
  count : b.count &&& 0xFFFE#16 = c.count &&& 0xFFFE#16
  dmaLo : b.dmaLo &&& 0xFFFE#16 = c.dmaLo &&& 0xFFFE#16
  sel : b.sel = c.sel
  dmaHi : b.dmaHi = c.dmaHi

end Sys2Proof.Machine
end

