-- ==== Sys2Proof/Certificates/Slice0/Obligations.lean ====
section
/-! DEFINITION. The statements about this model, each a rule of spec/ or derived from its sections; they state and never prove. -/

open Sys2Proof Sys2Proof.Machine

/-! ## Encoding -/

/-- Words written out from 30_encoding.md R60 and R63, and bundles of REGRD and REGWR (R58), decode to what they
stand for. The byte forms are the model's (log 18). -/
def Obligations.WrittenOutWordsDecode : Prop :=
  decodeBlock { w1 := 0x0C01#16, w2 := 0x0002#16, w3 := 0x0001#16, w4 := 0x0006#16, w5 := 0x3000#16, w6 := 0x041F#16 } =
      .ufread
        { ext := 0#2, strobe := 0#2, ti := true, offset := 0#2, head := 1#6, recordCount := 0#8, sector := 2#8,
          cylinder := 1#16, count := 6#16, dmaLo := 0x3000#16, selHigh := 0#4, sel := 0b0100#4, dmaSpare := 0#3,
          dmaHi := 0x1F#5 } ∧
    decodeBlock
        { w1 := 0xB3BF#16, w2 := 0xAB07#16, w3 := 0xFFFF#16, w4 := 0x0401#16, w5 := 0x0201#16, w6 := 0xF1E3#16 } =
      .wrdata
        { ext := 2#2, strobe := 3#2, ti := false, offset := 2#2, head := 63#6, recordCount := 0xAB#8, sector := 7#8,
          cylinder := 0xFFFF#16, count := 0x0401#16, dmaLo := 0x0201#16, selHigh := 0xF#4, sel := 0b0001#4,
          dmaSpare := 7#3, dmaHi := 3#5 } ∧
    decode [0x06#8] = .ok (.regrd 6) ∧
    decode [0x0F#8, 0x12#8, 0x34#8] = .ok (.regwr 7 0x1234#16 1#2) ∧
    decode [0x08#8] = .error .regrdBundleTooWide

/-- Decoding an encoded instruction gives it back with every operand at every value; every command, and every register
access with an index of three bits, has an encoding (30_encoding.md R57, R59, R60, R63). -/
def Obligations.DecodeUndoesEncode : Prop :=
  (∀ i bytes, i.wellFormed = true → encode i = some bytes → decode bytes = .ok i) ∧
    (∀ b i, Command b i → (encode i).isSome = true) ∧
    (∀ index, index ≤ 7 → (encode (.regrd index)).isSome = true) ∧
    (∀ index value lanes, index ≤ 7 → (encode (.regwr index value lanes)).isSome = true)

/-- Bytes that decode are the encoding of what they decode to: no two byte strings stand for one instruction. -/
def Obligations.EncodeUndoesDecode : Prop :=
  ∀ bytes i, decode bytes = .ok i → encode i = some bytes ∧ i.wellFormed = true

/-- The command field selects the command, and all eight codes are assigned (30_encoding.md R63). -/
def Obligations.CommandFieldSelectsTheCommand : Prop :=
  ∀ ws : BlockWords,
    (ws.w1 &&& 0x0700#16 = 0x0000#16 → decodeBlock ws = .streg (blockOfWords ws)) ∧
    (ws.w1 &&& 0x0700#16 = 0x0100#16 → decodeBlock ws = .wrfmt (blockOfWords ws)) ∧
    (ws.w1 &&& 0x0700#16 = 0x0200#16 → decodeBlock ws = .rddata (blockOfWords ws)) ∧
    (ws.w1 &&& 0x0700#16 = 0x0300#16 → decodeBlock ws = .wrdata (blockOfWords ws)) ∧
    (ws.w1 &&& 0x0700#16 = 0x0400#16 → decodeBlock ws = .ufread (blockOfWords ws)) ∧
    (ws.w1 &&& 0x0700#16 = 0x0500#16 → decodeBlock ws = .ufwrite (blockOfWords ws)) ∧
    (ws.w1 &&& 0x0700#16 = 0x0600#16 → decodeBlock ws = .seek (blockOfWords ws)) ∧
    (ws.w1 &&& 0x0700#16 = 0x0700#16 → decodeBlock ws = .restore (blockOfWords ws)) ∧
    Command (blockOfWords ws) (decodeBlock ws)

/-- Operand assembly in numbers (30_encoding.md R64 to R67): head, sector, cylinder, the even byte count, the even
21-bit DMA address, TI and the select field. -/
def Obligations.OperandsAreAssembledFromTheBlock : Prop :=
  ∀ ws : BlockWords,
    (blockOfWords ws).head.toNat = ws.w1.toNat % 64 ∧
    (blockOfWords ws).sector.toNat = ws.w2.toNat % 256 ∧
    (blockOfWords ws).cylinder.toNat = ws.w3.toNat ∧
    byteCount (blockOfWords ws) = ws.w4.toNat / 2 * 2 ∧
    (dmaAddress (blockOfWords ws)).toNat = (ws.w6.toNat % 32 * 65536 + ws.w5.toNat) / 2 * 2 ∧
    (blockOfWords ws).ti = decide (ws.w1.toNat / 2048 % 2 = 1) ∧
    (blockOfWords ws).sel.toNat = ws.w6.toNat / 256 % 16

/-- The ignored bits never influence a command: two blocks that agree on the others give the same result, whatever
command runs (30_encoding.md R68, R70). -/
def Obligations.IgnoredBitsNeverInfluence : Prop :=
  ∀ (code : BitVec 3) (b c : CommandBlock) (s : State), SameOperands b c →
    observed (exec (commandOfField code b) s) = observed (exec (commandOfField code c) s)

/-! ## The step -/

/-- A step runs the pending operation and nothing else; with nothing pending the controller waits
(70_reset_and_hazards.md R159, R176). The queue is the model's (log 1). -/
def Obligations.StepRunsThePendingOperation : Prop :=
  (∀ s o rest, s.pending = .op o :: rest →
      step s = exec o.instr { s with pending := rest, reply := .done, trace := [] }) ∧
    (∀ s, s.pending = [] → step s = .next s)

/-- A trigger write runs exactly the command the live block decodes to, on the merged register with the line driven
low, and the controller is idle again when it returns; no other write to `w7` runs a command
(40_register_access.md R79). -/
def Obligations.TriggerWriteRunsTheDecodedCommand : Prop :=
  ∀ (s : State) (value : Word) (lanes : BitVec 2) (new : Word), new = mergeWrite 7 s.regs.w7 value lanes →
    (s.regs.w7.getLsbD 15 = true → new.getLsbD 15 = false →
      exec (.regwr 7 value lanes) s =
        exec (decodeBlock s.regs.block)
          { s with regs := { s.regs with w7 := new }, intLevel := false, trace := .sink false :: s.trace } ∧
      ∀ t, exec (.regwr 7 value lanes) s = .next t → t.regs.w7.getLsbD 15 = true) ∧
    ((s.regs.w7.getLsbD 15 = false ∨ new.getLsbD 15 = true) →
      exec (.regwr 7 value lanes) s =
        .next { s with
          regs := { s.regs with w7 := new }
          intLevel := arbiterLevel s.regs.w0 new
          trace := .sink (arbiterLevel s.regs.w0 new) :: s.trace })

/-- A command of the opcode table, placed by `withFetchWord`, is what the very next step runs, on the idle controller's
trigger write (30_encoding.md R61; log 2). -/
def Obligations.TableWordRunsAsTheNextStep : Prop :=
  ∀ (s : State) (w : Nat) (i : Instr), decodeTableWord 16 w = some i →
    ∃ u, step (s.withFetchWord 16 w) = exec i u ∧ u.regs.block = tableBlock w ∧ u.regs.w0 = s.regs.w0 ∧
      u.units = s.units ∧ u.mem = s.mem ∧ u.cfg = s.cfg ∧ u.pending = s.pending ∧ u.xfer = s.xfer

/-- The host stores a word into its memory: the two bytes, high byte first, and nothing else (20_memory.md R44,
70_reset_and_hazards.md R178; log 5). -/
def Obligations.HostStoreWritesOneWord : Prop :=
  ∀ (s : State) (word : BitVec 20) (value : Word) (rest : List Input), s.pending = .hostStore word value :: rest →
    ∃ t, step s = .next t ∧ Stored s.mem t.mem (word ++ 0#1) [highByte value, lowByte value] ∧
      t.regs = s.regs ∧ t.units = s.units ∧ t.intLevel = s.intLevel ∧ t.cfg = s.cfg ∧ t.xfer = s.xfer ∧
      t.pending = rest

/-! ## Register access -/

/-- A register read answers the live value and changes nothing else; an index outside 0..7 answers 0x0000
(40_register_access.md R73). -/
def Obligations.RegisterReadAnswersTheLiveValue : Prop :=
  ∀ s : State,
    exec (.regrd 0) s = .next { s with reply := .value s.regs.w0 } ∧
    exec (.regrd 1) s = .next { s with reply := .value s.regs.w1 } ∧
    exec (.regrd 2) s = .next { s with reply := .value s.regs.w2 } ∧
    exec (.regrd 3) s = .next { s with reply := .value s.regs.w3 } ∧
    exec (.regrd 4) s = .next { s with reply := .value s.regs.w4 } ∧
    exec (.regrd 5) s = .next { s with reply := .value s.regs.w5 } ∧
    exec (.regrd 6) s = .next { s with reply := .value s.regs.w6 } ∧
    exec (.regrd 7) s = .next { s with reply := .value s.regs.w7 } ∧
    ∀ index, 8 ≤ index → exec (.regrd index) s = .next { s with reply := .value 0x0000#16 }

/-- The masked merge: a bit of the register comes from the value exactly when it is in `WMASK` and its lane is not
preserved; other registers stay; a write to `w0` or `w7` drives the sink, another does not
(40_register_access.md R76, R78). -/
def Obligations.WriteMergesUnderMaskAndLanes : Prop :=
  ∀ (s : State) (i : Fin 8) (value : Word) (lanes : BitVec 2), s.regs.w7.getLsbD 15 = true →
    (i = 7 → lanes.getLsbD 1 = true ∨ value.getLsbD 15 = true) →
    ∃ t, exec (.regwr i.val value lanes) s = .next t ∧
      (∀ n, n < 16 → (t.regs.get i).getLsbD n =
        if ((i = 0 ∧ n < 4) ∨ (1 ≤ i.val ∧ i.val ≤ 6) ∨ (i = 7 ∧ n ≠ 11)) ∧
            lanes.getLsbD (if n < 8 then 0 else 1) = false
        then value.getLsbD n else (s.regs.get i).getLsbD n) ∧
      (∀ j, j ≠ i → t.regs.get j = s.regs.get j) ∧
      ((i = 0 ∨ i = 7) → t.intLevel = arbiterLevel t.regs.w0 t.regs.w7 ∧ t.trace = .sink t.intLevel :: s.trace) ∧
      ((1 ≤ i.val ∧ i.val ≤ 6) → t.intLevel = s.intLevel ∧ t.trace = s.trace) ∧
      t.units = s.units ∧ t.mem = s.mem ∧ t.xfer = s.xfer ∧ t.cfg = s.cfg ∧ t.pending = s.pending ∧
      t.reply = s.reply

/-- The busy guard: while `IDLE` is clear a write to `w0`..`w6` changes nothing, and a write to `w7` is merged and
arbitrated and never starts a command (40_register_access.md R75). -/
def Obligations.BusyWritesAreDropped : Prop :=
  ∀ (s : State) (value : Word) (lanes : BitVec 2), s.regs.w7.getLsbD 15 = false →
    (∀ index, index ≠ 7 → exec (.regwr index value lanes) s = .next s) ∧
    ∃ t, exec (.regwr 7 value lanes) s = .next t ∧ t.regs.w7 = mergeWrite 7 s.regs.w7 value lanes ∧
      t.intLevel = arbiterLevel t.regs.w0 t.regs.w7 ∧ t.units = s.units ∧ t.mem = s.mem

/-- An index outside 0..7: the write is a no-op (40_register_access.md R74). -/
def Obligations.OutOfRangeWritesAreIgnored : Prop :=
  ∀ (s : State) (index : Nat) (value : Word) (lanes : BitVec 2), 8 ≤ index →
    exec (.regwr index value lanes) s = .next s

/-- Mask fidelity: after a full write, a command run or not, only bits of the register's mask may differ; the written
value of each register (40_register_access.md R82). -/
def Obligations.MaskFidelity : Prop :=
  ∀ (s t : State) (i : Fin 8) (value : Word), exec (.regwr i.val value 0#2) s = .next t →
    s.regs.w7.getLsbD 15 = true →
    (t.regs.get i &&& ~~~writeMask i = s.regs.get i &&& ~~~writeMask i) ∧
    ((1 ≤ i.val ∧ i.val ≤ 6) → t.regs.get i = value) ∧
    (i = 0 → t.regs.w0 = (s.regs.w0 &&& 0xFFF0#16) ||| (value &&& 0x000F#16)) ∧
    (i = 7 → value.getLsbD 15 = true → t.regs.w7 = (s.regs.w7 &&& 0x0800#16) ||| (value &&& 0xF7FF#16))

/-- A write that preserves the high lane of `w7` starts no command and acknowledges none: it changes only `w7[7:0]`
(70_reset_and_hazards.md R165). -/
def Obligations.LowLaneWriteNeverStartsACommand : Prop :=
  ∀ (s : State) (value : Word) (lanes : BitVec 2), lanes.getLsbD 1 = true →
    ∃ t, exec (.regwr 7 value lanes) s = .next t ∧ t.regs.w7 &&& 0xFF00#16 = s.regs.w7 &&& 0xFF00#16 ∧
      t = { s with
        regs := { s.regs with w7 := t.regs.w7 }
        intLevel := arbiterLevel s.regs.w0 s.regs.w7
        trace := .sink (arbiterLevel s.regs.w0 s.regs.w7) :: s.trace }

/-- The acknowledgement: a write to `w7` with `IDLE` set and `COMPLETE` and `ERROR` clear leaves the line to the enabled
attention lines, and `w0` as it was (60_exceptions.md R146). -/
def Obligations.AcknowledgeRemovesTheCompletion : Prop :=
  ∀ (s : State) (value : Word), s.regs.w7.getLsbD 15 = true → value.getLsbD 15 = true →
    value.getLsbD 14 = false → value.getLsbD 13 = false →
    ∃ t, exec (.regwr 7 value 0#2) s = .next t ∧
      (t.intLevel = true ↔ ∃ k : UnitId, s.regs.w0.getLsbD (7 - k.val) = true ∧ s.regs.w0.getLsbD (3 - k.val) = true) ∧
      t.regs = { s.regs with w7 := t.regs.w7 } ∧ t.regs.w7.getLsbD 14 = false ∧ t.regs.w7.getLsbD 13 = false ∧
      t.units = s.units ∧ t.mem = s.mem

/-- Only ATTACH, DETACH and INIT change the attention lines: the host cannot clear one through the registers, and no
command changes one (60_exceptions.md R143). -/
def Obligations.AttentionChangesOnlyByUnitManagement : Prop :=
  ∀ (i : Instr) (s t : State), exec i s = .next t →
    ((∃ b, Command b i) ∨ (∃ n, i = .regrd n) ∨ (∃ n v l, i = .regwr n v l)) →
    t.regs.w0 &&& 0x00F0#16 = s.regs.w0 &&& 0x00F0#16

/-! ## The arbiter -/

/-- The level is asserted iff idle and a completion with its enable or an attention line with its own
(60_exceptions.md R140). -/
def Obligations.ArbiterLevelIsTheStatedFunction : Prop :=
  ∀ w0 w7 : Word, arbiterLevel w0 w7 = true ↔
    w7.getLsbD 15 = true ∧
      ((w7.getLsbD 12 = true ∧ (w7.getLsbD 14 = true ∨ w7.getLsbD 13 = true)) ∨
        ∃ k : UnitId, w0.getLsbD (7 - k.val) = true ∧ w0.getLsbD (3 - k.val) = true)

/-- A trigger write drives the sink low and then to the final level, and nothing in between
(40_register_access.md R80, 70_reset_and_hazards.md R171). -/
def Obligations.TriggerDrivesLowThenFinal : Prop :=
  ∀ (s t : State) (value : Word) (lanes : BitVec 2), s.regs.w7.getLsbD 15 = true →
    (mergeWrite 7 s.regs.w7 value lanes).getLsbD 15 = false → exec (.regwr 7 value lanes) s = .next t →
    sinkLevels t.trace = sinkLevels s.trace ++ [false, t.intLevel]

/-! ## Outcomes and preconditions -/

/-- The masks of every outcome (60_exceptions.md R135). -/
def Obligations.OutcomeMasksAreTheTable : Prop :=
  ([.success, .noUnitSelected, .unsupported, .unitOffline, .unitUnsafe, .writeProtected, .cylinderOutOfRange,
      .headOutOfRange, .sectorOutOfRange, .shortRead, .shortWrite, .seekFailed] : List CmdOutcome).map
    (fun o => (o.status, o.detail)) =
  [(0x0000#16, 0x4000#16), (0x0000#16, 0x2100#16), (0x0000#16, 0x2100#16), (0xC000#16, 0x2001#16),
   (0x1100#16, 0x2001#16), (0x2000#16, 0x2001#16), (0x0400#16, 0x2001#16), (0x0800#16, 0x2001#16),
   (0x0000#16, 0x2004#16), (0x0000#16, 0x2004#16), (0xC000#16, 0x2001#16), (0x1100#16, 0x2001#16)]

/-- Every command that answers a next state ends with exactly one outcome of its column of R136: the status byte is
that outcome's, `w7` gains `IDLE` and its details, the line is re-evaluated (41_command_execution.md R94,
60_exceptions.md R136, R139). -/
def Obligations.EveryCommandPostsOneOutcome : Prop :=
  ∀ (b : CommandBlock) (i : Instr) (s t : State), Command b i → exec i s = .next t →
    ∃ o, possible i o = true ∧ Posted s t o.status o.detail

/-- The lowest-numbered select bit wins, and a winner at or above `MAX_UNITS` selects none
(41_command_execution.md R86). The bound is any number here; a machine's is 1 to 4 (log 27). -/
def Obligations.LowestSelectBitWins : Prop :=
  ∀ (m : Nat) (sel : BitVec 4) (k : UnitId), currentUnit m sel = some k ↔
    (k.val < m ∧ sel.getLsbD (3 - k.val) = true ∧ ∀ j : UnitId, j < k → sel.getLsbD (3 - j.val) = false)

/-- No unit selected: abnormal completion, no unit touched, no store accessed, no DMA (41_command_execution.md R89). -/
def Obligations.NoUnitSelectedTouchesNothing : Prop :=
  ∀ (b : CommandBlock) (i : Instr) (s : State), UnitCommand b i → currentUnit s.cfg.maxUnits b.sel = none →
    ∃ t, exec i s = .next t ∧ Posted s t 0x0000#16 0x2100#16 ∧ t.units = s.units ∧ t.mem = s.mem ∧
      t.trace = .sink t.intLevel :: s.trace

/-- An offline unit: OFFLINE and NOT_READY with UNIT_ERROR, nothing else done (41_command_execution.md R90). -/
def Obligations.OfflineUnitIsReported : Prop :=
  ∀ (b : CommandBlock) (i : Instr) (s : State) (k : UnitId), UnitCommand b i →
    currentUnit s.cfg.maxUnits b.sel = some k → (s.unit k).backingStore = none →
    ∃ t, exec i s = .next t ∧ Posted s t 0xC000#16 0x2001#16 ∧ t.units = s.units ∧ t.mem = s.mem ∧
      t.trace = .sink t.intLevel :: s.trace

/-- An unsafe unit: UNSAFE and PACK_CHANGE with UNIT_ERROR, before write protection and address are looked at
(41_command_execution.md R91). -/
def Obligations.UnsafeUnitIsReported : Prop :=
  ∀ (b : CommandBlock) (i : Instr) (s : State) (k : UnitId), SafePackCommand b i →
    currentUnit s.cfg.maxUnits b.sel = some k → (s.unit k).backingStore.isSome = true →
    (s.unit k).unsafeFlag = true →
    ∃ t, exec i s = .next t ∧ Posted s t 0x1100#16 0x2001#16 ∧ t.units = s.units ∧ t.mem = s.mem ∧
      t.trace = .sink t.intLevel :: s.trace

/-- A write-protected unit: WRITE_PROTECT with UNIT_ERROR for both write-class commands, before the address is looked
at (41_command_execution.md R92, R93). -/
def Obligations.WriteProtectedUnitIsReported : Prop :=
  ∀ (b : CommandBlock) (i : Instr) (s : State) (k : UnitId), WriteClassCommand b i → Ready b k s →
    (s.unit k).writeProtected = true →
    ∃ t, exec i s = .next t ∧ Posted s t 0x2000#16 0x2001#16 ∧ t.units = s.units ∧ t.mem = s.mem ∧
      t.trace = .sink t.intLevel :: s.trace

/-- The validator in the four commands that use it: the first coordinate out of its inclusive bound decides, nothing is
touched (42_geometry_dma.md R97). Write Format takes sector 0. -/
def Obligations.AddressOutOfRangeIsReported : Prop :=
  ∀ (b : CommandBlock) (i : Instr) (s : State) (k : UnitId), SafePackCommand b i → Ready b k s →
    (WriteClassCommand b i → (s.unit k).writeProtected = false) →
    let C := (s.unit k).cylinders.toNat
    let H := (s.unit k).heads.toNat
    let S := (s.unit k).sectorsPerTrack.toNat
    (C < b.cylinder.toNat →
      ∃ t, exec i s = .next t ∧ Posted s t 0x0400#16 0x2001#16 ∧ t.units = s.units ∧ t.mem = s.mem ∧
        t.trace = .sink t.intLevel :: s.trace) ∧
    (b.cylinder.toNat ≤ C → H < b.head.toNat →
      ∃ t, exec i s = .next t ∧ Posted s t 0x0800#16 0x2001#16 ∧ t.units = s.units ∧ t.mem = s.mem ∧
        t.trace = .sink t.intLevel :: s.trace) ∧
    (b.cylinder.toNat ≤ C → b.head.toNat ≤ H → S < b.sector.toNat → i ≠ .wrfmt b →
      ∃ t, exec i s = .next t ∧ Posted s t 0x0000#16 0x2004#16 ∧ t.units = s.units ∧ t.mem = s.mem ∧
        t.trace = .sink t.intLevel :: s.trace)

/-- A reposition the environment fails: UNSAFE and PACK_CHANGE with UNIT_ERROR, the unit's own flag not set, the
position whatever the environment left, the content untouched (42_geometry_dma.md R99, 45_unit_management.md R129). -/
def Obligations.FailedRepositionIsReported : Prop :=
  ∀ (b : CommandBlock) (i : Instr) (s : State) (k : UnitId) (st : BackingStore) (pos : Nat) (rest : List SeekAnswer),
    Ready b k s → (s.unit k).backingStore = some st → st.seekPlan = .failed pos :: rest →
    ((i = .wrfmt b ∧ (s.unit k).writeProtected = false ∧ ValidTrack (s.unit k) b) ∨
      (i = .rddata b ∧ ValidAddress (s.unit k) b) ∨
      (i = .wrdata b ∧ (s.unit k).writeProtected = false ∧ ValidAddress (s.unit k) b)) →
    ∃ t, exec i s = .next t ∧ Posted s t 0x1100#16 0x2001#16 ∧
      t.unit k = { s.unit k with backingStore := some { st with pos := pos, seekPlan := rest } } ∧
      (∀ j, j ≠ k → t.unit j = s.unit j) ∧ t.mem = s.mem

/-! ## Store Registers, Unformatted Read, Unformatted Write, Seek, Restore -/

/-- Store Registers on any attached unit: the unsafe flag is cleared, up to `min(3, byte_count / 2)` geometry words go
to memory unless TI, no store is accessed (43_commands_control.md R113, words by 42_geometry_dma.md R110). -/
def Obligations.StoreRegistersReportsTheGeometry : Prop :=
  ∀ (b : CommandBlock) (s : State) (k : UnitId), currentUnit s.cfg.maxUnits b.sel = some k →
    (s.unit k).backingStore.isSome = true →
    let u := s.unit k
    let words : List Word :=
      [ BitVec.ofNat 16 (u.sectorsPerTrack.toNat * u.bytesPerSector.toNat / 2),
        BitVec.ofNat 16 (u.sectorsPerTrack.toNat * 256),
        BitVec.ofNat 16 (u.heads.toNat * 2048 ||| u.cylinders.toNat) ]
    let moved := if b.ti then [] else words.take (min 3 (byteCount b / 2))
    ∃ t, exec (.streg b) s = .next t ∧ Posted s t 0x0000#16 0x4000#16 ∧
      t.unit k = { u with unsafeFlag := false } ∧ (∀ j, j ≠ k → t.unit j = s.unit j) ∧
      Stored s.mem t.mem (dmaAddress b) (unpackWords moved) ∧
      (dmaWrites t.trace).map Prod.snd = (dmaWrites s.trace).map Prod.snd ++ moved ∧
      storeAccesses t.trace = storeAccesses s.trace

/-- Unformatted Read on a ready unit and a valid address: the three echo words, bounded by the byte count if
`UFR_COUNT_BOUNDED`, unless TI; no unit changes and no store is accessed (43_commands_control.md R114). -/
def Obligations.UnformattedReadEchoesTheAddress : Prop :=
  ∀ (b : CommandBlock) (s : State) (k : UnitId), Ready b k s → ValidAddress (s.unit k) b →
    let words : List Word :=
      [ BitVec.ofNat 16 (b.head.toNat * 2048 ||| b.cylinder.toNat),
        BitVec.ofNat 16 (256 + b.sector.toNat),
        BitVec.ofNat 16 ((s.unit k).bytesPerSector.toNat / 2) ]
    let moved := if b.ti then [] else words.take (if s.cfg.ufrCountBounded then min 3 (byteCount b / 2) else 3)
    ∃ t, exec (.ufread b) s = .next t ∧ Posted s t 0x0000#16 0x4000#16 ∧ t.units = s.units ∧
      Stored s.mem t.mem (dmaAddress b) (unpackWords moved) ∧
      (dmaWrites t.trace).map Prod.snd = (dmaWrites s.trace).map Prod.snd ++ moved ∧
      storeAccesses t.trace = storeAccesses s.trace

/-- Unformatted Write always completes with abnormal completion and touches nothing, whatever is selected
(43_commands_control.md R115). -/
def Obligations.UnformattedWriteIsAlwaysUnsupported : Prop :=
  ∀ (b : CommandBlock) (s : State),
    ∃ t, exec (.ufwrite b) s = .next t ∧ Posted s t 0x0000#16 0x2100#16 ∧ t.units = s.units ∧ t.mem = s.mem ∧
      t.xfer = s.xfer ∧ t.trace = .sink t.intLevel :: s.trace

/-- Seek always succeeds and moves nothing, whatever is selected (43_commands_control.md R116). -/
def Obligations.SeekAlwaysSucceeds : Prop :=
  ∀ (b : CommandBlock) (s : State),
    ∃ t, exec (.seek b) s = .next t ∧ Posted s t 0x0000#16 0x4000#16 ∧ t.units = s.units ∧ t.mem = s.mem ∧
      t.xfer = s.xfer ∧ t.trace = .sink t.intLevel :: s.trace

/-- Restore on any attached unit: the unsafe flag is cleared first; a reposition that succeeds leaves the store at 16
and the command succeeds; one that fails ends with SeekFailed and the flag still cleared
(43_commands_control.md R117). -/
def Obligations.RestoreClearsUnsafeAndSeeksHome : Prop :=
  ∀ (b : CommandBlock) (s : State) (k : UnitId) (st : BackingStore), currentUnit s.cfg.maxUnits b.sel = some k →
    (s.unit k).backingStore = some st →
    ((st.seekPlan = [] ∨ ∃ rest, st.seekPlan = .moved :: rest) →
      ∃ t, exec (.restore b) s = .next t ∧ Posted s t 0x0000#16 0x4000#16 ∧
        t.unit k = { s.unit k with
          unsafeFlag := false
          backingStore := some { st with pos := 16, seekPlan := st.seekPlan.tail } } ∧
        (∀ j, j ≠ k → t.unit j = s.unit j) ∧ t.mem = s.mem) ∧
    (∀ pos rest, st.seekPlan = .failed pos :: rest →
      ∃ t, exec (.restore b) s = .next t ∧ Posted s t 0x1100#16 0x2001#16 ∧
        t.unit k = { s.unit k with
          unsafeFlag := false
          backingStore := some { st with pos := pos, seekPlan := rest } } ∧
        (∀ j, j ≠ k → t.unit j = s.unit j) ∧ t.mem = s.mem)

/-! ## Write Format, Read Data, Write Data -/

/-- Write Format on a ready writable unit of the reference store, at any track of the inclusive bounds: the whole track
is zero bytes, `S * B` of them from sector 0, nothing else changes, no DMA (44_commands_data.md R118). -/
def Obligations.WriteFormatZeroesTheTrack : Prop :=
  ∀ (b : CommandBlock) (s : State) (k : UnitId) (st : BackingStore), Ready b k s →
    (s.unit k).writeProtected = false → (s.unit k).backingStore = some st → Reference st →
    ValidTrack (s.unit k) b → admittedSectorSize (s.unit k) = true →
    let u := s.unit k
    let size := u.sectorsPerTrack.toNat * u.bytesPerSector.toNat
    let pos := 16 + (b.cylinder.toNat * u.heads.toNat + b.head.toNat) * size
    ∃ t data, exec (.wrfmt b) s = .next t ∧ Posted s t 0x0000#16 0x4000#16 ∧
      t.unit k = { u with backingStore := some { st with data := data, pos := pos + size } } ∧
      Written st.data data pos (List.replicate size 0#8) ∧
      (∀ j, j ≠ k → t.unit j = s.unit j) ∧ t.mem = s.mem ∧ dmaWrites t.trace = dmaWrites s.trace ∧
      dmaReads t.trace = dmaReads s.trace

/-- Read Data on a ready unit of the reference store that holds the bytes, inside the in-loop cylinder bound: success,
the bytes stand in memory from the DMA address on (none if TI), every other byte of memory reads as before, the store
keeps its content and stands after the bytes read (44_commands_data.md R119). -/
def Obligations.ReadDataMovesTheBytes : Prop :=
  ∀ (b : CommandBlock) (s : State) (k : UnitId) (st : BackingStore), Ready b k s →
    (s.unit k).backingStore = some st → Reference st → ValidAddress (s.unit k) b →
    admittedSectorSize (s.unit k) = true → StaysInside (s.unit k) b →
    startPosition (s.unit k) b + byteCount b ≤ st.data.length →
    ∃ t, exec (.rddata b) s = .next t ∧ Posted s t 0x0000#16 0x4000#16 ∧
      t.unit k = { s.unit k with
        backingStore := some { st with pos := startPosition (s.unit k) b + byteCount b } } ∧
      (∀ j, j ≠ k → t.unit j = s.unit j) ∧
      Stored s.mem t.mem (dmaAddress b)
        (if b.ti then [] else (st.data.drop (startPosition (s.unit k) b)).take (byteCount b))

/-- Write Data on a ready writable unit of the reference store, inside the in-loop cylinder bound: success, the medium
holds the bytes of host memory and zero bytes to the end of the last sector, whatever TI says, host memory is not
changed (44_commands_data.md R120). -/
def Obligations.WriteDataStoresWholeSectors : Prop :=
  ∀ (b : CommandBlock) (s : State) (k : UnitId) (st : BackingStore), Ready b k s →
    (s.unit k).writeProtected = false → (s.unit k).backingStore = some st → Reference st →
    ValidAddress (s.unit k) b → admittedSectorSize (s.unit k) = true → StaysInside (s.unit k) b →
    let u := s.unit k
    ∃ t data, exec (.wrdata b) s = .next t ∧ Posted s t 0x0000#16 0x4000#16 ∧
      t.unit k = { u with
        backingStore := some
          { st with data := data, pos := startPosition u b + sectorsNeeded u b * u.bytesPerSector.toNat } } ∧
      Written st.data data (startPosition u b) (sectorImage u s.mem b) ∧
      (∀ j, j ≠ k → t.unit j = s.unit j) ∧ t.mem = s.mem

/-- A byte count of 0: Read Data and Write Data seek and succeed with no DMA and no store access beyond the seek
(30_encoding.md R65), on the geometries those commands have a meaning for (45_unit_management.md R134; log 10). -/
def Obligations.ZeroByteCountMovesNothing : Prop :=
  ∀ (b : CommandBlock) (i : Instr) (s : State) (k : UnitId) (st : BackingStore), Ready b k s →
    (s.unit k).backingStore = some st → SeekGranted st → ValidAddress (s.unit k) b →
    admittedSectorSize (s.unit k) = true → byteCount b = 0 →
    (i = .rddata b ∨ (i = .wrdata b ∧ (s.unit k).writeProtected = false)) →
    ∃ t, exec i s = .next t ∧ Posted s t 0x0000#16 0x4000#16 ∧
      t.unit k = { s.unit k with
        backingStore := some { st with pos := startPosition (s.unit k) b, seekPlan := st.seekPlan.tail } } ∧
      (∀ j, j ≠ k → t.unit j = s.unit j) ∧ t.mem = s.mem ∧
      t.trace = .sink t.intLevel :: .storeSeek k (startPosition (s.unit k) b) true :: s.trace

/-- A `StoreRead` that comes up short in sector `j` of the transfer, the first or a later one, because the content ends
there or because the environment delivers fewer bytes: command-timeout; the `j` sectors before it are moved and stay so,
nothing of the short one reaches memory, and the position has advanced by the bytes delivered (44_commands_data.md R119,
45_unit_management.md R130, 60_exceptions.md R145). -/
def Obligations.ShortReadDiscardsTheSector : Prop :=
  ∀ (b : CommandBlock) (s : State) (k : UnitId) (st : BackingStore) (j : Nat), Ready b k s →
    (s.unit k).backingStore = some st → SeekGranted st → ValidAddress (s.unit k) b →
    admittedSectorSize (s.unit k) = true →
    let u := s.unit k
    let size := u.bytesPerSector.toNat
    let start := startPosition u b
    let asked := min (byteCount b - j * size) size
    let got := deliveredBytes st st.readPlan[j]? (start + j * size) asked
    let moved := if b.ti then [] else (st.data.drop start).take (j * size)
    j * size < byteCount b → ReachesSector u b j →
    (∀ n l, n < j → st.readPlan[n]? = some l → size ≤ l) → (0 < j → start + j * size ≤ st.data.length) →
    got < asked →
    ∃ t, exec (.rddata b) s = .next t ∧ Posted s t 0x0000#16 0x2004#16 ∧
      t.unit k = { u with
        backingStore := some
          { st with pos := start + j * size + got, seekPlan := st.seekPlan.tail, readPlan := st.readPlan.drop (j + 1) } } ∧
      (∀ n, n ≠ k → t.unit n = s.unit n) ∧ Stored s.mem t.mem (dmaAddress b) moved ∧
      (dmaWrites t.trace).length = (dmaWrites s.trace).length + moved.length / 2

/-- A `StoreWrite` the environment cuts short in sector `j`, the first or a later one: OFFLINE and NOT_READY with
UNIT_ERROR; the medium holds the `j` sectors before it, the accepted bytes of the short one, then what the environment
left in the place of the others; Write Data has made the DMA reads of the short sector too (44_commands_data.md R118,
R120; 45_unit_management.md R131; 60_exceptions.md R145; log 8). Where the transfer starts past the end of the content, that
the gap holds zero bytes is the model's choice (log 28). -/
def Obligations.ShortWriteIsReported : Prop :=
  ∀ (b : CommandBlock) (i : Instr) (s : State) (k : UnitId) (st : BackingStore) (a : WriteAnswer) (j : Nat),
    Ready b k s → (s.unit k).writeProtected = false → (s.unit k).backingStore = some st → SeekGranted st →
    admittedSectorSize (s.unit k) = true →
    let u := s.unit k
    let size := u.bytesPerSector.toNat
    st.writePlan[j]? = some a → a.accepted < size →
    (∀ n c, n < j → st.writePlan[n]? = some c → size ≤ c.accepted) →
    ((i = .wrfmt b ∧ ValidTrack u b ∧ j < u.sectorsPerTrack.toNat) ∨
      (i = .wrdata b ∧ ValidAddress u b ∧ j * size < byteCount b ∧ ReachesSector u b j)) →
    let start := if i = .wrfmt b then startPosition u { b with sector := 0#8 } else startPosition u b
    let image :=
      if i = .wrfmt b then List.replicate (u.sectorsPerTrack.toNat * size) 0#8 else sectorImage u s.mem b
    ∃ t data, exec i s = .next t ∧ Posted s t 0xC000#16 0x2001#16 ∧
      t.unit k = { u with
        backingStore := some
          { st with
            data := data
            pos := start + j * size + a.accepted
            seekPlan := st.seekPlan.tail
            writePlan := st.writePlan.drop (j + 1) } } ∧
      Written st.data data start (image.take (j * size + a.accepted) ++ a.tail.take (size - a.accepted)) ∧
      (∀ n, n ≠ k → t.unit n = s.unit n) ∧ t.mem = s.mem ∧
      (dmaReads t.trace).length =
        (dmaReads s.trace).length + (if i = .wrfmt b then 0 else min (byteCount b) ((j + 1) * size) / 2)

/-- A transfer from a canonical start that runs past cylinder `C`: the sectors up to the last of cylinder `C` are
moved, then seek-incomplete ends the command and they stay moved (42_geometry_dma.md R102). -/
def Obligations.ReadStopsAfterTheLastCylinder : Prop :=
  ∀ (b : CommandBlock) (s : State) (k : UnitId) (st : BackingStore), Ready b k s →
    (s.unit k).backingStore = some st → Reference st → ValidAddress (s.unit k) b →
    CanonicalStart (s.unit k) b → admittedSectorSize (s.unit k) = true →
    let u := s.unit k
    let moved := (admittedSectors u - linearSector u b) * u.bytesPerSector.toNat
    admittedSectors u < linearSector u b + sectorsNeeded u b →
    startPosition u b + moved ≤ st.data.length →
    ∃ t, exec (.rddata b) s = .next t ∧ Posted s t 0x0400#16 0x2001#16 ∧
      t.unit k = { u with backingStore := some { st with pos := startPosition u b + moved } } ∧
      (∀ j, j ≠ k → t.unit j = s.unit j) ∧
      Stored s.mem t.mem (dmaAddress b)
        (if b.ti then [] else (st.data.drop (startPosition u b)).take moved)

/-- The same for Write Data: the sectors up to the last of cylinder `C` are on the medium, whole, and stay there when
seek-incomplete ends the command; host memory is not changed (42_geometry_dma.md R102, 60_exceptions.md R145). -/
def Obligations.WriteStopsAfterTheLastCylinder : Prop :=
  ∀ (b : CommandBlock) (s : State) (k : UnitId) (st : BackingStore), Ready b k s →
    (s.unit k).writeProtected = false → (s.unit k).backingStore = some st → Reference st →
    ValidAddress (s.unit k) b → CanonicalStart (s.unit k) b → admittedSectorSize (s.unit k) = true →
    let u := s.unit k
    let moved := (admittedSectors u - linearSector u b) * u.bytesPerSector.toNat
    admittedSectors u < linearSector u b + sectorsNeeded u b →
    ∃ t data, exec (.wrdata b) s = .next t ∧ Posted s t 0x0400#16 0x2001#16 ∧
      t.unit k = { u with backingStore := some { st with data := data, pos := startPosition u b + moved } } ∧
      Written st.data data (startPosition u b) (memoryBytes s.mem (dmaAddress b) moved) ∧
      (∀ j, j ≠ k → t.unit j = s.unit j) ∧ t.mem = s.mem

/-- A data command on a unit whose sector size is odd, zero or above 512 is refused by name after every check has
passed, whatever the byte count: it does not return from the command (45_unit_management.md R134). That the command is
refused and not the attach, and only after the checks, is the model's choice (log 9). -/
def Obligations.InadmissibleGeometryIsRefused : Prop :=
  ∀ (b : CommandBlock) (i : Instr) (s : State) (k : UnitId) (st : BackingStore), Ready b k s →
    (s.unit k).backingStore = some st → SeekGranted st → admittedSectorSize (s.unit k) = false →
    ((i = .wrfmt b ∧ (s.unit k).writeProtected = false ∧ ValidTrack (s.unit k) b) ∨
      (i = .rddata b ∧ ValidAddress (s.unit k) b) ∨
      (i = .wrdata b ∧ (s.unit k).writeProtected = false ∧ ValidAddress (s.unit k) b)) →
    exec i s = .refused .inadmissibleGeometry

/-- Round trip: sectors written by Write Data and read back by Read Data from the same address into any other place
are the bytes that were in host memory (property S-P4 of 95_test_vectors.md; rests on 44_commands_data.md R119,
R120). -/
def Obligations.WriteThenReadRoundTrip : Prop :=
  ∀ (b : CommandBlock) (s : State) (k : UnitId) (st : BackingStore) (lo : BitVec 16) (hi : BitVec 5), Ready b k s →
    (s.unit k).writeProtected = false → (s.unit k).backingStore = some st → Reference st →
    ValidAddress (s.unit k) b → admittedSectorSize (s.unit k) = true → StaysInside (s.unit k) b →
    let back := { b with ti := false, dmaLo := lo, dmaHi := hi }
    ∃ t r, exec (.wrdata b) s = .next t ∧ exec (.rddata back) t = .next r ∧ Posted t r 0x0000#16 0x4000#16 ∧
      ∀ n, n < byteCount b →
        Memory.readByte r.mem (dmaByte (dmaAddress back) n) = Memory.readByte s.mem (dmaByte (dmaAddress b) n)

/-- From a canonical start the counters follow the linear position: the advance is one linear sector and stays
canonical (42_geometry_dma.md R101, R112). -/
def Obligations.AdvanceFollowsTheLinearPosition : Prop :=
  ∀ (u : DiskUnit) (x : Transfer), x.head < u.heads.toNat → x.sector < u.sectorsPerTrack.toNat →
    let y := advanceChs u x
    y.head < u.heads.toNat ∧ y.sector < u.sectorsPerTrack.toNat ∧
      (y.cylinder * u.heads.toNat + y.head) * u.sectorsPerTrack.toNat + y.sector =
        (x.cylinder * u.heads.toNat + x.head) * u.sectorsPerTrack.toNat + x.sector + 1

/-! ## What a command leaves alone -/

/-- The executor's frame: registers `w1`..`w6`, the low byte of `w0`, `w7[12:9]`, `w7[7:3]` and `w7[1]`, every geometry
field and write protection, every unit but the selected one, the unsafe flag but for codes 0 and 7, the store but for
codes 1, 2, 3, 7, memory but for codes 0, 2, 4 (41_command_execution.md R96, the spec's own inference). Those three change
no byte of memory but the bytes of the transfer: as many as the byte count from the block's DMA address on, or six for
Unformatted Read (42_geometry_dma.md R103, R108, R111). -/
def Obligations.CommandFrameHolds : Prop :=
  ∀ (b : CommandBlock) (i : Instr) (s t : State), Command b i → exec i s = .next t →
    t.regs.block = s.regs.block ∧
    t.regs.w0 &&& 0x00FF#16 = s.regs.w0 &&& 0x00FF#16 ∧
    t.regs.w7 &&& 0x1EFA#16 = s.regs.w7 &&& 0x1EFA#16 ∧
    (∀ j, currentUnit s.cfg.maxUnits b.sel ≠ some j → t.unit j = s.unit j) ∧
    (∀ j, SameGeometry (s.unit j) (t.unit j)) ∧
    (i ≠ .streg b → i ≠ .restore b → ∀ j, (t.unit j).unsafeFlag = (s.unit j).unsafeFlag) ∧
    ((i = .streg b ∨ i = .ufread b ∨ i = .ufwrite b ∨ i = .seek b) →
      ∀ j, (t.unit j).backingStore = (s.unit j).backingStore) ∧
    ((i = .wrfmt b ∨ i = .wrdata b ∨ i = .ufwrite b ∨ i = .seek b ∨ i = .restore b) → t.mem = s.mem) ∧
    (∀ x, (∀ n, n < (if i = .ufread b then 6 else byteCount b) → x ≠ dmaByte (dmaAddress b) n) →
      Memory.readByte t.mem x = Memory.readByte s.mem x)

/-- No command changes the content of a write-protected unit's medium, and Read Data and Restore change no content at
all (45_unit_management.md R131, 41_command_execution.md R92). -/
def Obligations.WriteProtectedMediumNeverChanges : Prop :=
  ∀ (b : CommandBlock) (i : Instr) (s t : State) (j : UnitId), Command b i → exec i s = .next t →
    ((s.unit j).writeProtected = true ∨ i = .rddata b ∨ i = .restore b) →
    (t.unit j).backingStore.map BackingStore.data = (s.unit j).backingStore.map BackingStore.data

/-- The words of a transfer move in ascending order from the block's DMA address, all at even addresses of the window,
wrapping at its top (20_memory.md R46, R52; 42_geometry_dma.md R104). -/
def Obligations.DmaMovesInAscendingOrder : Prop :=
  ∀ (b : CommandBlock) (i : Instr) (s t : State), Command b i → exec i s = .next t →
    let address := fun n : Nat => BitVec.ofNat 21 (((dmaAddress b).toNat + 2 * n) % 0x200000)
    ∃ n m, (dmaWrites t.trace).map Prod.fst = (dmaWrites s.trace).map Prod.fst ++ (List.range n).map address ∧
      dmaReads t.trace = dmaReads s.trace ++ (List.range m).map address ∧
      (∀ j, (address j).toNat % 2 = 0) ∧ 2 * n ≤ max 6 (byteCount b) ∧ 2 * m ≤ byteCount b

/-- Transient executor state is never observed: nothing of it carries from one command to the next (10_state.md R31). -/
def Obligations.TransientStateIsNeverObserved : Prop :=
  ∀ (i : Instr) (s : State) (x : Transfer), observed (exec i (s.withXfer x)) = observed (exec i s)

/-! ## Unit management and reset -/

/-- ATTACH of a readable image to a Detached unit, the reposition granted and the 16 header bytes delivered, by answers
still planned or as the reference store does: the descriptor takes the header's four big-endian fields, the store
and its protection, the unsafe flag is set, the attention line is set, the arbiter runs, `Ok`
(45_unit_management.md R121, R124). -/
def Obligations.AttachInstallsTheImage : Prop :=
  ∀ (s : State) (k : UnitId) (st : BackingStore) (ro : Bool)
    (c0 c1 c2 c3 h0 h1 h2 h3 s0 s1 s2 s3 b0 b1 b2 b3 : Byte) (payload : List Byte),
    k.val < s.cfg.maxUnits → (s.unit k).backingStore = none → SeekGranted st →
    (∀ l, st.readPlan.head? = some l → 16 ≤ l) →
    st.data = [c0, c1, c2, c3, h0, h1, h2, h3, s0, s1, s2, s3, b0, b1, b2, b3] ++ payload →
    let field := fun a b c d : Byte => ((a.toNat * 256 + b.toNat) * 256 + c.toNat) * 256 + d.toNat
    field b0 b1 b2 b3 ≤ 512 →
    ∃ t, exec (.attach k.val st ro) s = .next t ∧
      t.unit k =
        { backingStore := some { st with pos := 16, seekPlan := st.seekPlan.tail, readPlan := st.readPlan.tail },
          writeProtected := ro, unsafeFlag := true,
          cylinders := BitVec.ofNat 32 (field c0 c1 c2 c3), heads := BitVec.ofNat 32 (field h0 h1 h2 h3),
          sectorsPerTrack := BitVec.ofNat 32 (field s0 s1 s2 s3),
          bytesPerSector := BitVec.ofNat 32 (field b0 b1 b2 b3) } ∧
      (∀ j, j ≠ k → t.unit j = s.unit j) ∧
      t.regs = { s.regs with w0 := s.regs.w0 ||| (0x0080#16 >>> k.val) } ∧
      t.intLevel = arbiterLevel t.regs.w0 t.regs.w7 ∧ t.reply = .attached ∧ t.mem = s.mem ∧ t.cfg = s.cfg ∧
      t.pending = s.pending ∧ t.xfer = s.xfer

/-- ATTACH fails: a sector above 512 bytes, fewer than 16 header bytes held or delivered, a failed reposition, a unit at or above
`MAX_UNITS`. A Detached unit stays Detached, no register changes and the arbiter is not run
(45_unit_management.md R125, R126). -/
def Obligations.FailedAttachLeavesTheUnitDetached : Prop :=
  ∀ (s : State) (n : Nat) (st : BackingStore) (ro : Bool),
    (∀ k : UnitId, k.val = n → (s.unit k).backingStore = none) →
    (s.cfg.maxUnits ≤ n ∨
      (∃ pos rest, st.seekPlan = .failed pos :: rest) ∨
      (SeekGranted st ∧ (st.data.length < 16 ∨ ∃ l, st.readPlan.head? = some l ∧ l < 16)) ∨
      (SeekGranted st ∧ ∃ b0 b1 b2 b3 : Byte, (st.data.drop 12).take 4 = [b0, b1, b2, b3] ∧
        512 < ((b0.toNat * 256 + b1.toNat) * 256 + b2.toNat) * 256 + b3.toNat)) →
    ∃ t, exec (.attach n st ro) s = .next t ∧ t.reply = .attachError ∧ t.units = s.units ∧ t.regs = s.regs ∧
      t.intLevel = s.intLevel ∧ t.mem = s.mem ∧ t.cfg = s.cfg ∧ t.pending = s.pending ∧ t.xfer = s.xfer ∧
      sinkLevels t.trace = sinkLevels s.trace

/-- ATTACH to an attached unit detaches it first, so it is the attach of the state DETACH leaves, a failed one
included (45_unit_management.md R126(b)). -/
def Obligations.ReattachDetachesFirst : Prop :=
  ∀ (s : State) (k : UnitId) (st : BackingStore) (ro : Bool), k.val < s.cfg.maxUnits →
    (s.unit k).backingStore.isSome = true →
    ∃ t, exec (.detach k.val) s = .next t ∧ (t.unit k).backingStore = none ∧
      exec (.attach k.val st ro) s = exec (.attach k.val st ro) t

/-- DETACH: every field of the Detached state, the attention line cleared, its enable kept, the store released, the
arbiter run; no-op at or above `MAX_UNITS` (45_unit_management.md R127, R128). -/
def Obligations.DetachEmptiesTheUnit : Prop :=
  ∀ s : State,
    (∀ k : UnitId, k.val < s.cfg.maxUnits →
      ∃ t, exec (.detach k.val) s = .next t ∧
        t.unit k =
          { backingStore := none, writeProtected := false, unsafeFlag := false, cylinders := 0#32, heads := 0#32,
            sectorsPerTrack := 0#32, bytesPerSector := 0#32 } ∧
        (∀ j, j ≠ k → t.unit j = s.unit j) ∧
        t.regs = { s.regs with w0 := s.regs.w0 &&& ~~~(0x0080#16 >>> k.val) } ∧
        t.intLevel = arbiterLevel t.regs.w0 t.regs.w7 ∧
        t.trace = .sink t.intLevel :: ((s.unit k).backingStore.toList.map (Event.released k) ++ s.trace) ∧
        t.mem = s.mem ∧ t.cfg = s.cfg ∧ t.pending = s.pending ∧ t.reply = s.reply ∧ t.xfer = s.xfer) ∧
    (∀ n, s.cfg.maxUnits ≤ n → exec (.detach n) s = .next s)

/-- INIT: all registers zero but `IDLE`, attention re-derived from the units attached at that moment, the line low
after one arbiter run, units and stores untouched (70_reset_and_hazards.md R157, R159). -/
def Obligations.InitResetsTheRegisters : Prop :=
  ∀ s : State,
    ∃ t, exec .init s = .next t ∧ t.regs.w1 = 0x0000#16 ∧ t.regs.w2 = 0x0000#16 ∧ t.regs.w3 = 0x0000#16 ∧
      t.regs.w4 = 0x0000#16 ∧ t.regs.w5 = 0x0000#16 ∧ t.regs.w6 = 0x0000#16 ∧ t.regs.w7 = 0x8000#16 ∧
      (∀ k : UnitId, t.regs.w0.getLsbD (7 - k.val) =
        (decide (k.val < s.cfg.maxUnits) && (s.unit k).backingStore.isSome)) ∧
      t.regs.w0 &&& 0xFF0F#16 = 0x0000#16 ∧ t.intLevel = false ∧
      sinkLevels t.trace = sinkLevels s.trace ++ [false] ∧ t.units = s.units ∧ t.mem = s.mem ∧ t.cfg = s.cfg ∧
      t.pending = s.pending ∧ t.reply = s.reply ∧ t.xfer = s.xfer

/-- The state after reset, `w0`..`w6` = 0, `w7` = 0x8000, every unit Detached, line low, is what INIT makes of any state
with every unit Detached (70_reset_and_hazards.md R158). -/
def Obligations.ResetIsInitAfterPowerOn : Prop :=
  State.reset.regs.w0 = 0x0000#16 ∧ State.reset.regs.w1 = 0x0000#16 ∧ State.reset.regs.w2 = 0x0000#16 ∧
    State.reset.regs.w3 = 0x0000#16 ∧ State.reset.regs.w4 = 0x0000#16 ∧ State.reset.regs.w5 = 0x0000#16 ∧
    State.reset.regs.w6 = 0x0000#16 ∧ State.reset.regs.w7 = 0x8000#16 ∧ State.reset.intLevel = false ∧
    (∀ k : UnitId, State.reset.unit k = DiskUnit.detached) ∧
    (∀ s : State, (∀ k : UnitId, s.unit k = DiskUnit.detached) →
      ∃ t, exec .init s = .next t ∧ t.regs = State.reset.regs ∧ t.units = State.reset.units ∧
        t.intLevel = State.reset.intLevel)

/-! ## Invariants and runs -/

/-- The invariant holds after reset (10_state.md R27, R31, R36, R38). Its clauses on the transient state hold by the model's
choice of that state at reset (log 11), which 10_state.md R36 calls unspecified; its clause on the configuration is
about the parameters at the values log 3 chooses, and holds of every value they can have (log 27). -/
def Obligations.ResetMeetsTheInvariant : Prop := Inv State.reset

/-- Every step keeps the invariant: the controller is idle with its reserved bit 0, the status byte has one of its
patterns, the line is the arbiter's function of the registers, `ATTN[k]` is 1 exactly while unit `k` is attached, a
unit without a store is Detached in every field, no attached sector is above 512 bytes, memory keeps its canonical form
(10_state.md R27, R29, R38; 60_exceptions.md R141, R142, R156). -/
def Obligations.EveryStepKeepsTheInvariant : Prop :=
  ∀ s t : State, Inv s → step s = .next t → Inv t

/-- The only refusal of a step is a data command on a unit without an admitted geometry (log 9); no step faults, since
`Fault` has no value. -/
def Obligations.OnlyInadmissibleGeometryIsRefused : Prop :=
  ∀ (s : State) (r : Refusal), step s = .refused r →
    r = .inadmissibleGeometry ∧
      ∃ k, (s.unit k).backingStore.isSome = true ∧ admittedSectorSize (s.unit k) = false

/-- Started, a command always finishes: while every attached and every offered image has an admitted geometry, a run of
any length and of any operations goes on (41_command_execution.md R95, 70_reset_and_hazards.md R178). -/
def Obligations.AdmittedRunsNeverStop : Prop :=
  ∀ (n : Nat) (s : State), AllAdmitted s → PendingAdmitted s →
    ∃ t : State, Host.Core.run Sys2Proof.core n s = .next t ∧ AllAdmitted t ∧ PendingAdmitted t
end

