-- ==== Sys2Proof/Laws/State.lean ====
section
/-! SUPPORT. One lemma per field per update of State, and the laws of the register and unit files. -/

/-- No machine has a `MAX_UNITS` outside 1..4 (93_implementation_defined.md U20; log 27). -/
@[simp] theorem Sys2Proof.Config.admitted_eq_true (c : Sys2Proof.Config) : c.admitted = true := by
  have h : c.lastUnit.val + 1 ≤ 4 := c.lastUnit.isLt
  simp [Sys2Proof.Config.admitted, Sys2Proof.Config.maxUnits, h]

namespace Sys2Proof.Machine

namespace State

variable (s : State)

@[simp] theorem withRegs_cfg (v : Regs) : (s.withRegs v).cfg = s.cfg := rfl
@[simp] theorem withRegs_regs (v : Regs) : (s.withRegs v).regs = v := rfl
@[simp] theorem withRegs_units (v : Regs) : (s.withRegs v).units = s.units := rfl
@[simp] theorem withRegs_intLevel (v : Regs) : (s.withRegs v).intLevel = s.intLevel := rfl
@[simp] theorem withRegs_xfer (v : Regs) : (s.withRegs v).xfer = s.xfer := rfl
@[simp] theorem withRegs_mem (v : Regs) : (s.withRegs v).mem = s.mem := rfl
@[simp] theorem withRegs_reply (v : Regs) : (s.withRegs v).reply = s.reply := rfl
@[simp] theorem withRegs_trace (v : Regs) : (s.withRegs v).trace = s.trace := rfl
@[simp] theorem withRegs_pending (v : Regs) : (s.withRegs v).pending = s.pending := rfl

@[simp] theorem withUnits_cfg (v : Units) : (s.withUnits v).cfg = s.cfg := rfl
@[simp] theorem withUnits_regs (v : Units) : (s.withUnits v).regs = s.regs := rfl
@[simp] theorem withUnits_units (v : Units) : (s.withUnits v).units = v := rfl
@[simp] theorem withUnits_intLevel (v : Units) : (s.withUnits v).intLevel = s.intLevel := rfl
@[simp] theorem withUnits_xfer (v : Units) : (s.withUnits v).xfer = s.xfer := rfl
@[simp] theorem withUnits_mem (v : Units) : (s.withUnits v).mem = s.mem := rfl
@[simp] theorem withUnits_reply (v : Units) : (s.withUnits v).reply = s.reply := rfl
@[simp] theorem withUnits_trace (v : Units) : (s.withUnits v).trace = s.trace := rfl
@[simp] theorem withUnits_pending (v : Units) : (s.withUnits v).pending = s.pending := rfl

@[simp] theorem withLevel_cfg (v : Bool) : (s.withLevel v).cfg = s.cfg := rfl
@[simp] theorem withLevel_regs (v : Bool) : (s.withLevel v).regs = s.regs := rfl
@[simp] theorem withLevel_units (v : Bool) : (s.withLevel v).units = s.units := rfl
@[simp] theorem withLevel_intLevel (v : Bool) : (s.withLevel v).intLevel = v := rfl
@[simp] theorem withLevel_xfer (v : Bool) : (s.withLevel v).xfer = s.xfer := rfl
@[simp] theorem withLevel_mem (v : Bool) : (s.withLevel v).mem = s.mem := rfl
@[simp] theorem withLevel_reply (v : Bool) : (s.withLevel v).reply = s.reply := rfl
@[simp] theorem withLevel_trace (v : Bool) : (s.withLevel v).trace = s.trace := rfl
@[simp] theorem withLevel_pending (v : Bool) : (s.withLevel v).pending = s.pending := rfl

@[simp] theorem withXfer_cfg (v : Transfer) : (s.withXfer v).cfg = s.cfg := rfl
@[simp] theorem withXfer_regs (v : Transfer) : (s.withXfer v).regs = s.regs := rfl
@[simp] theorem withXfer_units (v : Transfer) : (s.withXfer v).units = s.units := rfl
@[simp] theorem withXfer_intLevel (v : Transfer) : (s.withXfer v).intLevel = s.intLevel := rfl
@[simp] theorem withXfer_xfer (v : Transfer) : (s.withXfer v).xfer = v := rfl
@[simp] theorem withXfer_mem (v : Transfer) : (s.withXfer v).mem = s.mem := rfl
@[simp] theorem withXfer_reply (v : Transfer) : (s.withXfer v).reply = s.reply := rfl
@[simp] theorem withXfer_trace (v : Transfer) : (s.withXfer v).trace = s.trace := rfl
@[simp] theorem withXfer_pending (v : Transfer) : (s.withXfer v).pending = s.pending := rfl

@[simp] theorem withMem_cfg (v : Memory) : (s.withMem v).cfg = s.cfg := rfl
@[simp] theorem withMem_regs (v : Memory) : (s.withMem v).regs = s.regs := rfl
@[simp] theorem withMem_units (v : Memory) : (s.withMem v).units = s.units := rfl
@[simp] theorem withMem_intLevel (v : Memory) : (s.withMem v).intLevel = s.intLevel := rfl
@[simp] theorem withMem_xfer (v : Memory) : (s.withMem v).xfer = s.xfer := rfl
@[simp] theorem withMem_mem (v : Memory) : (s.withMem v).mem = v := rfl
@[simp] theorem withMem_reply (v : Memory) : (s.withMem v).reply = s.reply := rfl
@[simp] theorem withMem_trace (v : Memory) : (s.withMem v).trace = s.trace := rfl
@[simp] theorem withMem_pending (v : Memory) : (s.withMem v).pending = s.pending := rfl

@[simp] theorem withReply_cfg (v : Reply) : (s.withReply v).cfg = s.cfg := rfl
@[simp] theorem withReply_regs (v : Reply) : (s.withReply v).regs = s.regs := rfl
@[simp] theorem withReply_units (v : Reply) : (s.withReply v).units = s.units := rfl
@[simp] theorem withReply_intLevel (v : Reply) : (s.withReply v).intLevel = s.intLevel := rfl
@[simp] theorem withReply_xfer (v : Reply) : (s.withReply v).xfer = s.xfer := rfl
@[simp] theorem withReply_mem (v : Reply) : (s.withReply v).mem = s.mem := rfl
@[simp] theorem withReply_reply (v : Reply) : (s.withReply v).reply = v := rfl
@[simp] theorem withReply_trace (v : Reply) : (s.withReply v).trace = s.trace := rfl
@[simp] theorem withReply_pending (v : Reply) : (s.withReply v).pending = s.pending := rfl

@[simp] theorem withPending_cfg (v : List Input) : (s.withPending v).cfg = s.cfg := rfl
@[simp] theorem withPending_regs (v : List Input) : (s.withPending v).regs = s.regs := rfl
@[simp] theorem withPending_units (v : List Input) : (s.withPending v).units = s.units := rfl
@[simp] theorem withPending_intLevel (v : List Input) : (s.withPending v).intLevel = s.intLevel := rfl
@[simp] theorem withPending_xfer (v : List Input) : (s.withPending v).xfer = s.xfer := rfl
@[simp] theorem withPending_mem (v : List Input) : (s.withPending v).mem = s.mem := rfl
@[simp] theorem withPending_reply (v : List Input) : (s.withPending v).reply = s.reply := rfl
@[simp] theorem withPending_trace (v : List Input) : (s.withPending v).trace = s.trace := rfl
@[simp] theorem withPending_pending (v : List Input) : (s.withPending v).pending = v := rfl

@[simp] theorem emit_cfg (e : Event) : (s.emit e).cfg = s.cfg := rfl
@[simp] theorem emit_regs (e : Event) : (s.emit e).regs = s.regs := rfl
@[simp] theorem emit_units (e : Event) : (s.emit e).units = s.units := rfl
@[simp] theorem emit_intLevel (e : Event) : (s.emit e).intLevel = s.intLevel := rfl
@[simp] theorem emit_xfer (e : Event) : (s.emit e).xfer = s.xfer := rfl
@[simp] theorem emit_mem (e : Event) : (s.emit e).mem = s.mem := rfl
@[simp] theorem emit_reply (e : Event) : (s.emit e).reply = s.reply := rfl
@[simp] theorem emit_trace (e : Event) : (s.emit e).trace = e :: s.trace := rfl
@[simp] theorem emit_pending (e : Event) : (s.emit e).pending = s.pending := rfl

@[simp] theorem begin_cfg (rest : List Input) : (s.begin rest).cfg = s.cfg := rfl
@[simp] theorem begin_regs (rest : List Input) : (s.begin rest).regs = s.regs := rfl
@[simp] theorem begin_units (rest : List Input) : (s.begin rest).units = s.units := rfl
@[simp] theorem begin_intLevel (rest : List Input) : (s.begin rest).intLevel = s.intLevel := rfl
@[simp] theorem begin_xfer (rest : List Input) : (s.begin rest).xfer = s.xfer := rfl
@[simp] theorem begin_mem (rest : List Input) : (s.begin rest).mem = s.mem := rfl
@[simp] theorem begin_reply (rest : List Input) : (s.begin rest).reply = Reply.done := rfl
@[simp] theorem begin_trace (rest : List Input) : (s.begin rest).trace = [] := rfl
@[simp] theorem begin_pending (rest : List Input) : (s.begin rest).pending = rest := rfl

/-! `unit` reads only the unit file. -/

@[simp] theorem withRegs_unit (v : Regs) (k : UnitId) : (s.withRegs v).unit k = s.unit k := rfl
@[simp] theorem withLevel_unit (v : Bool) (k : UnitId) : (s.withLevel v).unit k = s.unit k := rfl
@[simp] theorem withXfer_unit (v : Transfer) (k : UnitId) : (s.withXfer v).unit k = s.unit k := rfl
@[simp] theorem withMem_unit (v : Memory) (k : UnitId) : (s.withMem v).unit k = s.unit k := rfl
@[simp] theorem withReply_unit (v : Reply) (k : UnitId) : (s.withReply v).unit k = s.unit k := rfl
@[simp] theorem withPending_unit (v : List Input) (k : UnitId) : (s.withPending v).unit k = s.unit k := rfl
@[simp] theorem emit_unit (e : Event) (k : UnitId) : (s.emit e).unit k = s.unit k := rfl
@[simp] theorem begin_unit (rest : List Input) (k : UnitId) : (s.begin rest).unit k = s.unit k := rfl

end State

/-! ## The unit file -/

@[simp] theorem Units.get_set_same (us : Units) (k : UnitId) (u : DiskUnit) : (us.set k u).get k = u := by
  fin_cases k <;> rfl

theorem Units.get_set_ne (us : Units) {k j : UnitId} (u : DiskUnit) (h : j ≠ k) :
    (us.set k u).get j = us.get j := by
  fin_cases k <;> fin_cases j <;> first | rfl | exact absurd rfl h

@[simp] theorem Units.set_get (us : Units) (k : UnitId) : us.set k (us.get k) = us := by
  fin_cases k <;> rfl

@[simp] theorem Units.set_set (us : Units) (k : UnitId) (u v : DiskUnit) : (us.set k u).set k v = us.set k v := by
  fin_cases k <;> rfl

/-- Two unit files with the same descriptors are the same. -/
theorem Units.ext_get {us vs : Units} (h : ∀ k, us.get k = vs.get k) : us = vs := by
  cases us
  cases vs
  have h0 := h 0
  have h1 := h 1
  have h2 := h 2
  have h3 := h 3
  simp_all [Units.get]

@[simp] theorem State.unit_setUnit_same (s : State) (k : UnitId) (u : DiskUnit) : (s.setUnit k u).unit k = u :=
  Units.get_set_same s.units k u

theorem State.unit_setUnit_ne (s : State) {k j : UnitId} (u : DiskUnit) (h : j ≠ k) :
    (s.setUnit k u).unit j = s.unit j :=
  Units.get_set_ne s.units u h

@[simp] theorem State.setUnit_cfg (s : State) (k : UnitId) (u : DiskUnit) : (s.setUnit k u).cfg = s.cfg := rfl
@[simp] theorem State.setUnit_regs (s : State) (k : UnitId) (u : DiskUnit) : (s.setUnit k u).regs = s.regs := rfl
@[simp] theorem State.setUnit_intLevel (s : State) (k : UnitId) (u : DiskUnit) : (s.setUnit k u).intLevel = s.intLevel := rfl
@[simp] theorem State.setUnit_xfer (s : State) (k : UnitId) (u : DiskUnit) : (s.setUnit k u).xfer = s.xfer := rfl
@[simp] theorem State.setUnit_mem (s : State) (k : UnitId) (u : DiskUnit) : (s.setUnit k u).mem = s.mem := rfl
@[simp] theorem State.setUnit_reply (s : State) (k : UnitId) (u : DiskUnit) : (s.setUnit k u).reply = s.reply := rfl
@[simp] theorem State.setUnit_trace (s : State) (k : UnitId) (u : DiskUnit) : (s.setUnit k u).trace = s.trace := rfl
@[simp] theorem State.setUnit_pending (s : State) (k : UnitId) (u : DiskUnit) : (s.setUnit k u).pending = s.pending := rfl
@[simp] theorem State.setUnit_units (s : State) (k : UnitId) (u : DiskUnit) : (s.setUnit k u).units = s.units.set k u := rfl

@[simp] theorem State.setStore_cfg (s : State) (k : UnitId) (st : BackingStore) : (s.setStore k st).cfg = s.cfg := rfl
@[simp] theorem State.setStore_regs (s : State) (k : UnitId) (st : BackingStore) : (s.setStore k st).regs = s.regs := rfl
@[simp] theorem State.setStore_intLevel (s : State) (k : UnitId) (st : BackingStore) : (s.setStore k st).intLevel = s.intLevel := rfl
@[simp] theorem State.setStore_xfer (s : State) (k : UnitId) (st : BackingStore) : (s.setStore k st).xfer = s.xfer := rfl
@[simp] theorem State.setStore_mem (s : State) (k : UnitId) (st : BackingStore) : (s.setStore k st).mem = s.mem := rfl
@[simp] theorem State.setStore_reply (s : State) (k : UnitId) (st : BackingStore) : (s.setStore k st).reply = s.reply := rfl
@[simp] theorem State.setStore_trace (s : State) (k : UnitId) (st : BackingStore) : (s.setStore k st).trace = s.trace := rfl
@[simp] theorem State.setStore_pending (s : State) (k : UnitId) (st : BackingStore) : (s.setStore k st).pending = s.pending := rfl

@[simp] theorem State.unit_setStore_same (s : State) (k : UnitId) (st : BackingStore) :
    (s.setStore k st).unit k = { s.unit k with backingStore := some st } :=
  State.unit_setUnit_same s k _

theorem State.unit_setStore_ne (s : State) {k j : UnitId} (st : BackingStore) (h : j ≠ k) :
    (s.setStore k st).unit j = s.unit j :=
  State.unit_setUnit_ne s _ h

/-! ## The register file -/

@[simp] theorem Regs.get_set_same (r : Regs) (i : Fin 8) (v : Word) : (r.set i v).get i = v := by
  fin_cases i <;> rfl

theorem Regs.get_set_ne (r : Regs) {i j : Fin 8} (v : Word) (h : j ≠ i) : (r.set i v).get j = r.get j := by
  fin_cases i <;> fin_cases j <;> first | rfl | exact absurd rfl h

@[simp] theorem Regs.get_zero (r : Regs) : r.get 0 = r.w0 := rfl
@[simp] theorem Regs.get_seven (r : Regs) : r.get 7 = r.w7 := rfl
@[simp] theorem Regs.set_zero (r : Regs) (v : Word) : r.set 0 v = { r with w0 := v } := rfl
@[simp] theorem Regs.set_seven (r : Regs) (v : Word) : r.set 7 v = { r with w7 := v } := rfl

/-- Two register files that read alike are the same. -/
theorem Regs.ext_get {r q : Regs} (h : ∀ i, r.get i = q.get i) : r = q := by
  cases r
  cases q
  have h0 := h 0
  have h1 := h 1
  have h2 := h 2
  have h3 := h 3
  have h4 := h 4
  have h5 := h 5
  have h6 := h 6
  have h7 := h 7
  simp_all [Regs.get]

@[simp] theorem regIndex_val (i : Fin 8) : regIndex i.val = some i := by simp [regIndex]

theorem regIndex_none {index : Nat} (h : 8 ≤ index) : regIndex index = none := by
  simp [regIndex, Nat.not_lt.mpr h]

theorem unitOfNat_some {m k : Nat} {u : UnitId} (h : unitOfNat m k = some u) : u.val = k ∧ k < m := by
  unfold unitOfNat at h
  split at h <;> try contradiction
  split at h <;> try contradiction
  cases h
  exact ⟨rfl, ‹_›⟩

/-- A selected unit exists: its number is below `MAX_UNITS` (41_command_execution.md R86). -/
theorem currentUnit_lt {m : Nat} {sel : BitVec 4} {k : UnitId} (h : currentUnit m sel = some k) : k.val < m := by
  unfold currentUnit at h
  split at h <;> try contradiction
  have := unitOfNat_some h
  omega

end Sys2Proof.Machine
end

