-- ==== Sys2Proof/Laws/Memory.lean ====
section
/-! SUPPORT. The laws of host memory: read after write, and the canonical form every operation keeps. -/

namespace Sys2Proof.Machine.Memory

/-! ## Read after write -/

@[simp] theorem lookup_writeByte_same (m : Memory) (x : Nat) (v : Byte) : lookup (writeByte m x v) x = some v := by
  induction m with
  | nil => simp [writeByte, lookup]
  | cons c rest ih =>
    obtain ⟨a, b⟩ := c
    simp only [writeByte]
    split
    · simp [lookup]
    · split
      · simp [lookup]
      · simp [lookup, *]

theorem lookup_writeByte_ne (m : Memory) {x y : Nat} (v : Byte) (h : y ≠ x) :
    lookup (writeByte m x v) y = lookup m y := by
  induction m with
  | nil => simp [writeByte, lookup, h]
  | cons c rest ih =>
    obtain ⟨a, b⟩ := c
    simp only [writeByte]
    split
    · simp [lookup, h]
    · split
      · rename_i hx
        subst hx
        simp [lookup, h]
      · simp [lookup, ih]

@[simp] theorem readByte_writeByte_same (m : Memory) (x : Nat) (v : Byte) : readByte (writeByte m x v) x = v := by
  simp [readByte]

theorem readByte_writeByte_ne (m : Memory) {x y : Nat} (v : Byte) (h : y ≠ x) :
    readByte (writeByte m x v) y = readByte m y := by
  simp [readByte, lookup_writeByte_ne m v h]

/-! ## Words -/

theorem wordOfBytes_toNat (hi lo : Byte) : (wordOfBytes hi lo).toNat = hi.toNat * 256 + lo.toNat := by
  have h := BitVec.toNat_append (x := hi) (y := lo)
  have hl := lo.isLt
  rw [← Nat.shiftLeft_add_eq_or_of_lt hl, Nat.shiftLeft_eq] at h
  exact h

theorem highByte_toNat (v : Word) : (highByte v).toNat = v.toNat / 256 := by
  have := v.isLt
  simp [highByte, BitVec.extractLsb'_toNat, Nat.shiftRight_eq_div_pow]
  omega

theorem lowByte_toNat (v : Word) : (lowByte v).toNat = v.toNat % 256 := by
  simp [lowByte, BitVec.extractLsb'_toNat]

@[simp] theorem word_of_its_bytes (v : Word) : wordOfBytes (highByte v) (lowByte v) = v := by
  apply BitVec.eq_of_toNat_eq
  rw [wordOfBytes_toNat, highByte_toNat, lowByte_toNat]
  omega

@[simp] theorem highByte_wordOfBytes (hi lo : Byte) : highByte (wordOfBytes hi lo) = hi := by
  apply BitVec.eq_of_toNat_eq
  have := lo.isLt
  rw [highByte_toNat, wordOfBytes_toNat]
  omega

@[simp] theorem lowByte_wordOfBytes (hi lo : Byte) : lowByte (wordOfBytes hi lo) = lo := by
  apply BitVec.eq_of_toNat_eq
  have := lo.isLt
  rw [lowByte_toNat, wordOfBytes_toNat]
  omega

theorem dmaMask_getLsbD (i : Nat) (hi : i < 21) : Config.dmaMask.getLsbD i = !decide (i = 0) := by
  revert hi
  revert i
  decide

theorem mask_toNat (a : DmaAddr) : (a &&& Config.dmaMask).toNat = a.toNat / 2 * 2 := by
  have h : a &&& Config.dmaMask = (a >>> 1) <<< 1 := by
    apply BitVec.eq_of_getLsbD_eq
    intro i hi
    rw [BitVec.getLsbD_and, dmaMask_getLsbD i hi, BitVec.getLsbD_shiftLeft, BitVec.getLsbD_ushiftRight]
    cases i with
    | zero => simp
    | succ j => simp [hi, Nat.add_comm]
  rw [h]
  simp [BitVec.toNat_shiftLeft, BitVec.toNat_ushiftRight, Nat.shiftLeft_eq, Nat.shiftRight_eq_div_pow]
  have := a.isLt
  omega

/-- The base of a word access is even and inside the window, so both bytes exist. -/
theorem wordBase_lt (a : DmaAddr) : wordBase a + 1 < 0x200000 := by
  unfold wordBase
  rw [mask_toNat]
  have := a.isLt
  omega

theorem wordBase_even (a : DmaAddr) : wordBase a % 2 = 0 := by
  unfold wordBase
  rw [mask_toNat]
  omega

@[simp] theorem readWord_writeWord_same (m : Memory) (a : DmaAddr) (v : Word) : readWord (writeWord m a v) a = v := by
  unfold readWord writeWord
  rw [readByte_writeByte_ne _ _ (by omega), readByte_writeByte_same, readByte_writeByte_same, word_of_its_bytes]

/-- A word write leaves every byte outside its two alone. -/
theorem readByte_writeWord_ne (m : Memory) (a : DmaAddr) (v : Word) {x : Nat}
    (h0 : x ≠ wordBase a) (h1 : x ≠ wordBase a + 1) : readByte (writeWord m a v) x = readByte m x := by
  unfold writeWord
  rw [readByte_writeByte_ne _ _ h1, readByte_writeByte_ne _ _ h0]

/-! ## The canonical form -/

theorem wfFrom_mono {m : Memory} {lo lo' : Nat} (h : lo' ≤ lo) (hw : wfFrom lo m = true) : wfFrom lo' m = true := by
  cases m with
  | nil => rfl
  | cons c rest =>
    simp only [wfFrom, Bool.and_eq_true, decide_eq_true_eq] at hw ⊢
    exact ⟨⟨by omega, hw.1.2⟩, hw.2⟩

theorem wfFrom_writeByte {m : Memory} {lo x : Nat} (v : Byte) (hw : wfFrom lo m = true) (hlo : lo ≤ x)
    (hx : x < 0x200000) : wfFrom lo (writeByte m x v) = true := by
  induction m generalizing lo with
  | nil => simp [writeByte, wfFrom, hlo, hx]
  | cons c rest ih =>
    obtain ⟨a, b⟩ := c
    simp only [wfFrom, Bool.and_eq_true, decide_eq_true_eq] at hw
    obtain ⟨⟨ha, hb⟩, hr⟩ := hw
    simp only [writeByte]
    split
    · simp [wfFrom, hlo, hx, hb, hr]
      omega
    · split
      · rename_i hxa
        subst hxa
        simp [wfFrom, hlo, hx, hr]
      · simp only [wfFrom, Bool.and_eq_true, decide_eq_true_eq]
        exact ⟨⟨ha, hb⟩, ih hr (by omega)⟩

/-- Writing a byte keeps the canonical form. -/
theorem wf_writeByte {m : Memory} {x : Nat} (v : Byte) (hw : wf m = true) (hx : x < 0x200000) :
    wf (writeByte m x v) = true :=
  wfFrom_writeByte v hw (Nat.zero_le x) hx

/-- Writing a word keeps the canonical form, at any address. -/
theorem wf_writeWord {m : Memory} (a : DmaAddr) (v : Word) (hw : wf m = true) : wf (writeWord m a v) = true := by
  have h := wordBase_lt a
  exact wf_writeByte _ (wf_writeByte _ hw (by omega)) h

theorem wf_reset : wf State.reset.mem = true := rfl

end Sys2Proof.Machine.Memory
end

