-- ==== Sys2Proof/Laws/Encoding.lean ====
section
/-! SUPPORT. The words of a command block in numbers, and the fields read back from them. -/

namespace Sys2Proof

/-- Concatenation in numbers. -/
theorem append_toNat {n m : Nat} (x : BitVec n) (y : BitVec m) :
    (x ++ y).toNat = x.toNat * 2 ^ m + y.toNat := by
  rw [BitVec.toNat_append, ← Nat.shiftLeft_add_eq_or_of_lt y.isLt, Nat.shiftLeft_eq]

/-- A field of a word in numbers. -/
theorem field_toNat {n : Nat} (x : BitVec n) (lo len : Nat) :
    (x.extractLsb' lo len).toNat = x.toNat / 2 ^ lo % 2 ^ len := by
  rw [BitVec.extractLsb'_toNat, Nat.shiftRight_eq_div_pow]

/-- `w1` in numbers (30_encoding.md R60). -/
theorem wordsOfBlock_w1 (code : BitVec 3) (b : CommandBlock) : (wordsOfBlock code b).w1.toNat =
    ((((b.ext.toNat * 4 + b.strobe.toNat) * 2 + b.ti.toNat) * 8 + code.toNat) * 4 + b.offset.toNat) * 64 +
      b.head.toNat := by
  change BitVec.toNat (w := 2 + 2 + 1 + 3 + 2 + 6)
    (b.ext ++ b.strobe ++ BitVec.ofBool b.ti ++ code ++ b.offset ++ b.head) = _
  simp only [append_toNat, BitVec.toNat_ofBool]
  omega

/-- `w2` in numbers (30_encoding.md R60). -/
theorem wordsOfBlock_w2 (code : BitVec 3) (b : CommandBlock) :
    (wordsOfBlock code b).w2.toNat = b.recordCount.toNat * 256 + b.sector.toNat := by
  change BitVec.toNat (w := 8 + 8) (b.recordCount ++ b.sector) = _
  simp only [append_toNat]
  omega

/-- `w6` in numbers (30_encoding.md R60). -/
theorem wordsOfBlock_w6 (code : BitVec 3) (b : CommandBlock) : (wordsOfBlock code b).w6.toNat =
    ((b.selHigh.toNat * 16 + b.sel.toNat) * 8 + b.dmaSpare.toNat) * 32 + b.dmaHi.toNat := by
  change BitVec.toNat (w := 4 + 4 + 3 + 5) (b.selHigh ++ b.sel ++ b.dmaSpare ++ b.dmaHi) = _
  simp only [append_toNat]
  omega

/-- The twelve bytes are read back as the six words. -/
theorem decode_bytesOfBlock (ws : BlockWords) : decode (bytesOfBlock ws) = .ok (decodeBlock ws) := by
  cases ws
  simp [bytesOfBlock, decode]

end Sys2Proof
end

