-- ==== Sys2Proof/Laws/Store.lean ====
section
/-! SUPPORT. The laws of backing stores: what a seek, a read and a write do, in general and for the reference store. -/

namespace Sys2Proof.BackingStore

open Sys2Proof.Machine

/-! ## Seek, read -/

/-- A successful seek sets the position and changes no content; a failed one changes no content either. -/
@[simp] theorem seek_data (st : BackingStore) (pos : Nat) : (st.seek pos).2.data = st.data := by
  unfold seek
  split <;> rfl

theorem seek_pos_of_ok (st : BackingStore) (pos : Nat) (h : (st.seek pos).1 = true) : (st.seek pos).2.pos = pos := by
  unfold seek at h ⊢
  split <;> simp_all

@[simp] theorem seek_reference (st : BackingStore) (pos : Nat) (h : st.seekPlan = []) :
    st.seek pos = (true, { st with pos := pos }) := by
  simp [seek, h]

@[simp] theorem read_data (st : BackingStore) (n : Nat) : (st.read n).2.data = st.data := rfl

/-- A read delivers at most what was asked (45_unit_management.md R130). -/
theorem readBytes_length_le (st : BackingStore) (n : Nat) : (st.readBytes n).length ≤ n := by
  have h : st.readLimit n ≤ n := by
    unfold readLimit
    split <;> omega
  simp [readBytes]
  omega

/-- The reference store's read is short exactly at the end of the data (45_unit_management.md R132). -/
theorem readBytes_reference (st : BackingStore) (n : Nat) (h : st.readPlan = []) :
    st.readBytes n = (st.data.drop st.pos).take n := by
  simp [readBytes, readLimit, h]

/-! ## Write -/

theorem acceptedCount_le (st : BackingStore) (n : Nat) : st.acceptedCount n ≤ n := by
  unfold acceptedCount
  omega

/-- What a write puts is never longer than what was offered. -/
theorem writtenBytes_length_le (st : BackingStore) (bytes : List Byte) :
    (st.writtenBytes bytes).length ≤ bytes.length := by
  have := st.acceptedCount_le bytes.length
  simp [writtenBytes]
  omega

/-- A write that is not short puts exactly the bytes offered. -/
theorem writtenBytes_of_full (st : BackingStore) (bytes : List Byte) (h : (st.write bytes).1 = bytes.length) :
    st.writtenBytes bytes = bytes := by
  have h' : st.acceptedCount bytes.length = bytes.length := h
  simp [writtenBytes, h']

/-- The reference store accepts everything (45_unit_management.md R132). -/
theorem write_reference (st : BackingStore) (bytes : List Byte) (h : st.writePlan = []) :
    st.write bytes = (bytes.length, { st with data := overwrite st.data st.pos bytes, pos := st.pos + bytes.length }) := by
  simp [write, writtenBytes, acceptedCount, writeAnswer, h]

/-! ## Content after a write -/

/-- A byte before the written bytes keeps its value. -/
theorem overwrite_before (data bytes : List Byte) {pos i : Nat} (h : i < pos) (hi : i < data.length) :
    (overwrite data pos bytes)[i]? = data[i]? := by
  unfold overwrite
  split
  · rfl
  · rw [List.append_assoc, List.append_assoc, List.getElem?_append_left (by simp; omega)]
    simp [h]

/-- The written bytes stand where they were written. -/
theorem overwrite_at (data bytes : List Byte) (pos : Nat) {i : Nat} (hi : i < bytes.length) :
    (overwrite data pos bytes)[pos + i]? = bytes[i]? := by
  have hp : (data.take pos ++ List.replicate (pos - data.length) 0#8).length = pos := by
    simp
    omega
  unfold overwrite
  split
  · simp at hi
  · rw [List.append_assoc _ bytes, List.getElem?_append_right (by omega), hp, Nat.add_sub_cancel_left,
      List.getElem?_append_left hi]

/-- A byte after the written bytes keeps its value. -/
theorem overwrite_after (data bytes : List Byte) {pos i : Nat} (h : pos + bytes.length ≤ i) :
    (overwrite data pos bytes)[i]? = data[i]? := by
  have hp : (data.take pos ++ List.replicate (pos - data.length) 0#8).length = pos := by
    simp
    omega
  unfold overwrite
  split
  · rfl
  · rw [List.getElem?_append_right (by simp only [List.length_append] at *; omega), List.getElem?_drop]
    congr 1
    simp only [List.length_append] at *
    omega

/-- Two adjacent writes are one. -/
theorem overwrite_append (data : List Byte) (pos : Nat) (xs ys : List Byte) :
    overwrite (overwrite data pos xs) (pos + xs.length) ys = overwrite data pos (xs ++ ys) := by
  have hp : (data.take pos ++ List.replicate (pos - data.length) 0#8).length = pos := by
    simp
    omega
  cases xs with
  | nil => simp [overwrite]
  | cons x xs =>
    cases ys with
    | nil => simp [overwrite]
    | cons y ys =>
      simp only [overwrite, List.cons_append]
      generalize data.take pos ++ List.replicate (pos - data.length) 0#8 = P at hp ⊢
      have hlen : (P ++ x :: xs).length = pos + (x :: xs).length := by simp [hp]
      have htake : ((P ++ x :: xs) ++ data.drop (pos + (x :: xs).length)).take (pos + (x :: xs).length) = P ++ x :: xs := by
        rw [← hlen, List.take_left]
      have hdrop : ((P ++ x :: xs) ++ data.drop (pos + (x :: xs).length)).drop
          (pos + (x :: xs).length + (y :: ys).length) = data.drop (pos + (x :: xs).length + (y :: ys).length) := by
        rw [← hlen, List.drop_append, List.drop_of_length_le (by omega), hlen, List.drop_drop]
        simp
      have hz : pos + (x :: xs).length - ((P ++ x :: xs) ++ data.drop (pos + (x :: xs).length)).length = 0 := by
        simp only [List.length_append] at *
        omega
      rw [htake, hdrop, hz]
      simp [Nat.add_assoc, Nat.add_comm, Nat.add_left_comm]

end Sys2Proof.BackingStore
end

