-- ==== Sys2Proof/Laws/Ops.lean ====
section
/-! SUPPORT. One lemma per shared operation: what it can do and what it leaves, cited instead of unfolding. -/

namespace Sys2Proof.Machine

/-! ## What the inside of a command may change -/

theorem SameGeometry.refl (u : DiskUnit) : SameGeometry u u := ⟨rfl, rfl, rfl, rfl, rfl, rfl⟩

theorem SameGeometry.trans {u v w : DiskUnit} (h : SameGeometry u v) (g : SameGeometry v w) : SameGeometry u w :=
  ⟨g.1.trans h.1, g.2.trans h.2, g.3.trans h.3, g.4.trans h.4, g.5.trans h.5, g.6.trans h.6⟩

/-- The frame of the inside of a command on unit `k`: registers, line, configuration, queue and reply stay, every other
unit stays, unit `k` stays the same drive, memory keeps its canonical form, the running DMA address stays even, the
sector buffer keeps its length for a sector that fits. -/
structure Frame (k : UnitId) (s t : State) : Prop where
  cfg : t.cfg = s.cfg
  regs : t.regs = s.regs
  level : t.intLevel = s.intLevel
  reply : t.reply = s.reply
  pending : t.pending = s.pending
  others : ∀ j, j ≠ k → t.unit j = s.unit j
  drive : SameGeometry (s.unit k) (t.unit k)
  mem : s.mem.wf = true → t.mem.wf = true
  dma : s.xfer.dma.getLsbD 0 = false → t.xfer.dma.getLsbD 0 = false
  buffer : (s.unit k).bytesPerSector.toNat ≤ Config.maxSectorSize →
    s.xfer.buffer.length = Config.maxSectorSize → t.xfer.buffer.length = Config.maxSectorSize

theorem Frame.refl (k : UnitId) (s : State) : Frame k s s :=
  ⟨rfl, rfl, rfl, rfl, rfl, fun _ _ => rfl, SameGeometry.refl _, id, id, fun _ => id⟩

theorem Frame.trans {k : UnitId} {s t u : State} (h : Frame k s t) (g : Frame k t u) : Frame k s u :=
  ⟨g.cfg.trans h.cfg, g.regs.trans h.regs, g.level.trans h.level, g.reply.trans h.reply,
    g.pending.trans h.pending, fun j hj => (g.others j hj).trans (h.others j hj), h.drive.trans g.drive,
    fun hm => g.mem (h.mem hm), fun hd => g.dma (h.dma hd),
    fun hb hl => g.buffer (by rw [h.drive.bytesPerSector]; exact hb) (h.buffer hb hl)⟩

/-- Emitting an event changes nothing but the trace. -/
theorem Frame.emit (k : UnitId) (s : State) (e : Event) : Frame k s (s.emit e) :=
  ⟨rfl, rfl, rfl, rfl, rfl, fun _ _ => rfl, SameGeometry.refl _, id, id, fun _ => id⟩

/-- A change of the transient state that keeps the DMA address even and the sector buffer's length. -/
theorem Frame.withXfer (k : UnitId) (s : State) (x : Transfer)
    (h : s.xfer.dma.getLsbD 0 = false → x.dma.getLsbD 0 = false)
    (hb : (s.unit k).bytesPerSector.toNat ≤ Config.maxSectorSize →
      s.xfer.buffer.length = Config.maxSectorSize → x.buffer.length = Config.maxSectorSize) :
    Frame k s (s.withXfer x) :=
  ⟨rfl, rfl, rfl, rfl, rfl, fun _ _ => rfl, SameGeometry.refl _, id, h, hb⟩

theorem Frame.setStore (k : UnitId) (s : State) (st : BackingStore)
    (h : (s.unit k).backingStore.isSome = true) : Frame k s (s.setStore k st) := by
  refine ⟨rfl, rfl, rfl, rfl, rfl, fun j hj => State.unit_setStore_ne s st hj, ?_, id, id, fun _ => id⟩
  rw [State.unit_setStore_same]
  exact ⟨rfl, rfl, rfl, rfl, rfl, by simp [h]⟩

theorem Frame.clearUnsafe (k : UnitId) (s : State) : Frame k s (clearUnsafe k s) := by
  refine ⟨rfl, rfl, rfl, rfl, rfl, fun j hj => State.unit_setUnit_ne s _ hj, ?_, id, id, fun _ => id⟩
  unfold Sys2Proof.Machine.clearUnsafe
  rw [State.unit_setUnit_same]
  exact ⟨rfl, rfl, rfl, rfl, rfl, rfl⟩

/-! ## The DMA engine -/

theorem nextDma_even (a : DmaAddr) : (nextDma a).getLsbD 0 = false := by
  unfold nextDma
  rw [BitVec.getLsbD_and, Memory.dmaMask_getLsbD 0 (by decide)]
  simp

theorem dmaAddress_even (b : CommandBlock) : (dmaAddress b).getLsbD 0 = false := by
  unfold dmaAddress
  rw [BitVec.getLsbD_and, Memory.dmaMask_getLsbD 0 (by decide)]
  simp

/-- The advance in numbers: two bytes on, wrapping at the top of the window (42_geometry_dma.md R104). -/
theorem nextDma_toNat {a : DmaAddr} (h : a.getLsbD 0 = false) : (nextDma a).toNat = (a.toNat + 2) % 0x200000 := by
  have he : a.toNat % 2 = 0 := by
    rw [BitVec.getLsbD, Nat.testBit_zero] at h
    simpa using h
  have := a.isLt
  unfold nextDma
  rw [Memory.mask_toNat, BitVec.toNat_add]
  simp
  omega

theorem dmaWriteWord_frame (k : UnitId) (v : Word) (s : State) : Frame k s (dmaWriteWord v s) :=
  ⟨rfl, rfl, rfl, rfl, rfl, fun _ _ => rfl, SameGeometry.refl _, fun h => Memory.wf_writeWord _ _ h,
    fun _ => nextDma_even _, fun _ => id⟩

theorem dmaWriteWords_frame (k : UnitId) (vs : List Word) (s : State) : Frame k s (dmaWriteWords vs s) := by
  induction vs generalizing s with
  | nil => exact Frame.refl k s
  | cons v vs ih => exact (dmaWriteWord_frame k v s).trans (ih _)

/-- DMA writes touch no unit. -/
@[simp] theorem dmaWriteWords_units (vs : List Word) (s : State) : (dmaWriteWords vs s).units = s.units := by
  induction vs generalizing s with
  | nil => rfl
  | cons v vs ih => exact ih _

@[simp] theorem dmaReadWord_frame (k : UnitId) (s : State) : Frame k s (dmaReadWord s).2 :=
  (Frame.withXfer k s { s.xfer with dma := nextDma s.xfer.dma } (fun _ => nextDma_even _) fun _ => id).trans
    (Frame.emit k _ _)

theorem dmaReadWords_frame (k : UnitId) (n : Nat) (s : State) : Frame k s (dmaReadWords n s).2 := by
  induction n generalizing s with
  | zero => exact Frame.refl k s
  | succ n ih => exact (dmaReadWord_frame k s).trans (ih _)

/-- DMA reads touch neither memory nor a unit. -/
@[simp] theorem dmaReadWords_mem (n : Nat) (s : State) : (dmaReadWords n s).2.mem = s.mem := by
  induction n generalizing s with
  | zero => rfl
  | succ n ih => exact ih _

@[simp] theorem dmaReadWords_units (n : Nat) (s : State) : (dmaReadWords n s).2.units = s.units := by
  induction n generalizing s with
  | zero => rfl
  | succ n ih => exact ih _

@[simp] theorem dmaReadWords_length (n : Nat) (s : State) : (dmaReadWords n s).1.length = n := by
  induction n generalizing s with
  | zero => rfl
  | succ n ih => simp [dmaReadWords, ih]

@[simp] theorem unpackWords_length (vs : List Word) : (unpackWords vs).length = 2 * vs.length := by
  induction vs with
  | nil => rfl
  | cons v vs ih =>
    simp [unpackWords, ih]
    omega

/-- Packing undoes unpacking (42_geometry_dma.md R105, R106). -/
@[simp] theorem packWords_unpackWords (vs : List Word) : packWords (unpackWords vs) = vs := by
  induction vs with
  | nil => rfl
  | cons v vs ih => simp [unpackWords, packWords, ih]

/-! ## Backing stores -/

/-- The general frame of the three store operations on unit `k`. -/
theorem storeSeek_frame (k : UnitId) (pos : Nat) (s : State) : Frame k s (storeSeek k pos s).2 := by
  unfold storeSeek
  split
  · exact Frame.refl k s
  · rename_i st h
    exact (Frame.setStore k s _ (by simp [h])).trans (Frame.emit k _ _)

theorem storeRead_frame (k : UnitId) (n : Nat) (s : State) : Frame k s (storeRead k n s).2 := by
  unfold storeRead
  split
  · exact Frame.refl k s
  · rename_i st h
    exact (Frame.setStore k s _ (by simp [h])).trans (Frame.emit k _ _)

theorem storeWrite_frame (k : UnitId) (bytes : List Byte) (s : State) : Frame k s (storeWrite k bytes s).2 := by
  unfold storeWrite
  split
  · exact Frame.refl k s
  · rename_i st h
    exact (Frame.setStore k s _ (by simp [h])).trans (Frame.emit k _ _)

theorem storeSeek_of_some {k : UnitId} {s : State} {st : BackingStore} (h : (s.unit k).backingStore = some st)
    (pos : Nat) :
    storeSeek k pos s = ((st.seek pos).1, (s.setStore k (st.seek pos).2).emit (.storeSeek k pos (st.seek pos).1)) := by
  simp [storeSeek, h]

theorem storeRead_of_some {k : UnitId} {s : State} {st : BackingStore} (h : (s.unit k).backingStore = some st)
    (n : Nat) :
    storeRead k n s = ((st.read n).1, (s.setStore k (st.read n).2).emit (.storeRead k n (st.read n).1.length)) := by
  simp [storeRead, h]

theorem storeWrite_of_some {k : UnitId} {s : State} {st : BackingStore} (h : (s.unit k).backingStore = some st)
    (bytes : List Byte) :
    storeWrite k bytes s = ((st.write bytes).1,
      (s.setStore k (st.write bytes).2).emit (.storeWrite k bytes.length (st.write bytes).1)) := by
  simp [storeWrite, h]

/-- A store read delivers at most what was asked. -/
theorem storeRead_length_le (k : UnitId) (n : Nat) (s : State) : (storeRead k n s).1.length ≤ n := by
  unfold storeRead
  split
  · simp
  · exact BackingStore.readBytes_length_le _ n

/-- The store operations touch no memory. -/
@[simp] theorem storeSeek_mem (k : UnitId) (pos : Nat) (s : State) : (storeSeek k pos s).2.mem = s.mem := by
  unfold storeSeek
  split <;> rfl

@[simp] theorem storeRead_mem (k : UnitId) (n : Nat) (s : State) : (storeRead k n s).2.mem = s.mem := by
  unfold storeRead
  split <;> rfl

@[simp] theorem storeWrite_mem (k : UnitId) (bytes : List Byte) (s : State) :
    (storeWrite k bytes s).2.mem = s.mem := by
  unfold storeWrite
  split <;> rfl

/-! ## The arbiter, entry and completion -/

@[simp] theorem driveSink_cfg (s : State) : (driveSink s).cfg = s.cfg := rfl
@[simp] theorem driveSink_regs (s : State) : (driveSink s).regs = s.regs := rfl
@[simp] theorem driveSink_units (s : State) : (driveSink s).units = s.units := rfl
@[simp] theorem driveSink_unit (s : State) (k : UnitId) : (driveSink s).unit k = s.unit k := rfl
@[simp] theorem driveSink_intLevel (s : State) : (driveSink s).intLevel = arbiterLevel s.regs.w0 s.regs.w7 := rfl
@[simp] theorem driveSink_xfer (s : State) : (driveSink s).xfer = s.xfer := rfl
@[simp] theorem driveSink_mem (s : State) : (driveSink s).mem = s.mem := rfl
@[simp] theorem driveSink_reply (s : State) : (driveSink s).reply = s.reply := rfl
@[simp] theorem driveSink_pending (s : State) : (driveSink s).pending = s.pending := rfl
@[simp] theorem driveSink_trace (s : State) :
    (driveSink s).trace = .sink (arbiterLevel s.regs.w0 s.regs.w7) :: s.trace := rfl

@[simp] theorem enterCommand_regs (s : State) :
    (enterCommand s).regs = { s.regs with w0 := s.regs.w0 &&& 0x00FF#16 } := rfl
@[simp] theorem enterCommand_cfg (s : State) : (enterCommand s).cfg = s.cfg := rfl
@[simp] theorem enterCommand_unit (s : State) (k : UnitId) : (enterCommand s).unit k = s.unit k := rfl
@[simp] theorem enterCommand_units (s : State) : (enterCommand s).units = s.units := rfl
@[simp] theorem enterCommand_intLevel (s : State) : (enterCommand s).intLevel = s.intLevel := rfl
@[simp] theorem enterCommand_xfer (s : State) : (enterCommand s).xfer = s.xfer := rfl
@[simp] theorem enterCommand_mem (s : State) : (enterCommand s).mem = s.mem := rfl
@[simp] theorem enterCommand_reply (s : State) : (enterCommand s).reply = s.reply := rfl
@[simp] theorem enterCommand_trace (s : State) : (enterCommand s).trace = s.trace := rfl
@[simp] theorem enterCommand_pending (s : State) : (enterCommand s).pending = s.pending := rfl

@[simp] theorem complete_regs (o : CmdOutcome) (s : State) :
    (complete o s).regs = { s.regs with w0 := s.regs.w0 ||| o.status, w7 := s.regs.w7 ||| maskIdle ||| o.detail } := rfl
@[simp] theorem complete_cfg (o : CmdOutcome) (s : State) : (complete o s).cfg = s.cfg := rfl
@[simp] theorem complete_unit (o : CmdOutcome) (s : State) (k : UnitId) : (complete o s).unit k = s.unit k := rfl
@[simp] theorem complete_units (o : CmdOutcome) (s : State) : (complete o s).units = s.units := rfl
@[simp] theorem complete_xfer (o : CmdOutcome) (s : State) : (complete o s).xfer = s.xfer := rfl
@[simp] theorem complete_mem (o : CmdOutcome) (s : State) : (complete o s).mem = s.mem := rfl
@[simp] theorem complete_reply (o : CmdOutcome) (s : State) : (complete o s).reply = s.reply := rfl
@[simp] theorem complete_pending (o : CmdOutcome) (s : State) : (complete o s).pending = s.pending := rfl
@[simp] theorem complete_intLevel (o : CmdOutcome) (s : State) :
    (complete o s).intLevel =
      arbiterLevel (s.regs.w0 ||| o.status) (s.regs.w7 ||| maskIdle ||| o.detail) := rfl
@[simp] theorem complete_trace (o : CmdOutcome) (s : State) :
    (complete o s).trace =
      .sink (arbiterLevel (s.regs.w0 ||| o.status) (s.regs.w7 ||| maskIdle ||| o.detail)) :: s.trace := rfl

/-- A handler that answers a next state ended with an outcome. -/
theorem Handler.finish_next {h : Handler} {t : State} (he : h.finish = .next t) :
    ∃ o s, h = .ended o s ∧ t = complete o s := by
  cases h with
  | ended o s =>
    simp only [Handler.finish, Host.Outcome.next.injEq] at he
    exact ⟨o, s, rfl, he.symm⟩
  | noMeaning r => simp [Handler.finish] at he

/-! ## Preconditions, the validator, the seek -/

theorem requireUnit_none {b : CommandBlock} {s : State} {body : UnitId → Handler}
    (h : currentUnit s.cfg.maxUnits b.sel = none) : requireUnit b s body = .ended .noUnitSelected s := by
  simp [requireUnit, h]

theorem requireUnit_some {b : CommandBlock} {s : State} {body : UnitId → Handler} {k : UnitId}
    (h : currentUnit s.cfg.maxUnits b.sel = some k) : requireUnit b s body = body k := by
  simp [requireUnit, h]

theorem requireOnline_ok {k : UnitId} {s : State} {body : Handler} (h : (s.unit k).backingStore.isSome = true) :
    requireOnline k s body = body := by
  cases hs : (s.unit k).backingStore <;> simp_all [requireOnline]

theorem requireSafe_ok {k : UnitId} {s : State} {body : Handler} (h : (s.unit k).unsafeFlag = false) :
    requireSafe k s body = body := by
  simp [requireSafe, h]

theorem requireWritable_ok {k : UnitId} {s : State} {body : Handler} (h : (s.unit k).writeProtected = false) :
    requireWritable k s body = body := by
  simp [requireWritable, h]

/-- An address is valid exactly when no coordinate exceeds its count (42_geometry_dma.md R97, R98). -/
theorem validate_eq_none_iff (u : DiskUnit) (c h s : Nat) :
    validate u c h s = none ↔
      c ≤ u.cylinders.toNat ∧ h ≤ u.heads.toNat ∧ s ≤ u.sectorsPerTrack.toNat := by
  unfold validate
  split <;> try (split <;> try split)
  all_goals
    simp
    omega

/-- The validator raises one of its three outcomes only. -/
theorem validate_cases {u : DiskUnit} {c h s : Nat} {o : CmdOutcome} (hv : validate u c h s = some o) :
    o = .cylinderOutOfRange ∨ o = .headOutOfRange ∨ (o = .sectorOutOfRange ∧ u.sectorsPerTrack.toNat < s) := by
  unfold validate at hv
  split at hv
  · simp_all
  · split at hv
    · simp_all
    · split at hv
      · rename_i hs
        simp only [Option.some.injEq] at hv
        exact .inr (.inr ⟨hv.symm, hs⟩)
      · simp at hv

/-- What a seek can do: end offline, end by the validator, end with a failed reposition, or go on with the store
repositioned. -/
theorem seekUnit_cases (k : UnitId) (c h sec : Nat) (s : State) (body : State → Handler) :
    ((s.unit k).backingStore = none ∧ seekUnit k c h sec s body = .ended .unitOffline s) ∨
    (∃ o, validate (s.unit k) c h sec = some o ∧ seekUnit k c h sec s body = .ended o s) ∨
    (∃ t, Frame k s t ∧ seekUnit k c h sec s body = .ended .seekFailed t) ∨
    (∃ t, Frame k s t ∧ validate (s.unit k) c h sec = none ∧ seekUnit k c h sec s body = body t) := by
  unfold seekUnit
  cases hs : (s.unit k).backingStore with
  | none => exact .inl ⟨rfl, rfl⟩
  | some st =>
    cases hv : validate (s.unit k) c h sec with
    | some o => exact .inr (.inl ⟨o, rfl, rfl⟩)
    | none =>
      by_cases hk : (storeSeek k (bytePosition (s.unit k) c h sec) s).1 = true
      · exact .inr (.inr (.inr ⟨_, storeSeek_frame k (bytePosition (s.unit k) c h sec) s, rfl, by simp [hk]⟩))
      · exact .inr (.inr (.inl ⟨_, storeSeek_frame k (bytePosition (s.unit k) c h sec) s, by simp [hk]⟩))

/-- A seek on the reference store goes on at the computed position (42_geometry_dma.md R99, R100). -/
theorem seekUnit_reference {k : UnitId} {c h sec : Nat} {s : State} {st : BackingStore} {body : State → Handler}
    (hs : (s.unit k).backingStore = some st) (hp : st.seekPlan = [])
    (hv : validate (s.unit k) c h sec = none) :
    seekUnit k c h sec s body =
      body ((s.setStore k { st with pos := bytePosition (s.unit k) c h sec }).emit
        (.storeSeek k (bytePosition (s.unit k) c h sec) true)) := by
  unfold seekUnit
  rw [storeSeek_of_some hs, BackingStore.seek_reference st _ hp]
  simp [hs, hv]

/-! ## Transient state -/

theorem takeOperands_frame (b : CommandBlock) (k : UnitId) (s : State) : Frame k s (takeOperands b k s) :=
  Frame.withXfer k s _ id fun _ => id

theorem takeDma_frame (k : UnitId) (b : CommandBlock) (s : State) : Frame k s (takeDma b s) :=
  Frame.withXfer k s _ (fun _ => dmaAddress_even b) fun _ => id

theorem takeAddress_frame (k : UnitId) (b : CommandBlock) (s : State) : Frame k s (takeAddress b s) :=
  Frame.withXfer k s _ id fun _ => id

theorem fillBuffer_length {buffer bytes : List Byte} (h : bytes.length ≤ buffer.length) :
    (fillBuffer buffer bytes).length = buffer.length := by
  simp [fillBuffer]
  omega

/-- Loading the sector buffer with no more than it holds. -/
theorem loadBuffer_frame (k : UnitId) (bytes : List Byte) (s : State)
    (h : (s.unit k).bytesPerSector.toNat ≤ Config.maxSectorSize → bytes.length ≤ Config.maxSectorSize) :
    Frame k s (loadBuffer bytes s) :=
  Frame.withXfer k s _ id fun hb hl => by
    rw [fillBuffer_length (by rw [hl]; exact h hb), hl]

/-- The advance changes only the counters. -/
@[simp] theorem advanceChs_dma (u : DiskUnit) (x : Transfer) : (advanceChs u x).dma = x.dma := by
  unfold advanceChs
  split
  · split <;> rfl
  · rfl

@[simp] theorem advanceChs_remaining (u : DiskUnit) (x : Transfer) : (advanceChs u x).remaining = x.remaining := by
  unfold advanceChs
  split
  · split <;> rfl
  · rfl

@[simp] theorem advanceChs_buffer (u : DiskUnit) (x : Transfer) : (advanceChs u x).buffer = x.buffer := by
  unfold advanceChs
  split
  · split <;> rfl
  · rfl

theorem nextSector_frame (k : UnitId) (n : Nat) (s : State) : Frame k s (nextSector k n s) :=
  Frame.withXfer k s _ (fun h => by simpa using h) fun _ h => by simpa using h

/-- An iteration's end lowers the remaining count by what was moved (42_geometry_dma.md R111). -/
@[simp] theorem nextSector_remaining (k : UnitId) (n : Nat) (s : State) :
    (nextSector k n s).xfer.remaining = s.xfer.remaining - n := by
  simp [nextSector]

/-! ## Iterations and the loop -/

/-- How an iteration went, and with what state. -/
def Iteration.state : Iteration → State
  | .again s => s
  | .stop _ s => s

/-- The bytes of one iteration fit a sector. -/
theorem chunk_le (k : UnitId) (s : State) : chunk k s ≤ (s.unit k).bytesPerSector.toNat := Nat.min_le_right _ _

theorem readSector_frame (k : UnitId) (ti : Bool) (s : State) : Frame k s (readSector k ti s).state := by
  have hs := storeRead_frame k (chunk k s) s
  have hr := hs.trans (loadBuffer_frame k (storeRead k (chunk k s) s).1 _ fun hb => by
    have h1 := storeRead_length_le k (chunk k s) s
    have h2 := chunk_le k s
    rw [hs.drive.bytesPerSector] at hb
    omega)
  unfold readSector
  split
  · exact Frame.refl k s
  · dsimp only
    split
    · refine hr.trans (Frame.trans ?_ (nextSector_frame k _ _))
      split
      · exact Frame.refl k _
      · exact dmaWriteWords_frame k _ _
    · exact hr

/-- A padded sector has the sector's length. -/
theorem paddedSector_length {size : Nat} {bytes : List Byte} (h : bytes.length ≤ size) :
    (paddedSector size bytes).length = size := by
  simp [paddedSector]
  omega

/-- The bytes Write Data fetches fit a sector. -/
theorem fetched_length_le (k : UnitId) (s : State) :
    (unpackWords (dmaReadWords (chunk k s / 2) s).1).length ≤ (s.unit k).bytesPerSector.toNat := by
  have := chunk_le k s
  simp
  omega

theorem writeSector_frame (k : UnitId) (s : State) : Frame k s (writeSector k s).state := by
  have hr := dmaReadWords_frame k (chunk k s / 2) s
  have hl := hr.trans (loadBuffer_frame k
    (paddedSector (s.unit k).bytesPerSector.toNat (unpackWords (dmaReadWords (chunk k s / 2) s).1)) _ fun hb => by
      rw [paddedSector_length (fetched_length_le k s)]
      rw [hr.drive.bytesPerSector] at hb
      exact hb)
  unfold writeSector
  split
  · exact Frame.refl k s
  · dsimp only
    split
    · exact (hl.trans (storeWrite_frame k _ _)).trans (nextSector_frame k _ _)
    · exact hl.trans (storeWrite_frame k _ _)

/-- How an iteration of Read Data can stop. -/
theorem readSector_stop {k : UnitId} {ti : Bool} {s t : State} {o : CmdOutcome} (h : readSector k ti s = .stop o t) :
    o = .cylinderOutOfRange ∨ o = .shortRead := by
  unfold readSector at h
  split at h
  · simp_all
  · dsimp only at h
    split at h <;> simp_all

/-- How an iteration of Write Data can stop. -/
theorem writeSector_stop {k : UnitId} {s t : State} {o : CmdOutcome} (h : writeSector k s = .stop o t) :
    o = .cylinderOutOfRange ∨ o = .shortWrite := by
  unfold writeSector at h
  split at h
  · simp_all
  · dsimp only at h
    split at h <;> simp_all

/-- The loop ends with success or with what an iteration stops with; whatever relation every iteration keeps (and
composes) holds from its start to its end. -/
theorem sectorLoop_ended {body : State → Iteration} {R : State → State → Prop} (hrefl : ∀ s, R s s)
    (htrans : ∀ s t u, R s t → R t u → R s u) (hbody : ∀ s, R s (body s).state) {fuel : Nat} {s t : State}
    {o : CmdOutcome} (h : sectorLoop body fuel s = .ended o t) :
    R s t ∧ (o = .success ∨ ∃ a b, body a = .stop o b) := by
  induction fuel generalizing s with
  | zero =>
    simp only [sectorLoop, Handler.ended.injEq] at h
    obtain ⟨rfl, rfl⟩ := h
    exact ⟨hrefl s, .inl rfl⟩
  | succ fuel ih =>
    simp only [sectorLoop] at h
    split at h
    · simp only [Handler.ended.injEq] at h
      obtain ⟨rfl, rfl⟩ := h
      exact ⟨hrefl s, .inl rfl⟩
    · have hs := hbody s
      split at h
      · rename_i o' s1 hb
        simp only [Handler.ended.injEq] at h
        obtain ⟨rfl, rfl⟩ := h
        rw [hb] at hs
        exact ⟨hs, .inr ⟨_, _, hb⟩⟩
      · rename_i s1 hb
        rw [hb] at hs
        exact ⟨htrans _ _ _ hs (ih h).1, (ih h).2⟩

/-- The loop never ends without a meaning. -/
theorem sectorLoop_never_refuses (body : State → Iteration) (fuel : Nat) (s : State) (r : Refusal) :
    sectorLoop body fuel s ≠ .noMeaning r := by
  induction fuel generalizing s with
  | zero => simp [sectorLoop]
  | succ fuel ih =>
    simp only [sectorLoop]
    split
    · simp
    · split
      · simp
      · exact ih _

/-- Write Format's loop: the frame, and its two ways to end. -/
theorem formatSectors_ended {k : UnitId} {n : Nat} {s t : State} {o : CmdOutcome}
    (h : formatSectors k n s = .ended o t) : Frame k s t ∧ (o = .success ∨ o = .shortWrite) := by
  induction n generalizing s with
  | zero =>
    simp only [formatSectors, Handler.ended.injEq] at h
    obtain ⟨rfl, rfl⟩ := h
    exact ⟨Frame.refl k s, .inl rfl⟩
  | succ n ih =>
    simp only [formatSectors] at h
    split at h
    · exact ⟨(storeWrite_frame k _ s).trans (ih h).1, (ih h).2⟩
    · simp only [Handler.ended.injEq] at h
      obtain ⟨rfl, rfl⟩ := h
      exact ⟨storeWrite_frame k _ s, .inr rfl⟩

theorem formatSectors_never_refuses (k : UnitId) (n : Nat) (s : State) (r : Refusal) :
    formatSectors k n s ≠ .noMeaning r := by
  induction n generalizing s with
  | zero => simp [formatSectors]
  | succ n ih =>
    simp only [formatSectors]
    split
    · exact ih _
    · simp

end Sys2Proof.Machine
end

