-- ==== Sys2Proof/Laws/Exec.lean ====
section
/-! SUPPORT. What a command can do: one inversion lemma for all eight, from which invariants and frames follow. -/

namespace Sys2Proof.Machine

/-! ## How a handler ends -/

/-- A property of the end of a handler, if it ends with an outcome. -/
def Handler.Ends (P : CmdOutcome → State → Prop) : Handler → Prop
  | .ended o s => P o s
  | .noMeaning _ => True

theorem Handler.Ends.of_eq {P : CmdOutcome → State → Prop} {h : Handler} (he : h.Ends P) {o : CmdOutcome} {t : State}
    (e : h = .ended o t) : P o t := by
  subst e
  exact he

theorem requireUnit_ends {P : CmdOutcome → State → Prop} {b : CommandBlock} {s : State} {body : UnitId → Handler}
    (h0 : P .noUnitSelected s) (hb : ∀ k, currentUnit s.cfg.maxUnits b.sel = some k → (body k).Ends P) :
    (requireUnit b s body).Ends P := by
  cases hk : currentUnit s.cfg.maxUnits b.sel with
  | none =>
    rw [requireUnit_none hk]
    exact h0
  | some k =>
    rw [requireUnit_some hk]
    exact hb k hk

theorem requireOnline_ends {P : CmdOutcome → State → Prop} {k : UnitId} {s : State} {body : Handler}
    (h0 : P .unitOffline s) (hb : (s.unit k).backingStore.isSome = true → body.Ends P) :
    (requireOnline k s body).Ends P := by
  cases hk : (s.unit k).backingStore.isSome with
  | true =>
    rw [requireOnline_ok hk]
    exact hb hk
  | false =>
    have : (s.unit k).backingStore.isNone = true := by
      cases hs : (s.unit k).backingStore <;> simp_all
    simp only [requireOnline, this, if_true]
    exact h0

theorem requireSafe_ends {P : CmdOutcome → State → Prop} {k : UnitId} {s : State} {body : Handler}
    (h0 : P .unitUnsafe s) (hb : (s.unit k).unsafeFlag = false → body.Ends P) : (requireSafe k s body).Ends P := by
  cases hk : (s.unit k).unsafeFlag with
  | true =>
    simp only [requireSafe, hk, if_true]
    exact h0
  | false =>
    rw [requireSafe_ok hk]
    exact hb hk

theorem requireWritable_ends {P : CmdOutcome → State → Prop} {k : UnitId} {s : State} {body : Handler}
    (h0 : P .writeProtected s) (hb : (s.unit k).writeProtected = false → body.Ends P) :
    (requireWritable k s body).Ends P := by
  cases hk : (s.unit k).writeProtected with
  | true =>
    simp only [requireWritable, hk, if_true]
    exact h0
  | false =>
    rw [requireWritable_ok hk]
    exact hb hk

theorem seekUnit_ends {P : CmdOutcome → State → Prop} {k : UnitId} {c h sec : Nat} {s : State}
    {body : State → Handler} (hoff : P .unitOffline s)
    (hval : ∀ o, validate (s.unit k) c h sec = some o → P o s) (hseek : ∀ t, Frame k s t → P .seekFailed t)
    (hb : ∀ t, Frame k s t → (body t).Ends P) : (seekUnit k c h sec s body).Ends P := by
  rcases seekUnit_cases k c h sec s body with ⟨_, e⟩ | ⟨o, hv, e⟩ | ⟨t, ht, e⟩ | ⟨t, ht, _, e⟩
  · rw [e]
    exact hoff
  · rw [e]
    exact hval o hv
  · rw [e]
    exact hseek t ht
  · rw [e]
    exact hb t ht

/-! ## The eight commands -/

/-- How the handler of command `i` on block `b` can end from `s`: with an outcome of 60_exceptions.md R136, and either
with nothing changed, or with the frame of the selected unit, which is attached (41_command_execution.md R96). -/
def CommandEnd (i : Instr) (b : CommandBlock) (s : State) (o : CmdOutcome) (t : State) : Prop :=
  possible i o = true ∧
    (t = s ∨ ∃ k, currentUnit s.cfg.maxUnits b.sel = some k ∧ (s.unit k).backingStore.isSome = true ∧ Frame k s t)

theorem stregHandler_ends (b : CommandBlock) (s : State) :
    (stregHandler b s).Ends (CommandEnd (.streg b) b s) := by
  refine requireUnit_ends ⟨rfl, .inl rfl⟩ fun k hk => requireOnline_ends ⟨rfl, .inl rfl⟩ fun hon =>
    ⟨rfl, .inr ⟨k, hk, hon, ?_⟩⟩
  have h := (Frame.clearUnsafe k s).trans ((takeOperands_frame b k _).trans (takeDma_frame k b _))
  split
  · exact h
  · exact h.trans (dmaWriteWords_frame k _ _)

theorem ufreadHandler_ends (b : CommandBlock) (s : State) :
    (ufreadHandler b s).Ends (CommandEnd (.ufread b) b s) := by
  refine requireUnit_ends ⟨rfl, .inl rfl⟩ fun k hk => requireOnline_ends ⟨rfl, .inl rfl⟩ fun hon =>
    requireSafe_ends ⟨rfl, .inl rfl⟩ fun _ => ?_
  split
  · rename_i o hv
    rcases validate_cases hv with rfl | rfl | ⟨rfl, _⟩ <;> exact ⟨rfl, .inl rfl⟩
  · refine ⟨rfl, .inr ⟨k, hk, hon, ?_⟩⟩
    have h := (takeOperands_frame b k s).trans (takeDma_frame k b _)
    split
    · exact h
    · exact h.trans (dmaWriteWords_frame k _ _)

theorem restoreHandler_ends (b : CommandBlock) (s : State) :
    (restoreHandler b s).Ends (CommandEnd (.restore b) b s) := by
  refine requireUnit_ends ⟨rfl, .inl rfl⟩ fun k hk => requireOnline_ends ⟨rfl, .inl rfl⟩ fun hon => ?_
  have h := (Frame.clearUnsafe k s).trans (takeOperands_frame b k _)
  refine seekUnit_ends ⟨rfl, .inr ⟨k, hk, hon, h⟩⟩ ?_ (fun t ht => ⟨rfl, .inr ⟨k, hk, hon, h.trans ht⟩⟩)
    fun t ht => ⟨rfl, .inr ⟨k, hk, hon, h.trans ht⟩⟩
  intro o hv
  simp [validate] at hv

theorem wrfmtHandler_ends (b : CommandBlock) (s : State) :
    (wrfmtHandler b s).Ends (CommandEnd (.wrfmt b) b s) := by
  refine requireUnit_ends ⟨rfl, .inl rfl⟩ fun k hk => requireOnline_ends ⟨rfl, .inl rfl⟩ fun hon =>
    requireSafe_ends ⟨rfl, .inl rfl⟩ fun _ => requireWritable_ends ⟨rfl, .inl rfl⟩ fun _ => ?_
  have h := takeOperands_frame b k s
  refine seekUnit_ends ⟨rfl, .inr ⟨k, hk, hon, h⟩⟩ ?_ (fun t ht => ⟨rfl, .inr ⟨k, hk, hon, h.trans ht⟩⟩) fun t ht => ?_
  · intro o hv
    rcases validate_cases hv with rfl | rfl | ⟨rfl, hlt⟩
    · exact ⟨rfl, .inr ⟨k, hk, hon, h⟩⟩
    · exact ⟨rfl, .inr ⟨k, hk, hon, h⟩⟩
    · omega
  · split
    · cases hf : formatSectors k (s.unit k).sectorsPerTrack.toNat t with
      | noMeaning r => trivial
      | ended o u =>
        obtain ⟨hu, rfl | rfl⟩ := formatSectors_ended hf <;>
          exact ⟨rfl, .inr ⟨k, hk, hon, h.trans (ht.trans hu)⟩⟩
    · trivial

/-- The common tail of Read Data and Write Data. -/
theorem transferSectors_ends {P : CmdOutcome → State → Prop} {b : CommandBlock} {u : DiskUnit} {k : UnitId}
    {body : State → Iteration} {s : State} (hbody : ∀ s, Frame k s (body s).state)
    (hsucc : ∀ t, Frame k s t → P .success t)
    (hstop : ∀ o x y, body x = .stop o y → ∀ t, Frame k s t → P o t) : (transferSectors b u body s).Ends P := by
  unfold transferSectors
  split
  · cases hl : sectorLoop body (byteCount b) s with
    | noMeaning r => trivial
    | ended o t =>
      obtain ⟨ht, rfl | ⟨x, y, hxy⟩⟩ :=
        sectorLoop_ended (R := Frame k) (Frame.refl k) (fun _ _ _ => Frame.trans) hbody hl
      · exact hsucc t ht
      · exact hstop o x y hxy t ht
  · trivial

theorem rddataHandler_ends (b : CommandBlock) (s : State) :
    (rddataHandler b s).Ends (CommandEnd (.rddata b) b s) := by
  refine requireUnit_ends ⟨rfl, .inl rfl⟩ fun k hk => requireOnline_ends ⟨rfl, .inl rfl⟩ fun hon =>
    requireSafe_ends ⟨rfl, .inl rfl⟩ fun _ => ?_
  have h := takeOperands_frame b k s
  refine seekUnit_ends ⟨rfl, .inr ⟨k, hk, hon, h⟩⟩ ?_ (fun t ht => ⟨rfl, .inr ⟨k, hk, hon, h.trans ht⟩⟩) fun t ht => ?_
  · intro o hv
    rcases validate_cases hv with rfl | rfl | ⟨rfl, _⟩ <;> exact ⟨rfl, .inr ⟨k, hk, hon, h⟩⟩
  · have hs := (h.trans ht).trans ((takeDma_frame k b _).trans (takeAddress_frame k b _))
    refine transferSectors_ends (readSector_frame k b.ti) (fun u hu => ⟨rfl, .inr ⟨k, hk, hon, hs.trans hu⟩⟩) ?_
    intro o x y hxy u hu
    rcases readSector_stop hxy with rfl | rfl <;> exact ⟨rfl, .inr ⟨k, hk, hon, hs.trans hu⟩⟩

theorem wrdataHandler_ends (b : CommandBlock) (s : State) :
    (wrdataHandler b s).Ends (CommandEnd (.wrdata b) b s) := by
  refine requireUnit_ends ⟨rfl, .inl rfl⟩ fun k hk => requireOnline_ends ⟨rfl, .inl rfl⟩ fun hon =>
    requireSafe_ends ⟨rfl, .inl rfl⟩ fun _ => requireWritable_ends ⟨rfl, .inl rfl⟩ fun _ => ?_
  have h := takeOperands_frame b k s
  refine seekUnit_ends ⟨rfl, .inr ⟨k, hk, hon, h⟩⟩ ?_ (fun t ht => ⟨rfl, .inr ⟨k, hk, hon, h.trans ht⟩⟩) fun t ht => ?_
  · intro o hv
    rcases validate_cases hv with rfl | rfl | ⟨rfl, _⟩ <;> exact ⟨rfl, .inr ⟨k, hk, hon, h⟩⟩
  · have hs := (h.trans ht).trans ((takeDma_frame k b _).trans (takeAddress_frame k b _))
    refine transferSectors_ends (writeSector_frame k) (fun u hu => ⟨rfl, .inr ⟨k, hk, hon, hs.trans hu⟩⟩) ?_
    intro o x y hxy u hu
    rcases writeSector_stop hxy with rfl | rfl <;> exact ⟨rfl, .inr ⟨k, hk, hon, hs.trans hu⟩⟩

/-- What any command can do when it answers a next state: it enters, its handler ends as `CommandEnd` says, and its
completion is posted. Every frame and invariant of a command follows from this. -/
theorem exec_command_cases {b : CommandBlock} {i : Instr} (hc : Command b i) {s t : State} (h : exec i s = .next t) :
    ∃ o u, CommandEnd i b (enterCommand s) o u ∧ t = complete o u := by
  cases hc with
  | streg =>
    obtain ⟨o, u, e, rfl⟩ := Handler.finish_next h
    exact ⟨o, u, (stregHandler_ends b _).of_eq e, rfl⟩
  | wrfmt =>
    obtain ⟨o, u, e, rfl⟩ := Handler.finish_next h
    exact ⟨o, u, (wrfmtHandler_ends b _).of_eq e, rfl⟩
  | rddata =>
    obtain ⟨o, u, e, rfl⟩ := Handler.finish_next h
    exact ⟨o, u, (rddataHandler_ends b _).of_eq e, rfl⟩
  | wrdata =>
    obtain ⟨o, u, e, rfl⟩ := Handler.finish_next h
    exact ⟨o, u, (wrdataHandler_ends b _).of_eq e, rfl⟩
  | ufread =>
    obtain ⟨o, u, e, rfl⟩ := Handler.finish_next h
    exact ⟨o, u, (ufreadHandler_ends b _).of_eq e, rfl⟩
  | ufwrite =>
    have h' : Host.Outcome.next (complete .unsupported (enterCommand s)) = .next t := h
    cases h'
    exact ⟨_, _, ⟨rfl, .inl rfl⟩, rfl⟩
  | seek =>
    have h' : Host.Outcome.next (complete .success (enterCommand s)) = .next t := h
    cases h'
    exact ⟨_, _, ⟨rfl, .inl rfl⟩, rfl⟩
  | restore =>
    obtain ⟨o, u, e, rfl⟩ := Handler.finish_next h
    exact ⟨o, u, (restoreHandler_ends b _).of_eq e, rfl⟩

/-! ## The executor -/

/-- The dispatch on the command field is the decoder followed by the instruction's meaning
(41_command_execution.md R84). -/
theorem runCommand_eq_exec (code : BitVec 3) (b : CommandBlock) (s : State) :
    runCommand code b s = exec (commandOfField code b) s := by
  unfold runCommand commandOfField
  generalize code.toNat = n
  rcases n with _ | _ | _ | _ | _ | _ | _ | n <;> rfl

/-- What a command field selects is a command. -/
theorem commandOfField_command (code : BitVec 3) (b : CommandBlock) : Command b (commandOfField code b) := by
  unfold commandOfField
  split <;> constructor

/-- The executor runs the command the live command block decodes to (20_memory.md R55). -/
theorem executeCommand_eq_exec (s : State) : executeCommand s = exec (decodeBlock s.regs.block) s :=
  runCommand_eq_exec _ _ s

theorem decodeBlock_command (ws : BlockWords) : Command (blockOfWords ws) (decodeBlock ws) :=
  commandOfField_command _ _

/-! ## Host operations -/

/-- What a REGWR can do: nothing (index out of range or busy), merge and arbitrate, or merge, arbitrate and run the
command the block decodes to. -/
theorem execRegwr_cases (index : Nat) (value : Word) (lanes : BitVec 2) (s : State) :
    execRegwr index value lanes s = .next s ∨
    (∃ i, regIndex index = some i ∧
      execRegwr index value lanes s = .next (arbitrateWrite i (mergeRegister i value lanes s)) ∧
      triggers i (s.regs.get i) (mergeWrite i (s.regs.get i) value lanes) = false) ∨
    (regIndex index = some 7 ∧ idle s.regs.w7 = true ∧ idle (mergeWrite 7 s.regs.w7 value lanes) = false ∧
      execRegwr index value lanes s = executeCommand (driveSink (mergeRegister 7 value lanes s))) := by
  unfold execRegwr
  cases hi : regIndex index with
  | none => exact .inl rfl
  | some i =>
    dsimp only [writeRegister]
    split
    · exact .inl rfl
    · split
      · rename_i ht
        simp only [triggers, Bool.and_eq_true, decide_eq_true_eq, Bool.not_eq_true'] at ht
        obtain ⟨⟨rfl, h1⟩, h2⟩ := ht
        exact .inr (.inr ⟨rfl, h1, h2, rfl⟩)
      · rename_i ht
        exact .inr (.inl ⟨i, rfl, rfl, by simpa using ht⟩)

end Sys2Proof.Machine
end

