-- ==== Sys2Proof/Laws/Access.lean ====
section
/-! SUPPORT. Register access bit by bit, the arbiter's attention term, and the masks of a posted outcome. -/

namespace Sys2Proof.Machine

/-! ## The masked merge (40_register_access.md R76) -/

/-- The write masks bit by bit (10_state.md R14). -/
theorem writeMask_getLsbD : ∀ (i : Fin 8) (n : Nat), n < 16 → (writeMask i).getLsbD n =
    decide ((i = 0 ∧ n < 4) ∨ (1 ≤ i.val ∧ i.val ≤ 6) ∨ (i = 7 ∧ n ≠ 11)) := by
  decide

/-- The preserved lanes bit by bit (40_register_access.md R77). -/
theorem suppressMask_getLsbD : ∀ (lanes : BitVec 2) (n : Nat), n < 16 →
    (suppressMask lanes).getLsbD n = lanes.getLsbD (if n < 8 then 0 else 1) := by
  decide

/-- A bit of the merge is the old bit where the mask is 0. -/
theorem mergeWrite_outside (i : Fin 8) (old value : Word) (lanes : BitVec 2) {n : Nat} (hn : n < 16)
    (h : (writeMask i).getLsbD n = false) : (mergeWrite i old value lanes).getLsbD n = old.getLsbD n := by
  unfold mergeWrite
  simp only [BitVec.getLsbD_or, BitVec.getLsbD_and, BitVec.getLsbD_not, hn, h]
  simp

/-- A bit of the merge inside the mask is the value's, unless its lane is preserved. -/
theorem mergeWrite_inside (i : Fin 8) (old value : Word) (lanes : BitVec 2) {n : Nat} (hn : n < 16)
    (h : (writeMask i).getLsbD n = true) : (mergeWrite i old value lanes).getLsbD n =
      if lanes.getLsbD (if n < 8 then 0 else 1) = true then old.getLsbD n else value.getLsbD n := by
  unfold mergeWrite
  simp only [BitVec.getLsbD_or, BitVec.getLsbD_and, BitVec.getLsbD_not, hn, h, suppressMask_getLsbD lanes n hn]
  cases lanes.getLsbD (if n < 8 then 0 else 1) <;> simp

/-- A write that neither meets the busy guard nor triggers is a merge and an arbitration. -/
theorem execRegwr_plain {i : Fin 8} {value : Word} {lanes : BitVec 2} {s : State} (hb : busyGuard i s = false)
    (ht : triggers i (s.regs.get i) (mergeWrite i (s.regs.get i) value lanes) = false) :
    execRegwr i.val value lanes s = .next (arbitrateWrite i (mergeRegister i value lanes s)) := by
  simp only [execRegwr, regIndex_val, writeRegister, hb, ht]
  rfl

@[simp] theorem mergeRegister_get_same (i : Fin 8) (value : Word) (lanes : BitVec 2) (s : State) :
    (mergeRegister i value lanes s).regs.get i = mergeWrite i (s.regs.get i) value lanes := by
  simp [mergeRegister]

theorem mergeRegister_get_ne {i j : Fin 8} (h : j ≠ i) (value : Word) (lanes : BitVec 2) (s : State) :
    (mergeRegister i value lanes s).regs.get j = s.regs.get j :=
  Regs.get_set_ne _ _ h

@[simp] theorem arbitrateWrite_regs (i : Fin 8) (s : State) : (arbitrateWrite i s).regs = s.regs := by
  unfold arbitrateWrite
  split <;> rfl

/-! ## The arbiter (60_exceptions.md R140) -/

/-- The attention term in words: some unit has both its line and its enable. -/
theorem attentionPending_iff (w0 : Word) : attentionPending w0 = true ↔
    ∃ k : UnitId, w0.getLsbD (7 - k.val) = true ∧ w0.getLsbD (3 - k.val) = true := by
  have mask : ∀ n < 16, (0x000F#16).getLsbD n = decide (n < 4) := by decide
  unfold attentionPending
  rw [bne_iff_ne, Ne, ← not_iff_not, not_not]
  constructor
  · rintro h ⟨k, h1, h2⟩
    have hb := congrArg (fun x => BitVec.getLsbD x (3 - k.val)) h
    simp only [BitVec.getLsbD_and, BitVec.getLsbD_ushiftRight, BitVec.getLsbD_zero] at hb
    rw [mask _ (by omega), h2, show 4 + (3 - k.val) = 7 - k.val by omega, h1] at hb
    simp at hb
    omega
  · intro h
    apply BitVec.eq_of_getLsbD_eq
    intro n hn
    rw [BitVec.getLsbD_and, BitVec.getLsbD_and, mask n hn, BitVec.getLsbD_ushiftRight, BitVec.getLsbD_zero]
    by_cases g : n < 4
    · have hk : ¬ (w0.getLsbD (4 + n) = true ∧ w0.getLsbD n = true) := fun hx =>
        h ⟨⟨3 - n, by omega⟩, by
          simpa only [show 7 - (3 - n) = 4 + n by omega, show 3 - (3 - n) = n by omega] using hx⟩
      cases h1 : w0.getLsbD n <;> cases h2 : w0.getLsbD (4 + n) <;> simp_all
    · simp [g]

/-! ## Posting (41_command_execution.md R83, R94) -/

/-- No outcome touches the low byte of `w0`. -/
theorem status_low (o : CmdOutcome) : ∀ n < 8, o.status.getLsbD n = false := by
  cases o <;> decide

/-- What an outcome ORs into `w7` lies outside the reserved bit, the interrupt enable, bits 10 and 9, and the low
detail bits no outcome uses. -/
theorem detail_outside (o : CmdOutcome) : (maskIdle ||| o.detail) &&& 0x1EFA#16 = 0#16 := by
  cases o <;> decide

/-- Completion posting after an entry, in the words of `Posted`. -/
theorem complete_posted (o : CmdOutcome) {s u : State} (hr : u.regs = (enterCommand s).regs) (hc : u.cfg = s.cfg)
    (hp : u.pending = s.pending) (hy : u.reply = s.reply) : Posted s (complete o u) o.status o.detail := by
  refine ⟨?_, rfl, hc, hp, hy⟩
  simp [hr, maskIdle]

end Sys2Proof.Machine
end

