-- ==== Sys2Proof/Laws/PerInstr.lean ====
section
/-! SUPPORT. A property of every instruction as syntax, one lemma per constructor: what has bytes is well-formed, and how many bytes. -/

/-- An instruction the encoder gives bytes is well-formed, and its bytes are one of the three forms: a block of twelve,
REGRD's one, REGWR's three (30_encoding.md R57 to R59; log 18). -/
def Sys2Proof.Laws.EncodedForm.Statement (i : Sys2Proof.Instr) : Prop :=
  ∀ bytes, Sys2Proof.encode i = some bytes →
    i.wellFormed = true ∧ (bytes.length = 12 ∨ bytes.length = 1 ∨ bytes.length = 3)

namespace Sys2Proof.Laws.EncodedForm

/-- A command block is twelve bytes. -/
theorem block_length {i : Instr} {code : BitVec 3} {b : CommandBlock} (hw : i.wellFormed = true)
    (he : encode i = some (bytesOfBlock (wordsOfBlock code b))) : Statement i := by
  intro bytes h
  rw [he, Option.some.injEq] at h
  subst h
  exact ⟨hw, .inl rfl⟩

/-- An instruction without an encoding. -/
theorem no_bytes {i : Instr} (he : encode i = none) : Statement i := by
  intro bytes h
  rw [he] at h
  contradiction

theorem streg (b : CommandBlock) : Statement (.streg b) := block_length rfl rfl
theorem wrfmt (b : CommandBlock) : Statement (.wrfmt b) := block_length rfl rfl
theorem rddata (b : CommandBlock) : Statement (.rddata b) := block_length rfl rfl
theorem wrdata (b : CommandBlock) : Statement (.wrdata b) := block_length rfl rfl
theorem ufread (b : CommandBlock) : Statement (.ufread b) := block_length rfl rfl
theorem ufwrite (b : CommandBlock) : Statement (.ufwrite b) := block_length rfl rfl
theorem seek (b : CommandBlock) : Statement (.seek b) := block_length rfl rfl
theorem restore (b : CommandBlock) : Statement (.restore b) := block_length rfl rfl

theorem regrd (index : Nat) : Statement (.regrd index) := by
  intro bytes h
  simp only [encode] at h
  split at h
  · cases h
    exact ⟨decide_eq_true ‹_›, .inr (.inl rfl)⟩
  · contradiction

theorem regwr (index : Nat) (value : Word) (lanes : BitVec 2) : Statement (.regwr index value lanes) := by
  intro bytes h
  simp only [encode] at h
  split at h
  · cases h
    exact ⟨decide_eq_true ‹_›, .inr (.inr rfl)⟩
  · contradiction

theorem init : Statement .init := no_bytes rfl
theorem attach (unit : Nat) (store : BackingStore) (readOnly : Bool) : Statement (.attach unit store readOnly) :=
  no_bytes rfl
theorem detach (unit : Nat) : Statement (.detach unit) := no_bytes rfl

end Sys2Proof.Laws.EncodedForm
end

