-- ==== Sys2Proof/Laws/Transfer.lean ====
section
/-! SUPPORT. What a DMA transfer of many words does: the bytes it stores or fetches, and where the address ends. -/

namespace Sys2Proof.Machine

/-- The running DMA address after `n` words from `a` (42_geometry_dma.md R104). -/
def dmaAt (a : DmaAddr) (n : Nat) : DmaAddr := BitVec.ofNat 21 ((a.toNat + 2 * n) % 0x200000)

theorem dmaAt_toNat (a : DmaAddr) (n : Nat) : (dmaAt a n).toNat = (a.toNat + 2 * n) % 0x200000 := by
  simp [dmaAt]

@[simp] theorem dmaAt_zero (a : DmaAddr) : dmaAt a 0 = a := by
  apply BitVec.eq_of_toNat_eq
  have := a.isLt
  rw [dmaAt_toNat]
  omega

theorem even_toNat {a : DmaAddr} (h : a.getLsbD 0 = false) : a.toNat % 2 = 0 := by
  rw [BitVec.getLsbD, Nat.testBit_zero] at h
  simpa using h

theorem even_of_toNat {a : DmaAddr} (h : a.toNat % 2 = 0) : a.getLsbD 0 = false := by
  rw [BitVec.getLsbD, Nat.testBit_zero]
  simpa using h

theorem dmaAt_even {a : DmaAddr} (h : a.getLsbD 0 = false) (n : Nat) : (dmaAt a n).getLsbD 0 = false := by
  have := even_toNat h
  apply even_of_toNat
  rw [dmaAt_toNat]
  omega

theorem dmaAt_add (a : DmaAddr) (m n : Nat) : dmaAt (dmaAt a m) n = dmaAt a (m + n) := by
  apply BitVec.eq_of_toNat_eq
  rw [dmaAt_toNat, dmaAt_toNat, dmaAt_toNat]
  omega

theorem dmaAt_succ (a : DmaAddr) : dmaAt (dmaAt a 1) = fun n => dmaAt a (n + 1) := by
  funext n
  rw [dmaAt_add, Nat.add_comm]

/-- One advance is one word on. -/
theorem nextDma_eq {a : DmaAddr} (h : a.getLsbD 0 = false) : nextDma a = dmaAt a 1 := by
  apply BitVec.eq_of_toNat_eq
  rw [nextDma_toNat h, dmaAt_toNat]

/-- A word access at an even address uses that address. -/
theorem wordBase_of_even {a : DmaAddr} (h : a.getLsbD 0 = false) : Memory.wordBase a = a.toNat := by
  have := even_toNat h
  unfold Memory.wordBase
  rw [Memory.mask_toNat]
  omega

theorem dmaByte_dmaAt (a : DmaAddr) (n i : Nat) : dmaByte (dmaAt a n) i = dmaByte a (2 * n + i) := by
  unfold dmaByte
  rw [dmaAt_toNat]
  omega

/-! ## Stores -/

theorem Stored.refl (m : Memory) (a : DmaAddr) : Stored m m a [] := ⟨fun _ h => absurd h (by simp), fun _ _ => rfl⟩

/-- One word stored is its two bytes, high byte first (20_memory.md R44). -/
theorem Stored.word (m : Memory) {a : DmaAddr} (h : a.getLsbD 0 = false) (v : Word) :
    Stored m (m.writeWord a v) a [highByte v, lowByte v] := by
  have he := even_toNat h
  have hl := a.isLt
  have hb := wordBase_of_even h
  refine ⟨fun i hi => ?_, fun x hx => ?_⟩
  · simp only [List.length_cons, List.length_nil] at hi
    obtain rfl | rfl : i = 0 ∨ i = 1 := by omega
    · have : dmaByte a 0 = a.toNat := by
        unfold dmaByte
        omega
      simp [Memory.writeWord, hb, this, Memory.readByte_writeByte_ne]
    · have : dmaByte a 1 = a.toNat + 1 := by
        unfold dmaByte
        omega
      simp [Memory.writeWord, hb, this]
  · have h0 := hx 0 (by simp)
    have h1 := hx 1 (by simp)
    refine Memory.readByte_writeWord_ne m a v ?_ ?_
    · rw [hb]
      unfold dmaByte at h0
      omega
    · rw [hb]
      unfold dmaByte at h1
      omega

/-- Two transfers one after the other are one, as long as the window is not passed twice. -/
theorem Stored.append {m m1 m2 : Memory} {a : DmaAddr} {n : Nat} {xs ys : List Byte} (hx : Stored m m1 a xs)
    (hn : xs.length = 2 * n) (hy : Stored m1 m2 (dmaAt a n) ys) (hl : xs.length + ys.length ≤ 0x200000) :
    Stored m m2 a (xs ++ ys) := by
  have far : ∀ i j, i < xs.length → j < ys.length → dmaByte a i ≠ dmaByte (dmaAt a n) j := by
    intro i j hi hj
    rw [dmaByte_dmaAt]
    unfold dmaByte
    omega
  refine ⟨fun i hi => ?_, fun x hnx => ?_⟩
  · by_cases hlt : i < xs.length
    · rw [List.getElem?_append_left hlt, ← hx.1 i hlt, hy.2 _ fun j hj => far i j hlt hj]
    · have hj : i - xs.length < ys.length := by
        rw [List.length_append] at hi
        omega
      rw [List.getElem?_append_right (by omega), ← hy.1 _ hj, dmaByte_dmaAt]
      congr 3
      omega
  · rw [hy.2 x, hx.2 x]
    · intro i hi
      exact hnx i (by rw [List.length_append]; omega)
    · intro j hj
      rw [dmaByte_dmaAt]
      exact hnx _ (by rw [List.length_append]; omega)

/-- Writing words stores their bytes and moves the address on by as many words. -/
theorem dmaWriteWords_stored (vs : List Word) (s : State) (h : s.xfer.dma.getLsbD 0 = false)
    (hl : 2 * vs.length ≤ 0x200000) : Stored s.mem (dmaWriteWords vs s).mem s.xfer.dma (unpackWords vs) := by
  induction vs generalizing s with
  | nil => exact Stored.refl _ _
  | cons v vs ih =>
    have hw := Stored.word s.mem h v
    have hd : (dmaWriteWord v s).xfer.dma = dmaAt s.xfer.dma 1 := nextDma_eq h
    have hr := ih (dmaWriteWord v s) (by rw [hd]; exact dmaAt_even h 1) (by simp at hl; omega)
    rw [hd] at hr
    exact Stored.append (xs := [highByte v, lowByte v]) (n := 1) hw rfl hr (by simp at hl ⊢; omega)

/-- Writing words changes of the transient state only the address. -/
theorem dmaWriteWords_xfer (vs : List Word) (s : State) (h : s.xfer.dma.getLsbD 0 = false) :
    (dmaWriteWords vs s).xfer = { s.xfer with dma := dmaAt s.xfer.dma vs.length } := by
  induction vs generalizing s with
  | nil => simp [dmaWriteWords]
  | cons v vs ih =>
    have hd : (dmaWriteWord v s).xfer = { s.xfer with dma := dmaAt s.xfer.dma 1 } := by
      rw [← nextDma_eq h]
      rfl
    have hr := ih (dmaWriteWord v s) (by rw [hd]; exact dmaAt_even h 1)
    change (dmaWriteWords vs (dmaWriteWord v s)).xfer = _
    rw [hr, hd]
    simp [dmaAt_add, Nat.add_comm]

/-- The writes seen, in order: the words at ascending addresses (20_memory.md R52). -/
theorem dmaWriteWords_trace (vs : List Word) (s : State) (h : s.xfer.dma.getLsbD 0 = false) :
    dmaWrites (dmaWriteWords vs s).trace =
        dmaWrites s.trace ++ ((List.range vs.length).map (dmaAt s.xfer.dma)).zip vs ∧
      dmaReads (dmaWriteWords vs s).trace = dmaReads s.trace ∧
      storeAccesses (dmaWriteWords vs s).trace = storeAccesses s.trace := by
  induction vs generalizing s with
  | nil => simp [dmaWriteWords]
  | cons v vs ih =>
    have hd : (dmaWriteWord v s).xfer.dma = dmaAt s.xfer.dma 1 := nextDma_eq h
    have hr := ih (dmaWriteWord v s) (by rw [hd]; exact dmaAt_even h 1)
    have ht : (dmaWriteWord v s).trace = .memWrite s.xfer.dma v :: s.trace := rfl
    change dmaWrites (dmaWriteWords vs (dmaWriteWord v s)).trace = _ ∧ _ ∧ _
    refine ⟨?_, hr.2.1.trans (by rw [ht]; rfl), hr.2.2.trans (by rw [ht]; rfl)⟩
    rw [hr.1, hd, ht, List.length_cons, List.range_succ_eq_map]
    simp [dmaWrites, dmaAt_succ, Function.comp_def]

/-! ## Fetches -/

theorem memoryBytes_length (m : Memory) (a : DmaAddr) (n : Nat) : (memoryBytes m a n).length = n := by
  simp [memoryBytes]

/-- A transfer cut in two. -/
theorem memoryBytes_add (m : Memory) (a : DmaAddr) (n k : Nat) :
    memoryBytes m a (2 * n + k) = memoryBytes m a (2 * n) ++ memoryBytes m (dmaAt a n) k := by
  simp [memoryBytes, List.range_add, dmaByte_dmaAt, Function.comp_def]

/-- One word fetched is its two bytes. -/
theorem readWord_bytes (m : Memory) {a : DmaAddr} (h : a.getLsbD 0 = false) :
    [highByte (m.readWord a), lowByte (m.readWord a)] = memoryBytes m a 2 := by
  have he := even_toNat h
  have hl := a.isLt
  have h0 : dmaByte a 0 = a.toNat := by
    unfold dmaByte
    omega
  have h1 : dmaByte a 1 = a.toNat + 1 := by
    unfold dmaByte
    omega
  simp [Memory.readWord, memoryBytes, List.range_succ, wordBase_of_even h, h0, h1]

/-- Reading words fetches their bytes (42_geometry_dma.md R106). -/
theorem dmaReadWords_bytes (n : Nat) (s : State) (h : s.xfer.dma.getLsbD 0 = false) :
    unpackWords (dmaReadWords n s).1 = memoryBytes s.mem s.xfer.dma (2 * n) := by
  induction n generalizing s with
  | zero => rfl
  | succ n ih =>
    have hd : (dmaReadWord s).2.xfer.dma = dmaAt s.xfer.dma 1 := nextDma_eq h
    have hr := ih (dmaReadWord s).2 (by rw [hd]; exact dmaAt_even h 1)
    rw [show 2 * (n + 1) = 2 * 1 + 2 * n by omega, memoryBytes_add, ← readWord_bytes s.mem h]
    simp only [dmaReadWords, unpackWords, hr, hd]
    rfl

/-- Reading words changes of the transient state only the address. -/
theorem dmaReadWords_xfer (n : Nat) (s : State) (h : s.xfer.dma.getLsbD 0 = false) :
    (dmaReadWords n s).2.xfer = { s.xfer with dma := dmaAt s.xfer.dma n } := by
  induction n generalizing s with
  | zero => simp [dmaReadWords]
  | succ n ih =>
    have hd : (dmaReadWord s).2.xfer = { s.xfer with dma := dmaAt s.xfer.dma 1 } := by
      rw [← nextDma_eq h]
      rfl
    have hr := ih (dmaReadWord s).2 (by rw [hd]; exact dmaAt_even h 1)
    change (dmaReadWords n (dmaReadWord s).2).2.xfer = _
    rw [hr, hd]
    simp [dmaAt_add, Nat.add_comm]

/-- The reads seen, in order, at ascending addresses (20_memory.md R52). -/
theorem dmaReadWords_trace (n : Nat) (s : State) (h : s.xfer.dma.getLsbD 0 = false) :
    dmaReads (dmaReadWords n s).2.trace = dmaReads s.trace ++ (List.range n).map (dmaAt s.xfer.dma) ∧
      dmaWrites (dmaReadWords n s).2.trace = dmaWrites s.trace := by
  induction n generalizing s with
  | zero => simp [dmaReadWords]
  | succ n ih =>
    have hd : (dmaReadWord s).2.xfer.dma = dmaAt s.xfer.dma 1 := nextDma_eq h
    have hr := ih (dmaReadWord s).2 (by rw [hd]; exact dmaAt_even h 1)
    have ht : (dmaReadWord s).2.trace = .memRead s.xfer.dma :: s.trace := rfl
    change dmaReads (dmaReadWords n (dmaReadWord s).2).2.trace = _ ∧ _
    refine ⟨?_, hr.2.trans (by rw [ht]; rfl)⟩
    rw [hr.1, hd, ht, List.range_succ_eq_map]
    simp [dmaReads, dmaAt_add, Function.comp_def, Nat.add_comm]

/-- Unpacking undoes packing of an even number of bytes (42_geometry_dma.md R105). -/
theorem unpackWords_packWords : ∀ bytes : List Byte, bytes.length % 2 = 0 → unpackWords (packWords bytes) = bytes
  | [], _ => rfl
  | [_], h => by simp at h
  | hi :: lo :: rest, h => by
    have := unpackWords_packWords rest (by simp only [List.length_cons] at h; omega)
    simp [packWords, unpackWords, this]

theorem packWords_length : ∀ bytes : List Byte, (packWords bytes).length = bytes.length / 2
  | [] => rfl
  | [_] => by simp [packWords]
  | _ :: _ :: rest => by
    have := packWords_length rest
    simp only [packWords, List.length_cons, this]
    omega

end Sys2Proof.Machine
end

