-- ==== Sys2Proof/Laws/Sector.lean ====
section
/-! SUPPORT. One sector: what a seek, one iteration of Read Data and one iteration of Write Data do. -/

namespace Sys2Proof.Machine

/-! ## Operands -/

/-- The byte count is even and below 65536 (30_encoding.md R65). -/
theorem byteCount_even (b : CommandBlock) : byteCount b % 2 = 0 ∧ byteCount b ≤ 65534 := by
  have h : b.count &&& 0xFFFE#16 = (b.count >>> 1) <<< 1 := by
    have mask : ∀ n < 16, (0xFFFE#16).getLsbD n = !decide (n = 0) := by decide
    apply BitVec.eq_of_getLsbD_eq
    intro i hi
    rw [BitVec.getLsbD_and, mask i hi, BitVec.getLsbD_shiftLeft, BitVec.getLsbD_ushiftRight]
    cases i <;> simp [hi, Nat.add_comm]
  have := b.count.isLt
  unfold byteCount
  rw [h]
  simp [BitVec.toNat_shiftLeft, Nat.shiftLeft_eq, Nat.shiftRight_eq_div_pow]
  omega

/-- The seek position in the words of the statements (42_geometry_dma.md R100). -/
theorem bytePosition_eq (u : DiskUnit) (b : CommandBlock) :
    bytePosition u b.cylinder.toNat b.head.toNat b.sector.toNat = startPosition u b := by
  simp [bytePosition, startPosition, linearSector, Config.headerLen]
  omega

theorem admittedSectorSize_iff (u : DiskUnit) : admittedSectorSize u = true ↔
    u.bytesPerSector.toNat % 2 = 0 ∧ 2 ≤ u.bytesPerSector.toNat ∧ u.bytesPerSector.toNat ≤ 512 := by
  simp only [admittedSectorSize, Bool.and_eq_true, decide_eq_true_eq, and_assoc]
  exact Iff.rfl

/-- Nothing of the units is touched by taking operands. -/
@[simp] theorem takeOperands_unit (b : CommandBlock) (k j : UnitId) (s : State) :
    (takeOperands b k s).unit j = s.unit j := rfl
@[simp] theorem takeDma_unit (b : CommandBlock) (j : UnitId) (s : State) : (takeDma b s).unit j = s.unit j := rfl
@[simp] theorem takeAddress_unit (b : CommandBlock) (j : UnitId) (s : State) :
    (takeAddress b s).unit j = s.unit j := rfl
@[simp] theorem loadBuffer_unit (bytes : List Byte) (j : UnitId) (s : State) :
    (loadBuffer bytes s).unit j = s.unit j := rfl
@[simp] theorem nextSector_unit (k : UnitId) (n : Nat) (j : UnitId) (s : State) :
    (nextSector k n s).unit j = s.unit j := rfl
@[simp] theorem clearUnsafe_unit_same (k : UnitId) (s : State) :
    (clearUnsafe k s).unit k = { s.unit k with unsafeFlag := false } := State.unit_setUnit_same s k _
@[simp] theorem dmaWriteWords_unit (vs : List Word) (j : UnitId) (s : State) :
    (dmaWriteWords vs s).unit j = s.unit j := congrArg (Units.get · j) (dmaWriteWords_units vs s)
@[simp] theorem dmaReadWords_unit (n : Nat) (j : UnitId) (s : State) : (dmaReadWords n s).2.unit j = s.unit j :=
  congrArg (Units.get · j) (dmaReadWords_units n s)

/-! ## The seek (42_geometry_dma.md R99) -/

/-- An address out of range ends the command before the store is asked. -/
theorem seekUnit_invalid {k : UnitId} {c h sec : Nat} {s : State} {o : CmdOutcome} {body : State → Handler}
    (hs : (s.unit k).backingStore.isSome = true) (hv : validate (s.unit k) c h sec = some o) :
    seekUnit k c h sec s body = .ended o s := by
  unfold seekUnit
  cases hh : (s.unit k).backingStore with
  | none => simp [hh] at hs
  | some st => simp [hv]

/-- A reposition the environment fails ends the command. -/
theorem seekUnit_failed {k : UnitId} {c h sec pos : Nat} {s : State} {st : BackingStore} {rest : List SeekAnswer}
    {body : State → Handler} (hs : (s.unit k).backingStore = some st) (hp : st.seekPlan = .failed pos :: rest)
    (hv : validate (s.unit k) c h sec = none) :
    seekUnit k c h sec s body =
      .ended .seekFailed ((s.setStore k { st with pos := pos, seekPlan := rest }).emit
        (.storeSeek k (bytePosition (s.unit k) c h sec) false)) := by
  have hk : ∀ p, st.seek p = (false, { st with pos := pos, seekPlan := rest }) := by
    intro p
    unfold BackingStore.seek
    rw [hp]
  unfold seekUnit
  rw [storeSeek_of_some hs, hk]
  simp [hs, hv]

/-- A reposition the environment grants, planned or not, goes on. -/
theorem seekUnit_moved {k : UnitId} {c h sec : Nat} {s : State} {st : BackingStore} {body : State → Handler}
    (hs : (s.unit k).backingStore = some st) (hp : st.seekPlan = [] ∨ ∃ rest, st.seekPlan = .moved :: rest)
    (hv : validate (s.unit k) c h sec = none) :
    seekUnit k c h sec s body =
      body ((s.setStore k { st with pos := bytePosition (s.unit k) c h sec, seekPlan := st.seekPlan.tail }).emit
        (.storeSeek k (bytePosition (s.unit k) c h sec) true)) := by
  have hk : ∀ p, st.seek p = (true, { st with pos := p, seekPlan := st.seekPlan.tail }) := by
    intro p
    cases st
    dsimp only at hp
    rcases hp with rfl | ⟨rest, rfl⟩ <;> rfl
  unfold seekUnit
  rw [storeSeek_of_some hs, hk]
  simp [hs, hv]

/-! ## The store at one sector -/

/-- What any store delivers: the content from the position on, as many bytes as `deliveredBytes` says
(45_unit_management.md R130). -/
theorem storeRead_delivers {k : UnitId} {s : State} {st : BackingStore} {n got : Nat}
    (hs : (s.unit k).backingStore = some st) (hg : got = deliveredBytes st st.readPlan.head? st.pos n) :
    storeRead k n s =
      ((st.data.drop st.pos).take got,
        (s.setStore k { st with pos := st.pos + got, readPlan := st.readPlan.tail }).emit (.storeRead k n got)) := by
  have hl : st.readLimit n = min (st.readPlan.head?.getD n) n := by
    unfold BackingStore.readLimit
    cases st.readPlan <;> simp
  have hb : st.readBytes n = (st.data.drop st.pos).take got := by
    rw [BackingStore.readBytes, hl, hg, deliveredBytes, List.take_eq_take_iff, List.length_drop]
    omega
  have hlen : ((st.data.drop st.pos).take got).length = got := by
    rw [List.length_take, List.length_drop, hg, deliveredBytes]
    omega
  rw [storeRead_of_some hs]
  simp only [BackingStore.read, hb, hlen]

/-- A reference store takes all bytes offered. -/
theorem storeWrite_reference {k : UnitId} {s : State} {data : List Byte} {pos : Nat} (bytes : List Byte)
    (hs : (s.unit k).backingStore = some ⟨data, pos, [], [], []⟩) :
    storeWrite k bytes s =
      (bytes.length,
        (s.setStore k ⟨BackingStore.overwrite data pos bytes, pos + bytes.length, [], [], []⟩).emit
          (.storeWrite k bytes.length bytes.length)) := by
  rw [storeWrite_of_some hs, BackingStore.write_reference _ _ rfl]

/-- A store whose next answer is not short takes all bytes offered, as a reference store does. -/
theorem storeWrite_full {k : UnitId} {s : State} {st : BackingStore} {bytes : List Byte}
    (hs : (s.unit k).backingStore = some st) (ha : ∀ a, st.writePlan.head? = some a → bytes.length ≤ a.accepted) :
    storeWrite k bytes s =
      (bytes.length,
        (s.setStore k
          { st with
            data := BackingStore.overwrite st.data st.pos bytes
            pos := st.pos + bytes.length, writePlan := st.writePlan.tail }).emit
          (.storeWrite k bytes.length bytes.length)) := by
  have hc : st.acceptedCount bytes.length = bytes.length := by
    unfold BackingStore.acceptedCount BackingStore.writeAnswer
    split
    · exact Nat.min_self _
    · exact Nat.min_eq_right (ha _ (by simp [*]))
  rw [storeWrite_of_some hs]
  simp [BackingStore.write, hc, BackingStore.writtenBytes_of_full st bytes hc]

/-- A store whose next answer is short takes that many bytes. -/
theorem storeWrite_short {k : UnitId} {s : State} {st : BackingStore} {a : WriteAnswer} {rest : List WriteAnswer}
    {bytes : List Byte} (hs : (s.unit k).backingStore = some st) (hp : st.writePlan = a :: rest)
    (hlt : a.accepted < bytes.length) :
    storeWrite k bytes s =
      (a.accepted,
        (s.setStore k
          { st with
            data := BackingStore.overwrite st.data st.pos
              (bytes.take a.accepted ++ a.tail.take (bytes.length - a.accepted))
            pos := st.pos + a.accepted, writePlan := rest }).emit (.storeWrite k bytes.length a.accepted)) := by
  have hm : min a.accepted bytes.length = a.accepted := by omega
  rw [storeWrite_of_some hs]
  simp [BackingStore.write, BackingStore.writtenBytes, BackingStore.acceptedCount, BackingStore.writeAnswer, hp, hm]

/-- What a write left on the medium (45_unit_management.md R131, R132). -/
theorem overwrite_written (data bytes : List Byte) (pos : Nat) :
    Written data (BackingStore.overwrite data pos bytes) pos bytes := by
  refine ⟨?_, fun i hi => BackingStore.overwrite_at data bytes pos hi, ?_,
    fun i h1 h2 => BackingStore.overwrite_before data bytes h2 h1,
    fun i _ h2 => BackingStore.overwrite_after data bytes h2⟩
  · cases bytes with
    | nil => rfl
    | cons x xs =>
      simp [BackingStore.overwrite]
      omega
  · intro i hne h1 h2
    cases bytes with
    | nil => exact absurd rfl hne
    | cons x xs =>
      simp only [BackingStore.overwrite, List.append_assoc]
      rw [List.getElem?_append_right (by rw [List.length_take]; omega),
        List.getElem?_append_left (by rw [List.length_take, List.length_replicate]; omega),
        List.getElem?_replicate, if_pos]
      rw [List.length_take]
      omega

/-! ## One iteration -/

/-- The advance looks at no more than the counters and the two counts. -/
theorem advanceChs_congr {u v : DiskUnit} {x y : Transfer} (hS : v.sectorsPerTrack = u.sectorsPerTrack)
    (hH : v.heads = u.heads) (hc : y.cylinder = x.cylinder) (hh : y.head = x.head) (hs : y.sector = x.sector) :
    (advanceChs v y).cylinder = (advanceChs u x).cylinder ∧ (advanceChs v y).head = (advanceChs u x).head ∧
      (advanceChs v y).sector = (advanceChs u x).sector := by
  unfold advanceChs
  rw [hS, hH, hh, hs]
  split
  · split <;> simp [hc]
  · simp [hc]

/-- The memory of a transfer: from an even address with at most 65534 bytes to move, the remaining count falls by at least
the bytes of the words written, which lie one after the other from the address on, and no other byte changes. -/
def InsideTransfer (s t : State) : Prop :=
  s.xfer.dma.getLsbD 0 = false → s.xfer.remaining ≤ 65534 →
    ∃ n, 2 * n + t.xfer.remaining ≤ s.xfer.remaining ∧ t.xfer.dma = dmaAt s.xfer.dma n ∧
      ∀ x, (∀ i, i < 2 * n → x ≠ dmaByte s.xfer.dma i) → Memory.readByte t.mem x = Memory.readByte s.mem x

theorem InsideTransfer.refl (s : State) : InsideTransfer s s := fun _ _ => ⟨0, by omega, by simp, fun _ _ => rfl⟩

theorem InsideTransfer.trans {s t u : State} (h : InsideTransfer s t) (g : InsideTransfer t u) : InsideTransfer s u := by
  intro hd hr
  obtain ⟨n, n1, n2, n3⟩ := h hd hr
  obtain ⟨m, m1, m2, m3⟩ := g (by rw [n2]; exact dmaAt_even hd n) (by omega)
  refine ⟨n + m, by omega, by rw [m2, n2, dmaAt_add], fun x hx => ?_⟩
  rw [m3 x, n3 x fun i hi => hx i (by omega)]
  intro i hi
  rw [n2, dmaByte_dmaAt]
  exact hx _ (by omega)

/-- One iteration of Read Data keeps memory outside the transfer, however it ends (44_commands_data.md R119). -/
theorem readSector_inside (k : UnitId) (ti : Bool) (s : State) : InsideTransfer s (readSector k ti s).state := by
  intro hd hr
  have hx : (storeRead k (chunk k s) s).2.xfer = s.xfer := by
    unfold storeRead
    split <;> rfl
  have loaded : ∀ bytes s1, loadBuffer bytes (storeRead k (chunk k s) s).2 = s1 →
      s1.xfer.dma = s.xfer.dma ∧ s1.xfer.remaining = s.xfer.remaining ∧ s1.mem = s.mem := by
    rintro bytes s1 rfl
    refine ⟨?_, ?_, storeRead_mem _ _ _⟩
    · change (storeRead k (chunk k s) s).2.xfer.dma = _
      rw [hx]
    · change (storeRead k (chunk k s) s).2.xfer.remaining = _
      rw [hx]
  have hc : chunk k s ≤ s.xfer.remaining := Nat.min_le_left _ _
  unfold readSector
  split
  · exact InsideTransfer.refl s hd hr
  · dsimp only
    generalize hb : (storeRead k (chunk k s) s).1 = bytes
    generalize hs1 : loadBuffer bytes (storeRead k (chunk k s) s).2 = s1
    obtain ⟨h1, h2, h3⟩ := loaded bytes s1 hs1
    split
    · rename_i hlen
      simp only [Iteration.state]
      cases ti with
      | true =>
        refine ⟨0, ?_, ?_, fun x _ => ?_⟩
        · rw [nextSector_remaining]
          simp only [if_true, h2]
          omega
        · change (advanceChs _ _).dma = _
          rw [advanceChs_dma, dmaAt_zero]
          exact h1
        · change Memory.readByte s1.mem x = _
          rw [h3]
      | false =>
        have hw := dmaWriteWords_stored (packWords bytes) s1 (by rw [h1]; exact hd) (by rw [packWords_length]; omega)
        have hxf := dmaWriteWords_xfer (packWords bytes) s1 (by rw [h1]; exact hd)
        refine ⟨(packWords bytes).length, ?_, ?_, fun x hxn => ?_⟩
        · rw [nextSector_remaining, packWords_length]
          simp only [Bool.false_eq_true, if_false, hxf, h2]
          omega
        · change (advanceChs _ _).dma = _
          rw [advanceChs_dma]
          simp only [Bool.false_eq_true, if_false, hxf, h1]
        · change Memory.readByte (dmaWriteWords (packWords bytes) s1).mem x = _
          rw [hw.2 x, h3]
          intro i hi
          rw [h1]
          exact hxn i (by rw [unpackWords_length] at hi; exact hi)
    · exact ⟨0, by simp [Iteration.state, h2], by rw [dmaAt_zero]; exact h1, fun x _ => by simp only [Iteration.state, h3]⟩

/-- The whole loop of Read Data keeps memory outside the transfer, however it ends. -/
theorem readLoop_inside {k : UnitId} {ti : Bool} {fuel : Nat} {s t : State} {o : CmdOutcome}
    (h : sectorLoop (readSector k ti) fuel s = .ended o t) : InsideTransfer s t :=
  (sectorLoop_ended InsideTransfer.refl (fun _ _ _ => InsideTransfer.trans) (readSector_inside k ti) h).1

/-- One iteration of Read Data whose store read is not short: the bytes are in memory unless `TI`, and the counters have
advanced (44_commands_data.md R119). -/
theorem readSector_full {k : UnitId} {ti : Bool} {u : DiskUnit} {s : State} {st : BackingStore} {n : Nat}
    (hu : s.unit k = { u with backingStore := some st }) (ha : admittedSectorSize u = true)
    (hd : s.xfer.dma.getLsbD 0 = false) (he : s.xfer.remaining % 2 = 0)
    (hc : s.xfer.cylinder ≤ u.cylinders.toNat) (hn : n = min s.xfer.remaining u.bytesPerSector.toNat)
    (hp : deliveredBytes st st.readPlan.head? st.pos n = n) :
    ∃ t, readSector k ti s = .again t ∧
      t.unit k = { u with backingStore := some { st with pos := st.pos + n, readPlan := st.readPlan.tail } } ∧
      t.xfer.remaining = s.xfer.remaining - n ∧ t.xfer.cylinder = (advanceChs u s.xfer).cylinder ∧
      t.xfer.head = (advanceChs u s.xfer).head ∧ t.xfer.sector = (advanceChs u s.xfer).sector ∧
      t.xfer.dma = (if ti then s.xfer.dma else dmaAt s.xfer.dma (n / 2)) ∧
      Stored s.mem t.mem s.xfer.dma (if ti then [] else (st.data.drop st.pos).take n) ∧
      (dmaWrites t.trace).length = (dmaWrites s.trace).length + (if ti then 0 else n / 2) := by
  obtain ⟨hB, -, hB'⟩ := (admittedSectorSize_iff u).1 ha
  have hck : chunk k s = n := by simp [chunk, hu, hn]
  have hlen : ((st.data.drop st.pos).take n).length = n := by
    rw [List.length_take, List.length_drop]
    unfold deliveredBytes at hp
    omega
  have hcc : ¬ s.xfer.cylinder > (s.unit k).cylinders.toNat := by
    rw [hu]
    simpa using hc
  unfold readSector
  rw [hck, storeRead_delivers (got := n) (by rw [hu]) hp.symm]
  simp only [hcc, if_false, hlen, if_true]
  generalize hs1 :
    loadBuffer ((st.data.drop st.pos).take n)
      ((s.setStore k { st with pos := st.pos + n, readPlan := st.readPlan.tail }).emit (.storeRead k n n)) = s1
  have x1 : s1.xfer.dma = s.xfer.dma ∧ s1.xfer.remaining = s.xfer.remaining ∧
      s1.xfer.cylinder = s.xfer.cylinder ∧ s1.xfer.head = s.xfer.head ∧ s1.xfer.sector = s.xfer.sector := by
    subst hs1
    exact ⟨rfl, rfl, rfl, rfl, rfl⟩
  have u1 : s1.unit k = { u with backingStore := some { st with pos := st.pos + n, readPlan := st.readPlan.tail } } := by
    subst hs1
    simp [hu]
  have m1 : s1.mem = s.mem ∧ dmaWrites s1.trace = dmaWrites s.trace := by
    subst hs1
    exact ⟨rfl, rfl⟩
  generalize hs2 : (if ti then s1 else dmaWriteWords (packWords ((st.data.drop st.pos).take n)) s1) = s2
  have u2 : s2.unit k = s1.unit k := by
    subst hs2
    split
    · rfl
    · exact dmaWriteWords_unit _ _ _
  have x2 : s2.xfer = { s1.xfer with dma := if ti then s.xfer.dma else dmaAt s.xfer.dma (n / 2) } := by
    subst hs2
    split
    · simp [← x1.1]
    · rw [dmaWriteWords_xfer _ _ (by rw [x1.1]; exact hd), packWords_length, hlen, x1.1]
  have m2 : Stored s.mem s2.mem s.xfer.dma (if ti then [] else (st.data.drop st.pos).take n) := by
    subst hs2
    split
    · rw [m1.1]
      exact Stored.refl _ _
    · have h := dmaWriteWords_stored (packWords ((st.data.drop st.pos).take n)) s1 (by rw [x1.1]; exact hd)
        (by rw [packWords_length, hlen]; omega)
      rw [unpackWords_packWords _ (by rw [hlen]; omega), m1.1, x1.1] at h
      exact h
  have w2 : (dmaWrites s2.trace).length = (dmaWrites s.trace).length + (if ti then 0 else n / 2) := by
    subst hs2
    split
    · rw [m1.2, Nat.add_zero]
    · rw [(dmaWriteWords_trace _ s1 (by rw [x1.1]; exact hd)).1, m1.2, List.length_append, List.length_zip,
        List.length_map, List.length_range, Nat.min_self, packWords_length, hlen]
  have ad := advanceChs_congr (u := u) (v := s2.unit k) (x := s.xfer)
    (y := { s2.xfer with remaining := s2.xfer.remaining - n }) (by rw [u2, u1]) (by rw [u2, u1])
    (by rw [x2]; exact x1.2.2.1) (by rw [x2]; exact x1.2.2.2.1) (by rw [x2]; exact x1.2.2.2.2)
  refine ⟨_, rfl, ?_, ?_, ad.1, ad.2.1, ad.2.2, ?_, m2, w2⟩
  · rw [nextSector_unit, u2, u1]
  · rw [nextSector_remaining, x2]
    exact congrArg (· - n) x1.2.1
  · change (advanceChs _ _).dma = _
    rw [advanceChs_dma, x2]

/-- One iteration of Read Data whose store read is short: nothing reaches memory (44_commands_data.md R119). -/
theorem readSector_short {k : UnitId} {ti : Bool} {u : DiskUnit} {s : State} {st : BackingStore} {n got : Nat}
    (hu : s.unit k = { u with backingStore := some st }) (hc : s.xfer.cylinder ≤ u.cylinders.toNat)
    (hn : n = min s.xfer.remaining u.bytesPerSector.toNat)
    (hg : got = deliveredBytes st st.readPlan.head? st.pos n) (hlt : got < n) :
    ∃ t, readSector k ti s = .stop .shortRead t ∧
      t.unit k = { u with backingStore := some { st with pos := st.pos + got, readPlan := st.readPlan.tail } } ∧
      t.mem = s.mem ∧ dmaWrites t.trace = dmaWrites s.trace := by
  have hck : chunk k s = n := by simp [chunk, hu, hn]
  have hcc : ¬ s.xfer.cylinder > (s.unit k).cylinders.toNat := by
    rw [hu]
    simpa using hc
  have hlen : ((st.data.drop st.pos).take got).length ≠ n := by
    rw [List.length_take]
    omega
  unfold readSector
  rw [hck, storeRead_delivers (by rw [hu]) hg]
  simp only [hcc, if_false, hlen]
  exact ⟨_, rfl, by simp [hu], rfl, rfl⟩

/-- One iteration of Read Data on a reference store that holds the bytes (44_commands_data.md R119). -/
theorem readSector_reference {k : UnitId} {ti : Bool} {u : DiskUnit} {s : State} {data : List Byte} {pos n : Nat}
    (hu : s.unit k = { u with backingStore := some ⟨data, pos, [], [], []⟩ }) (ha : admittedSectorSize u = true)
    (hd : s.xfer.dma.getLsbD 0 = false) (he : s.xfer.remaining % 2 = 0)
    (hc : s.xfer.cylinder ≤ u.cylinders.toNat) (hn : n = min s.xfer.remaining u.bytesPerSector.toNat)
    (hp : pos + n ≤ data.length) :
    ∃ t, readSector k ti s = .again t ∧ t.unit k = { u with backingStore := some ⟨data, pos + n, [], [], []⟩ } ∧
      t.xfer.remaining = s.xfer.remaining - n ∧ t.xfer.cylinder = (advanceChs u s.xfer).cylinder ∧
      t.xfer.head = (advanceChs u s.xfer).head ∧ t.xfer.sector = (advanceChs u s.xfer).sector ∧
      t.xfer.dma = (if ti then s.xfer.dma else dmaAt s.xfer.dma (n / 2)) ∧
      Stored s.mem t.mem s.xfer.dma (if ti then [] else (data.drop pos).take n) := by
  obtain ⟨t, h1, h2, h3, h4, h5, h6, h7, h8, -⟩ := readSector_full (ti := ti) hu ha hd he hc hn
    (by simp [deliveredBytes]; omega)
  exact ⟨t, h1, h2, h3, h4, h5, h6, h7, h8⟩

/-- One iteration of Write Data up to the store's answer: the sector is the bytes fetched and zero bytes, whatever the
store answers (44_commands_data.md R120). -/
theorem writeSector_fetches {k : UnitId} {u : DiskUnit} {st : BackingStore} {s : State} {n : Nat}
    (hu : s.unit k = { u with backingStore := some st }) (ha : admittedSectorSize u = true)
    (hd : s.xfer.dma.getLsbD 0 = false) (he : s.xfer.remaining % 2 = 0)
    (hc : s.xfer.cylinder ≤ u.cylinders.toNat) (hn : n = min s.xfer.remaining u.bytesPerSector.toNat) :
    ∃ s1, s1.unit k = s.unit k ∧ s1.mem = s.mem ∧ s1.xfer.remaining = s.xfer.remaining ∧
      s1.xfer.dma = dmaAt s.xfer.dma (n / 2) ∧ s1.xfer.cylinder = s.xfer.cylinder ∧
      s1.xfer.head = s.xfer.head ∧ s1.xfer.sector = s.xfer.sector ∧
      (dmaReads s1.trace).length = (dmaReads s.trace).length + n / 2 ∧
      let bytes := memoryBytes s.mem s.xfer.dma n ++ List.replicate (u.bytesPerSector.toNat - n) 0#8
      writeSector k s =
        if (storeWrite k bytes s1).1 = u.bytesPerSector.toNat then .again (nextSector k n (storeWrite k bytes s1).2)
        else .stop .shortWrite (storeWrite k bytes s1).2 := by
  obtain ⟨hB, -, -⟩ := (admittedSectorSize_iff u).1 ha
  have hck : chunk k s = n := by simp [chunk, hu, hn]
  have hcc : ¬ s.xfer.cylinder > (s.unit k).cylinders.toNat := by
    rw [hu]
    simpa using hc
  have hsize : (s.unit k).bytesPerSector.toNat = u.bytesPerSector.toNat := by rw [hu]
  have hx := dmaReadWords_xfer (n / 2) s hd
  have hby := dmaReadWords_bytes (n / 2) s hd
  rw [show 2 * (n / 2) = n by omega] at hby
  have hlen : (memoryBytes s.mem s.xfer.dma n).length = n := memoryBytes_length _ _ _
  have hpad : (paddedSector u.bytesPerSector.toNat (memoryBytes s.mem s.xfer.dma n)).length =
      u.bytesPerSector.toNat := paddedSector_length (by rw [hlen]; omega)
  refine ⟨loadBuffer (paddedSector u.bytesPerSector.toNat (memoryBytes s.mem s.xfer.dma n)) (dmaReadWords (n / 2) s).2,
    dmaReadWords_unit _ _ _, dmaReadWords_mem _ _, ?_, ?_, ?_, ?_, ?_, ?_, ?_⟩
  · change (dmaReadWords (n / 2) s).2.xfer.remaining = _
    rw [hx]
  · change (dmaReadWords (n / 2) s).2.xfer.dma = _
    rw [hx]
  · change (dmaReadWords (n / 2) s).2.xfer.cylinder = _
    rw [hx]
  · change (dmaReadWords (n / 2) s).2.xfer.head = _
    rw [hx]
  · change (dmaReadWords (n / 2) s).2.xfer.sector = _
    rw [hx]
  · change (dmaReads (dmaReadWords (n / 2) s).2.trace).length = _
    rw [(dmaReadWords_trace (n / 2) s hd).1, List.length_append, List.length_map, List.length_range]
  · have hbuf : ∀ s', (loadBuffer (paddedSector u.bytesPerSector.toNat (memoryBytes s.mem s.xfer.dma n)) s').xfer.buffer.take
        u.bytesPerSector.toNat = paddedSector u.bytesPerSector.toNat (memoryBytes s.mem s.xfer.dma n) := by
      intro s'
      change (fillBuffer _ _).take _ = _
      unfold fillBuffer
      rw [List.take_append_of_le_length (by rw [hpad]), List.take_of_length_le (by rw [hpad])]
    unfold writeSector
    simp only [hcc, if_false, hck, hby, hsize, hbuf]
    unfold paddedSector
    rw [hlen]

/-! ## Counting sectors (42_geometry_dma.md R111) -/

/-- No byte needs no sector. -/
theorem ceilDiv_zero {size : Nat} (h : 0 < size) : (0 + size - 1) / size = 0 := by
  rw [Nat.zero_add]
  exact Nat.div_eq_of_lt (by omega)

/-- One iteration takes one sector off the count. -/
theorem ceilDiv_step {size left : Nat} (h : 0 < size) (hl : 0 < left) :
    (left + size - 1) / size = (left - min left size + size - 1) / size + 1 := by
  by_cases g : left ≤ size
  · rw [Nat.min_eq_left g, Nat.sub_self, ceilDiv_zero h, show left + size - 1 = left - 1 + size by omega,
      Nat.add_div_right _ h, Nat.div_eq_of_lt (by omega)]
  · rw [Nat.min_eq_right (by omega), show left + size - 1 = left - size + size - 1 + size by omega,
      Nat.add_div_right _ h]

end Sys2Proof.Machine
end

