-- ==== Sys2Proof/Tests/Slice0.lean ====
section
/-! SUPPORT. Tests on small states, each expected value taken from spec/ (95_test_vectors.md unless said) or worked out by hand
from its rules, and a witness for the hypotheses of every statement. -/

namespace Sys2Proof.Tests

open Sys2Proof Sys2Proof.Machine

/-! ## Helpers -/

def block (w1 w2 w3 w4 w5 w6 : Word) : CommandBlock :=
  blockOfWords { w1 := w1, w2 := w2, w3 := w3, w4 := w4, w5 := w5, w6 := w6 }

/-- What a next state shows. -/
def shows {α : Type} (o : Host.Outcome State Fault Refusal) (f : State → α) : Option α :=
  match o with
  | .next t => some (f t)
  | .fault _ => none
  | .refused _ => none

def completes (o : Host.Outcome State Fault Refusal) : Bool := (shows o fun _ => ()).isSome

def stopsWith (o : Host.Outcome State Fault Refusal) : Option Refusal :=
  match o with
  | .refused r => some r
  | .next _ => none
  | .fault _ => none

theorem completes_next {o : Host.Outcome State Fault Refusal} (h : completes o = true) : ∃ t, o = .next t := by
  cases o with
  | next t => exact ⟨t, rfl⟩
  | fault f => cases h
  | refused r => cases h

theorem stopsWith_refused {o : Host.Outcome State Fault Refusal} {r : Refusal} (h : stopsWith o = some r) :
    o = .refused r := by
  cases o with
  | next t => cases h
  | fault f => cases f
  | refused q =>
    cases h
    rfl

/-- A store of the reference kind with this content. -/
def store (data : List Byte) : BackingStore :=
  { data := data, pos := 0, seekPlan := [], readPlan := [], writePlan := [] }

/-- The header of `G2` and its first eight payload bytes. -/
def g2Start : List Byte :=
  [0x00, 0x00, 0x00, 0x03, 0x00, 0x00, 0x00, 0x02, 0x00, 0x00, 0x00, 0x03, 0x00, 0x00, 0x00, 0x80,
   0x03, 0x0A, 0x11, 0x18, 0x1F, 0x26, 0x2D, 0x34]

/-- A unit with the geometry of `G2`, safe and writable. -/
def g2 : DiskUnit :=
  { backingStore := some (store g2Start), writeProtected := false, unsafeFlag := false, cylinders := 3, heads := 2,
    sectorsPerTrack := 3, bytesPerSector := 128 }

/-- A small drive: 2 cylinders, 1 head, 2 sectors of 4 bytes, and content up to the last sector of cylinder 2. -/
def small : DiskUnit :=
  { backingStore := some (store
      ([0x00, 0x00, 0x00, 0x02, 0x00, 0x00, 0x00, 0x01, 0x00, 0x00, 0x00, 0x02, 0x00, 0x00, 0x00, 0x04] ++
        (List.range 24).map fun i => BitVec.ofNat 8 (0x30 + i))),
    writeProtected := false, unsafeFlag := false, cylinders := 2, heads := 1, sectorsPerTrack := 2,
    bytesPerSector := 4 }

/-- Reset with a drive as unit 0: `w0 = 0080`, as after its attach. -/
def bench (u : DiskUnit) : State :=
  { State.reset with
    regs := { Regs.reset with w0 := 0x0080 }
    units := { Units.reset with u0 := u }
    trace := [] }

def w0w7 (t : State) : Word × Word := (t.regs.w0, t.regs.w7)

def dataOf (t : State) (k : UnitId) : List Byte := ((t.unit k).backingStore.map BackingStore.data).getD []

/-! ## Well-formed terms: an ill-formed one for each check -/

theorem test_wf_regrd : (Instr.regrd 7).wellFormed = true ∧ (Instr.regrd 8).wellFormed = false := by decide
theorem test_wf_regwr : (Instr.regwr 7 0 0).wellFormed = true ∧ (Instr.regwr 8 0 0).wellFormed = false := by decide
theorem test_wf_attach : (Instr.attach 3 (store []) true).wellFormed = true ∧
    (Instr.attach 4 (store []) true).wellFormed = false := by decide
theorem test_wf_detach : (Instr.detach 3).wellFormed = true ∧ (Instr.detach 4).wellFormed = false := by decide

/-! ## Decoding: words written out from 30_encoding.md R60 and R63

`w1 = EXT(2) STROBE(2) TI(1) CMD(3) OFFSET(2) HEAD(6)`, `w2 = RECORD_COUNT(8) SECTOR(8)`,
`w6 = 15:12(4) SEL(4) 7:5(3) DMA_HI(5)`. -/

theorem test_decode_streg : decodeBlock
    { w1 := 0b10_01_0_000_11_000001, w2 := 0x0102, w3 := 3, w4 := 4, w5 := 5, w6 := 0b1010_1000_110_00001 } =
      .streg
        { ext := 2, strobe := 1, ti := false, offset := 3, head := 1, recordCount := 1, sector := 2, cylinder := 3,
          count := 4, dmaLo := 5, selHigh := 10, sel := 8, dmaSpare := 6, dmaHi := 1 } := by decide
theorem test_decode_wrfmt : decodeBlock
    { w1 := 0b00_00_0_001_00_000010, w2 := 0, w3 := 0x0102, w4 := 0, w5 := 0, w6 := 0b0000_0100_000_00000 } =
      .wrfmt
        { ext := 0, strobe := 0, ti := false, offset := 0, head := 2, recordCount := 0, sector := 0,
          cylinder := 0x0102, count := 0, dmaLo := 0, selHigh := 0, sel := 4, dmaSpare := 0, dmaHi := 0 } := by decide
theorem test_decode_rddata : decodeBlock
    { w1 := 0b00_00_1_010_00_000100, w2 := 0xFF80, w3 := 1, w4 := 0x8000, w5 := 1, w6 := 0b0000_0010_000_10000 } =
      .rddata
        { ext := 0, strobe := 0, ti := true, offset := 0, head := 4, recordCount := 0xFF, sector := 0x80,
          cylinder := 1, count := 0x8000, dmaLo := 1, selHigh := 0, sel := 2, dmaSpare := 0, dmaHi := 16 } := by decide
theorem test_decode_wrdata : decodeBlock
    { w1 := 0b00_00_0_011_00_001000, w2 := 1, w3 := 0x8000, w4 := 1, w5 := 0x8000, w6 := 0b0000_0001_000_00010 } =
      .wrdata
        { ext := 0, strobe := 0, ti := false, offset := 0, head := 8, recordCount := 0, sector := 1,
          cylinder := 0x8000, count := 1, dmaLo := 0x8000, selHigh := 0, sel := 1, dmaSpare := 0, dmaHi := 2 } := by
  decide
theorem test_decode_ufread : decodeBlock
    { w1 := 0b01_00_1_100_00_010000, w2 := 0x0180, w3 := 0, w4 := 6, w5 := 0, w6 := 0b1000_0000_001_00100 } =
      .ufread
        { ext := 1, strobe := 0, ti := true, offset := 0, head := 16, recordCount := 1, sector := 0x80,
          cylinder := 0, count := 6, dmaLo := 0, selHigh := 8, sel := 0, dmaSpare := 1, dmaHi := 4 } := by decide
theorem test_decode_ufwrite : decodeBlock
    { w1 := 0b00_10_0_101_01_100000, w2 := 0, w3 := 0, w4 := 0, w5 := 0, w6 := 0b0001_0000_100_01000 } =
      .ufwrite
        { ext := 0, strobe := 2, ti := false, offset := 1, head := 32, recordCount := 0, sector := 0,
          cylinder := 0, count := 0, dmaLo := 0, selHigh := 1, sel := 0, dmaSpare := 4, dmaHi := 8 } := by decide
theorem test_decode_seek : decodeBlock
    { w1 := 0b11_00_0_110_10_000000, w2 := 0x8000, w3 := 0xFFFF, w4 := 0, w5 := 0, w6 := 0 } =
      .seek
        { ext := 3, strobe := 0, ti := false, offset := 2, head := 0, recordCount := 0x80, sector := 0,
          cylinder := 0xFFFF, count := 0, dmaLo := 0, selHigh := 0, sel := 0, dmaSpare := 0, dmaHi := 0 } := by decide
theorem test_decode_restore : decodeBlock
    { w1 := 0b00_11_0_111_00_111111, w2 := 0, w3 := 0, w4 := 0, w5 := 0, w6 := 0b0000_1111_000_00000 } =
      .restore
        { ext := 0, strobe := 3, ti := false, offset := 0, head := 63, recordCount := 0, sector := 0,
          cylinder := 0, count := 0, dmaLo := 0, selHigh := 0, sel := 15, dmaSpare := 0, dmaHi := 0 } := by decide

/-- The bundles of spec/opcode_table.json: REGRD `iii`, REGWR `lliiivvvvvvvvvvvvvvvv`. -/
theorem test_decode_regrd : decode [0b00000_101] = .ok (.regrd 5) := by decide
theorem test_decode_regwr : decode [0b000_10_011, 0xAB, 0xCD] = .ok (.regwr 3 0xABCD 2) := by decide
theorem test_decode_refuses : decode [0b00001_101] = .error .regrdBundleTooWide ∧
    decode [0b001_10_011, 0xAB, 0xCD] = .error .regwrBundleTooWide ∧
    decode [] = .error (.noFormOfLength 0) ∧ decode [0, 0] = .error (.noFormOfLength 2) := by decide

/-- The host's probe: each command word decodes to its row and runs as the first step after reset. -/
theorem test_table_words : ([0x0000, 0x0100, 0x0200, 0x0300, 0x0400, 0x0500, 0x0600, 0x0700].map fun w =>
      ((decodeTableWord 16 w).map encode == some (encode (commandOfField (BitVec.ofNat 3 (w / 256))
        (blockOfWords (tableBlock w)))), shows (step (State.reset.withFetchWord 16 w)) w0w7)) =
    [(true, some (0x0000, 0xA100)), (true, some (0x0000, 0xA100)), (true, some (0x0000, 0xA100)),
     (true, some (0x0000, 0xA100)), (true, some (0x0000, 0xA100)), (true, some (0x0000, 0xA100)),
     (true, some (0x0000, 0xC000)), (true, some (0x0000, 0xA100))] := by decide

/-! ## One step of each instruction -/

/-- V-STR-5, on a unit still unsafe. -/
theorem test_streg_words : shows (exec (.streg (block 0x0000 0 0 6 0x1000 0x0800))
      (bench { g2 with unsafeFlag := true })) (fun t => (dmaWrites t.trace, w0w7 t, (t.unit 0).unsafeFlag)) =
    some ([(0x001000, 0x00C0), (0x001002, 0x0300), (0x001004, 0x1003)], (0x0080, 0xC000), false) := by decide

/-- V-STR-11: the words are truncated to 16 bits. -/
theorem test_streg_truncates : shows (exec (.streg (block 0x0000 0 0 6 0x1000 0x0800))
      (bench { g2 with cylinders := 0x12345, heads := 40, sectorsPerTrack := 300, bytesPerSector := 512 }))
      (fun t => dmaWrites t.trace) =
    some [(0x001000, 0x2C00), (0x001002, 0x2C00), (0x001004, 0x6345)] := by decide

/-- V-UFR-9: an odd address is rounded down and the window wraps. -/
theorem test_ufread_wraps : shows (exec (.ufread (block 0x0401 2 1 6 0xFFFF 0x081F)) (bench g2))
      (fun t => (dmaWrites t.trace, w0w7 t)) =
    some ([(0x1FFFFE, 0x0801), (0x000000, 0x0102), (0x000002, 0x0040)], (0x0080, 0xC000)) := by decide

/-- V-UFR-6: a count of 2 with and without `UFR_COUNT_BOUNDED`. -/
theorem test_ufread_count : [true, false].map (fun bounded =>
      shows (exec (.ufread (block 0x0401 2 1 2 0x3000 0x0800))
        { bench g2 with cfg := { lastUnit := 3, ufrCountBounded := bounded } }) fun t => (dmaWrites t.trace).length) =
    [some 1, some 3] := by decide

/-- V-EX-2 (the trigger word 0x1000 has set `INT_ENABLE`): error interrupt. -/
theorem test_ufwrite_unsupported : shows (exec (.ufwrite (block 0x0500 0 0 0 0 0))
      { State.reset with regs := { Regs.reset with w1 := 0x0500, w7 := 0x1000 } })
      (fun t => (w0w7 t, t.intLevel)) = some ((0x0000, 0xB100), true) := by decide

/-- V-RW-21: an old low byte of `w7` survives, the status byte is cleared at entry. -/
theorem test_seek_entry : shows (exec (.seek (block 0x0600 0 0 0 0 0x0800))
      { State.reset with regs := { Regs.reset with w0 := 0xC000, w7 := 0x0001 } }) w0w7 =
    some (0x0000, 0xC001) := by decide

/-- V-RS-1: the flag is cleared and the store stands at 16. -/
theorem test_restore_home : shows (exec (.restore (block 0x0700 0 0 0 0 0x0800))
      (bench { g2 with unsafeFlag := true }))
      (fun t => (w0w7 t, (t.unit 0).unsafeFlag, (t.unit 0).backingStore.map BackingStore.pos)) =
    some ((0x0080, 0xC000), false, some 16) := by decide

/-- V-RS-6: a reposition that fails. -/
theorem test_restore_fails : shows (exec (.restore (block 0x0700 0 0 0 0 0x0800))
      (bench { g2 with unsafeFlag := true, backingStore := some { store g2Start with seekPlan := [.failed 9] } }))
      (fun t => (w0w7 t, (t.unit 0).unsafeFlag)) = some ((0x1180, 0xA001), false) := by decide

/-- R118 by hand on the small drive: cylinder 2 (`= C`) is positions 16 + 2 * 8 = 32 to 39. -/
theorem test_wrfmt_track : shows (exec (.wrfmt (block 0x0100 0x77 2 0x1234 0 0x0800)) (bench small))
      (fun t => (w0w7 t, ((dataOf t 0).drop 30).take 10)) =
    some ((0x0080, 0xC000), [0x3E, 0x3F, 0, 0, 0, 0, 0, 0, 0, 0]) := by decide

/-- V-WF-12 in small: the second sector's write is accepted only in part. -/
theorem test_wrfmt_short : shows (exec (.wrfmt (block 0x0100 0 0 0 0 0x0800))
      (bench { small with backingStore := small.backingStore.map fun st =>
        { st with writePlan := [{ accepted := 4, tail := [] }, { accepted := 3, tail := [] }] } }))
      (fun t => (w0w7 t, ((dataOf t 0).drop 16).take 8)) =
    some ((0xC080, 0xA001), [0, 0, 0, 0, 0, 0, 0, 0x37]) := by decide

/-- V-RD-11: across the top of the window. -/
theorem test_rddata_wraps : shows (exec (.rddata (block 0x0200 0 0 8 0xFFFC 0x081F)) (bench g2))
      (fun t => (dmaWrites t.trace, w0w7 t, (t.unit 0).backingStore.map BackingStore.pos)) =
    some ([(0x1FFFFC, 0x030A), (0x1FFFFE, 0x1118), (0x000000, 0x1F26), (0x000002, 0x2D34)], (0x0080, 0xC000),
      some 24) := by decide

/-- V-RD-10: cylinder 3 (`= C`) passes the validator and the store has nothing there. -/
theorem test_rddata_short : shows (exec (.rddata (block 0x0200 0 3 4 0 0x0800)) (bench g2))
      (fun t => (dmaWrites t.trace, w0w7 t)) = some ([], (0x0080, 0xA004)) := by decide

/-- R120 by hand on the small drive: sector (0,0,1) is positions 20 to 23; two bytes and zero padding; TI is ignored. -/
theorem test_wrdata_pads : shows (exec (.wrdata (block 0x0B00 1 0 2 0x0400 0x0800))
      { bench small with mem := [(0x0400, 0xA0), (0x0401, 0x07)] })
      (fun t => (dmaReads t.trace, w0w7 t, ((dataOf t 0).drop 19).take 6)) =
    some ([0x000400], (0x0080, 0xC000), [0x33, 0xA0, 0x07, 0, 0, 0x38]) := by decide

/-- V-WD-7 in small: from (2,0,1) the second sector would lie on cylinder 3, and the first stays written. -/
theorem test_wrdata_past_the_end : shows (exec (.wrdata (block 0x0300 1 2 8 0x0400 0x0800))
      { bench small with mem := (List.range 8).map fun i => (0x0400 + i, BitVec.ofNat 8 (0xA0 + i)) })
      (fun t => ((dmaReads t.trace).length, w0w7 t, (dataOf t 0).drop 35)) =
    some (2, (0x0480, 0xA001), [0x43, 0xA0, 0xA1, 0xA2, 0xA3]) := by decide

/-- V-RW-11. -/
theorem test_regrd_reset : [7, 0, 3, 8].map (fun i => shows (exec (.regrd i) State.reset) State.reply) =
    [some (.value 0x8000), some (.value 0), some (.value 0), some (.value 0)] := by decide

/-- V-RW-6, V-RW-7, V-RW-8: byte lanes. -/
theorem test_regwr_lanes : [1, 2, 3].map (fun lanes =>
      shows (exec (.regwr 3 0xABCD lanes) { State.reset with regs := { Regs.reset with w3 := 0x1234 } })
        fun t => t.regs.w3) =
    [some 0xAB34, some 0x12CD, some 0x1234] := by decide

/-- V-RW-17: a trigger with every bit set but `IDLE`; bit 11 stays 0; the line goes low and then high. -/
theorem test_regwr_trigger : shows (exec (.regwr 7 0x7FFF 0)
      { State.reset with regs := { Regs.reset with w1 := 0x0600 }, trace := [] })
      (fun t => (w0w7 t, t.intLevel, sinkLevels t.trace)) =
    some ((0x0000, 0xF7FF), true, [false, true]) := by decide

/-- V-AT-10. -/
theorem test_init : shows (exec .init
      { State.reset with
        regs := { Regs.reset with w0 := 0x009F, w1 := 0x0600, w7 := 0xD000 }
        units := { Units.reset with u0 := { g2 with unsafeFlag := true }, u3 := { g2 with writeProtected := true } }
        intLevel := true
        trace := [] })
      (fun t => (w0w7 t, t.regs.w1, t.intLevel, sinkLevels t.trace, (t.unit 0).unsafeFlag)) =
    some ((0x0090, 0x8000), 0, false, [false], true) := by decide

/-- V-AT-1 with no payload. -/
theorem test_attach_geometry : shows (exec (.attach 2 (store
      [0x00, 0x00, 0x03, 0x32, 0x00, 0x00, 0x00, 0x13, 0x00, 0x00, 0x00, 0x20, 0x00, 0x00, 0x02, 0x00]) false)
      State.reset)
      (fun t => (w0w7 t, t.reply, [(t.unit 2).cylinders, (t.unit 2).heads, (t.unit 2).sectorsPerTrack,
        (t.unit 2).bytesPerSector], (t.unit 2).unsafeFlag)) =
    some ((0x0020, 0x8000), .attached, [818, 19, 32, 512], true) := by decide

/-- V-AT-8: the implicit detach of a failed attach. -/
theorem test_attach_fails : shows (exec (.attach 0 (store
      [0x00, 0x00, 0x00, 0x01, 0x00, 0x00, 0x00, 0x01, 0x00, 0x00, 0x00, 0x01, 0x00, 0x00, 0x02, 0x58]) false)
      (bench g2)) (fun t => (w0w7 t, t.reply, t.unit 0, sinkLevels t.trace)) =
    some ((0x0000, 0x8000), .attachError, DiskUnit.detached, [false]) := by decide

/-- V-ARB-13: the attention line goes, its enables stay. -/
theorem test_detach : shows (exec (.detach 0)
      { bench g2 with regs := { Regs.reset with w0 := 0x008F }, intLevel := true })
      (fun t => (w0w7 t, t.intLevel, t.unit 0)) = some ((0x000F, 0x8000), false, DiskUnit.detached) := by decide

/-! ## Witnesses: a concrete state and operands that meet the hypotheses of each statement -/

/-- A block for cylinder `c`, head `h`, sector `n`, `count` bytes, unit 0. -/
def at0 (h n c count : Word) : CommandBlock := block h n c count 0x0400 0x0800

def readOnlySmall : DiskUnit := { small with writeProtected := true }
def unsafeSmall : DiskUnit := { small with unsafeFlag := true }
def oddSmall : DiskUnit := { small with bytesPerSector := 5 }

/-- The small drive with answers still to come. -/
def planned (f : BackingStore → BackingStore) : DiskUnit :=
  { small with backingStore := small.backingStore.map f }

def smallStore : BackingStore := (small.backingStore).getD (store [])

theorem ready_small (b : CommandBlock) (h : currentUnit 4 b.sel = some 0) : Ready b 0 (bench small) := ⟨h, rfl, rfl⟩

theorem witness_DecodeUndoesEncode :
    ((Instr.regwr 7 0xFFFF 3).wellFormed = true ∧ encode (.regwr 7 0xFFFF 3) = some [0x1F, 0xFF, 0xFF]) ∧
      (encode (.regrd 7)).isSome = true ∧ Command (at0 63 255 0xFFFF 0xFFFF) (.restore (at0 63 255 0xFFFF 0xFFFF)) ∧
      (7 : Nat) ≤ 7 := ⟨by decide, by decide, .restore, by decide⟩

theorem witness_EncodeUndoesDecode : decode [0x1F, 0xFF, 0xFF] = .ok (.regwr 7 0xFFFF 3) := by decide

/-- Every clause, at its lowest and its highest word. -/
theorem witness_CommandFieldSelectsTheCommand : ∀ code : BitVec 3,
    ((code ++ 0x00#8).zeroExtend 16 &&& 0x0700#16 = (code ++ 0x00#8).zeroExtend 16) ∧
      ((0x1F#5 ++ code ++ 0xFF#8 : BitVec 16) &&& 0x0700#16 = (code ++ 0x00#8).zeroExtend 16) := by decide

theorem witness_IgnoredBitsNeverInfluence :
    SameOperands (block 0x0401 0x0002 1 6 0x3000 0x0800) (block 0xF4C1 0xAB02 1 7 0x3001 0xF8E0) ∧
      block 0x0401 0x0002 1 6 0x3000 0x0800 ≠ block 0xF4C1 0xAB02 1 7 0x3001 0xF8E0 :=
  ⟨⟨by decide, by decide, by decide, by decide, by decide, by decide, by decide, by decide⟩, by decide⟩

theorem witness_StepRunsThePendingOperation :
    ({ bench small with pending := [.op .init] }).pending = [.op .init] ∧ (bench small).pending = [] := ⟨rfl, rfl⟩

/-- The trigger clause, and both ways of the other. -/
theorem witness_TriggerWriteRunsTheDecodedCommand :
    ((bench small).regs.w7.getLsbD 15 = true ∧ (mergeWrite 7 (bench small).regs.w7 0x7FFF 0).getLsbD 15 = false) ∧
      (mergeWrite 7 (bench small).regs.w7 0x8000 0).getLsbD 15 = true ∧
      (0x7000#16).getLsbD 15 = false := by decide

theorem witness_TableWordRunsAsTheNextStep : (decodeTableWord 16 0x0700).isSome = true := by decide

theorem witness_HostStoreWritesOneWord :
    ({ bench small with pending := [.hostStore 0xFFFFF 0x1234] }).pending = [.hostStore 0xFFFFF 0x1234] := rfl

theorem witness_out_of_range_index : (8 : Nat) ≤ 8 := by decide

/-- `i = 7` with the high lane preserved, with `IDLE` in the value, and `i` = 0 and 1 and 6. -/
theorem witness_WriteMergesUnderMaskAndLanes : (bench small).regs.w7.getLsbD 15 = true ∧
    (((7 : Fin 8) = 7 → (2#2).getLsbD 1 = true ∨ (0x0000#16).getLsbD 15 = true)) ∧
    (((7 : Fin 8) = 7 → (0#2).getLsbD 1 = true ∨ (0x8000#16).getLsbD 15 = true)) ∧
    ((0 : Fin 8) = 7 → (0#2).getLsbD 1 = true ∨ (0x0000#16).getLsbD 15 = true) ∧
    (1 ≤ (1 : Fin 8).val ∧ (6 : Fin 8).val ≤ 6) := by decide

theorem witness_BusyWritesAreDropped :
    ({ bench small with regs := { Regs.reset with w7 := 0x7FFF } }).regs.w7.getLsbD 15 = false := by decide

/-- A command run (`i` = 7), a write to `w0`, and one to `w6`. -/
theorem witness_MaskFidelity : (bench small).regs.w7.getLsbD 15 = true ∧
    (∃ t, exec (.regwr 7 0x0000 0#2) (bench small) = .next t) ∧ (∃ t, exec (.regwr 7 0xFFFF 0#2) (bench small) = .next t) ∧
    (∃ t, exec (.regwr 0 0xFFFF 0#2) (bench small) = .next t) ∧ ∃ t, exec (.regwr 6 0xFFFF 0#2) (bench small) = .next t :=
  ⟨by decide, completes_next (by decide), completes_next (by decide), completes_next (by decide),
    completes_next (by decide)⟩

theorem witness_LowLaneWriteNeverStartsACommand : (2#2).getLsbD 1 = true ∧ (3#2).getLsbD 1 = true := by decide

theorem witness_AcknowledgeRemovesTheCompletion : (bench small).regs.w7.getLsbD 15 = true ∧
    (0x9000#16).getLsbD 15 = true ∧ (0x9000#16).getLsbD 14 = false ∧ (0x9000#16).getLsbD 13 = false := by decide

/-- A command, a read, a write of every enable. -/
theorem witness_AttentionChangesOnlyByUnitManagement :
    (∃ t, exec (.seek (at0 0 0 0 0)) (bench small) = .next t) ∧ (∃ t, exec (.regrd 0) (bench small) = .next t) ∧
      ∃ t, exec (.regwr 0 0xFFFF 0) (bench small) = .next t :=
  ⟨completes_next (by decide), completes_next (by decide), completes_next (by decide)⟩

theorem witness_TriggerDrivesLowThenFinal : (bench small).regs.w7.getLsbD 15 = true ∧
    (mergeWrite 7 (bench small).regs.w7 0x1000 0).getLsbD 15 = false ∧
    ∃ t, exec (.regwr 7 0x1000 0) (bench small) = .next t := ⟨by decide, by decide, completes_next (by decide)⟩

/-- Each of the eight commands answers a next state on the small drive: for `EveryCommandPostsOneOutcome`,
`CommandFrameHolds` and `DmaMovesInAscendingOrder`. -/
theorem witness_commands : ∀ code : BitVec 3,
    completes (exec (commandOfField code (at0 0 0 0 8)) (bench small)) = true := by decide

/-- No select bit, and a winner at `MAX_UNITS`. -/
theorem witness_NoUnitSelectedTouchesNothing : UnitCommand (block 0 0 0 6 0 0) (.streg (block 0 0 0 6 0 0)) ∧
    currentUnit 4 (block 0 0 0 6 0 0xF0FF).sel = none ∧ currentUnit 2 (block 0 0 0 6 0 0x0300).sel = none :=
  ⟨.streg, by decide, by decide⟩

theorem witness_OfflineUnitIsReported : UnitCommand (block 0 0 0 6 0 0x0100) (.restore (block 0 0 0 6 0 0x0100)) ∧
    currentUnit (bench small).cfg.maxUnits (block 0 0 0 6 0 0x0100).sel = some 3 ∧
    ((bench small).unit 3).backingStore = none := ⟨.restore, by decide, rfl⟩

theorem witness_UnsafeUnitIsReported : SafePackCommand (at0 0 0 0 4) (.ufread (at0 0 0 0 4)) ∧
    currentUnit (bench unsafeSmall).cfg.maxUnits (at0 0 0 0 4).sel = some 0 ∧
    ((bench unsafeSmall).unit 0).backingStore.isSome = true ∧ ((bench unsafeSmall).unit 0).unsafeFlag = true :=
  ⟨.ufread, by decide, rfl, rfl⟩

theorem witness_WriteProtectedUnitIsReported : WriteClassCommand (at0 0 0 9 4) (.wrfmt (at0 0 0 9 4)) ∧
    Ready (at0 0 0 9 4) 0 (bench readOnlySmall) ∧ ((bench readOnlySmall).unit 0).writeProtected = true :=
  ⟨.wrfmt, ⟨by decide, rfl, rfl⟩, rfl⟩

/-- Each clause just outside its inclusive bound, and the bound itself inside. -/
theorem witness_AddressOutOfRangeIsReported : Ready (at0 0 0 3 4) 0 (bench small) ∧
    SafePackCommand (at0 0 0 3 4) (.rddata (at0 0 0 3 4)) ∧ small.writeProtected = false ∧
    (small.cylinders.toNat < (at0 0 0 3 4).cylinder.toNat) ∧
    ((at0 2 0 2 4).cylinder.toNat ≤ small.cylinders.toNat ∧ small.heads.toNat < (at0 2 0 2 4).head.toNat) ∧
    ((at0 1 3 2 4).head.toNat ≤ small.heads.toNat ∧ small.sectorsPerTrack.toNat < (at0 1 3 2 4).sector.toNat) ∧
    Instr.rddata (at0 1 3 2 4) ≠ .wrfmt (at0 1 3 2 4) :=
  ⟨ready_small _ (by decide), .rddata, rfl, by decide, by decide, by decide, by decide⟩

theorem witness_FailedRepositionIsReported :
    Ready (at0 1 2 2 4) 0 (bench (planned fun st => { st with seekPlan := [.failed 9] })) ∧
    ((planned fun st => { st with seekPlan := [.failed 9] }).backingStore.map BackingStore.seekPlan = some [.failed 9]) ∧
    ValidAddress (planned fun st => { st with seekPlan := [.failed 9] }) (at0 1 2 2 4) ∧
    (planned fun st => { st with seekPlan := [.failed 9] }).writeProtected = false :=
  ⟨⟨by decide, rfl, rfl⟩, rfl, by decide, rfl⟩

theorem witness_StoreRegistersReportsTheGeometry :
    currentUnit (bench unsafeSmall).cfg.maxUnits (at0 0 0 0 6).sel = some 0 ∧
      ((bench unsafeSmall).unit 0).backingStore.isSome = true := ⟨by decide, rfl⟩

/-- The bounds are inclusive: each coordinate equal to its count. -/
theorem witness_UnformattedReadEchoesTheAddress : Ready (at0 1 2 2 6) 0 (bench small) ∧
    ValidAddress ((bench small).unit 0) (at0 1 2 2 6) := ⟨ready_small _ (by decide), by decide⟩

/-- The three plans of the statement's clauses. -/
theorem witness_RestoreClearsUnsafeAndSeeksHome :
    currentUnit (bench unsafeSmall).cfg.maxUnits (at0 0 0 0 0).sel = some 0 ∧
    ((bench unsafeSmall).unit 0).backingStore = some smallStore ∧ smallStore.seekPlan = [] ∧
    ((bench (planned fun st => { st with seekPlan := [.moved] })).unit 0).backingStore =
      some { smallStore with seekPlan := [.moved] } ∧
    ((bench (planned fun st => { st with seekPlan := [.failed 0] })).unit 0).backingStore =
      some { smallStore with seekPlan := [.failed 0] } := ⟨by decide, rfl, rfl, rfl, rfl⟩

/-- Cylinder and head equal to their counts. -/
theorem witness_WriteFormatZeroesTheTrack : Ready (at0 1 0 2 0) 0 (bench small) ∧
    ((bench small).unit 0).writeProtected = false ∧ ((bench small).unit 0).backingStore = some smallStore ∧
    Reference smallStore ∧ ValidTrack ((bench small).unit 0) (at0 1 0 2 0) ∧
    admittedSectorSize ((bench small).unit 0) = true :=
  ⟨ready_small _ (by decide), rfl, rfl, ⟨rfl, rfl, rfl⟩, by decide, by decide⟩

/-- The transfer that ends exactly with the last sector of cylinder `C`, and the two starts that are not canonical: for
`ReadDataMovesTheBytes`, `WriteDataStoresWholeSectors` and `WriteThenReadRoundTrip`. -/
theorem witness_transfers : Ready (at0 0 1 2 4) 0 (bench small) ∧ ((bench small).unit 0).writeProtected = false ∧
    ((bench small).unit 0).backingStore = some smallStore ∧ Reference smallStore ∧
    (ValidAddress ((bench small).unit 0) (at0 0 1 2 4) ∧ StaysInside ((bench small).unit 0) (at0 0 1 2 4) ∧
      startPosition small (at0 0 1 2 4) + byteCount (at0 0 1 2 4) ≤ smallStore.data.length) ∧
    (ValidAddress ((bench small).unit 0) (at0 1 0 0 6) ∧ StaysInside ((bench small).unit 0) (at0 1 0 0 6) ∧
      startPosition small (at0 1 0 0 6) + byteCount (at0 1 0 0 6) ≤ smallStore.data.length) ∧
    (ValidAddress ((bench small).unit 0) (at0 0 2 0 6) ∧ StaysInside ((bench small).unit 0) (at0 0 2 0 6) ∧
      startPosition small (at0 0 2 0 6) + byteCount (at0 0 2 0 6) ≤ smallStore.data.length) ∧
    admittedSectorSize ((bench small).unit 0) = true :=
  ⟨ready_small _ (by decide), rfl, rfl, ⟨rfl, rfl, rfl⟩, by decide, by decide, by decide, by decide⟩

/-- A count of 1 is a count of 0; the reposition granted by a planned answer and by the reference store. -/
theorem witness_ZeroByteCountMovesNothing :
    let moved := planned fun st => { st with seekPlan := [.moved] }
    Ready (at0 0 0 0 1) 0 (bench moved) ∧ ((bench moved).unit 0).backingStore = some { smallStore with seekPlan := [.moved] } ∧
    SeekGranted { smallStore with seekPlan := [.moved] } ∧ SeekGranted smallStore ∧
    ValidAddress ((bench moved).unit 0) (at0 0 0 0 1) ∧ admittedSectorSize ((bench moved).unit 0) = true ∧
    byteCount (at0 0 0 0 1) = 0 ∧ ((bench moved).unit 0).writeProtected = false :=
  ⟨⟨by decide, rfl, rfl⟩, rfl, .inr ⟨_, rfl⟩, .inl rfl, by decide, by decide, by decide, rfl⟩

/-- The first sector cut by the environment to three bytes of four and to none; the second, one byte beyond the content
(V-RD-9 in small) and cut by the environment. -/
theorem witness_ShortReadDiscardsTheSector :
    let b := at0 0 0 2 8
    let cut := fun plan data => planned fun st => { st with readPlan := plan, data := st.data.take data }
    let short := fun (u : DiskUnit) (j : Nat) => ∀ st ∈ u.backingStore, SeekGranted st ∧
      j * u.bytesPerSector.toNat < byteCount b ∧ ReachesSector u b j ∧
      (0 < j → startPosition u b + j * u.bytesPerSector.toNat ≤ st.data.length) ∧
      deliveredBytes st st.readPlan[j]? (startPosition u b + j * u.bytesPerSector.toNat)
        (min (byteCount b - j * u.bytesPerSector.toNat) u.bytesPerSector.toNat) <
          min (byteCount b - j * u.bytesPerSector.toNat) u.bytesPerSector.toNat
    Ready b 0 (bench (cut [3] 40)) ∧ ValidAddress (cut [3] 40) b ∧ admittedSectorSize (cut [3] 40) = true ∧
      short (cut [3] 40) 0 ∧ short (cut [0] 40) 0 ∧ short (cut [] 39) 1 ∧ short (cut [4, 3] 40) 1 ∧
      (∀ n l, n < 1 → ([4, 3] : List Nat)[n]? = some l → small.bytesPerSector.toNat ≤ l) := by
  refine ⟨⟨by decide, rfl, rfl⟩, by decide, by decide, ?_, ?_, ?_, ?_, ?_⟩
  · rintro st ⟨⟩
    exact ⟨.inl rfl, by decide⟩
  · rintro st ⟨⟩
    exact ⟨.inl rfl, by decide⟩
  · rintro st ⟨⟩
    exact ⟨.inl rfl, by decide⟩
  · rintro st ⟨⟩
    exact ⟨.inl rfl, by decide⟩
  · intro n l hn hl
    obtain rfl : n = 0 := by omega
    cases hl
    decide

/-- The second sector cut short after a first one accepted whole (V-WF-12 and V-WD-10 in small), and the first one: three of
four bytes, and none, for both commands of the statement. -/
theorem witness_ShortWriteIsReported : ∀ (accepted : Fin 4) (j : Fin 2),
    let a : WriteAnswer := { accepted := accepted.val, tail := [0xEE] }
    let plan : List WriteAnswer := List.replicate j.val { accepted := 4, tail := [] } ++ [a]
    let u := planned fun st => { st with writePlan := plan }
    currentUnit 4 (at0 0 0 2 8).sel = some 0 ∧ u.unsafeFlag = false ∧ u.writeProtected = false ∧
      u.backingStore.map BackingStore.seekPlan = some [] ∧ u.backingStore.map BackingStore.writePlan = some plan ∧
      plan[j.val]? = some a ∧ a.accepted < u.bytesPerSector.toNat ∧
      (∀ c ∈ plan.take j.val, u.bytesPerSector.toNat ≤ c.accepted) ∧ admittedSectorSize u = true ∧
      ValidTrack u (at0 0 0 2 8) ∧ j.val < u.sectorsPerTrack.toNat ∧ ValidAddress u (at0 0 0 2 8) ∧
      j.val * u.bytesPerSector.toNat < byteCount (at0 0 0 2 8) ∧ ReachesSector u (at0 0 0 2 8) j.val := by decide

/-- From the last sector of cylinder `C`, one byte pair more than it holds: for `ReadStopsAfterTheLastCylinder` and
`WriteStopsAfterTheLastCylinder`. -/
theorem witness_past_the_last_cylinder : Ready (at0 0 1 2 6) 0 (bench small) ∧ small.writeProtected = false ∧
    small.backingStore = some smallStore ∧ Reference smallStore ∧
    ValidAddress small (at0 0 1 2 6) ∧ CanonicalStart small (at0 0 1 2 6) ∧ admittedSectorSize small = true ∧
    admittedSectors small < linearSector small (at0 0 1 2 6) + sectorsNeeded small (at0 0 1 2 6) ∧
    startPosition small (at0 0 1 2 6) +
      (admittedSectors small - linearSector small (at0 0 1 2 6)) * small.bytesPerSector.toNat ≤
        smallStore.data.length :=
  ⟨ready_small _ (by decide), rfl, rfl, ⟨rfl, rfl, rfl⟩, by decide, by decide, by decide, by decide, by decide⟩

/-- With bytes to move and with none. -/
theorem witness_InadmissibleGeometryIsRefused : Ready (at0 0 0 0 2) 0 (bench oddSmall) ∧
    oddSmall.backingStore = some smallStore ∧ SeekGranted smallStore ∧ admittedSectorSize oddSmall = false ∧
    oddSmall.writeProtected = false ∧ ValidTrack oddSmall (at0 0 0 0 2) ∧ ValidAddress oddSmall (at0 0 0 0 2) ∧
    Ready (at0 0 0 0 0) 0 (bench oddSmall) ∧ ValidAddress oddSmall (at0 0 0 0 0) :=
  ⟨⟨by decide, rfl, rfl⟩, rfl, .inl rfl, by decide, rfl, by decide, by decide, ⟨by decide, rfl, rfl⟩, by decide⟩

/-- The last canonical sector of a track. -/
theorem witness_AdvanceFollowsTheLinearPosition :
    let x : Transfer := { Transfer.reset with cylinder := 2, head := 0, sector := 1 }
    x.head < small.heads.toNat ∧ x.sector < small.sectorsPerTrack.toNat := by decide

theorem witness_WriteProtectedMediumNeverChanges :
    (∃ t, exec (.wrfmt (at0 0 0 0 4)) (bench readOnlySmall) = .next t) ∧
      ((bench readOnlySmall).unit 0).writeProtected = true ∧
      ∃ t, exec (.rddata (at0 0 0 0 4)) (bench small) = .next t :=
  ⟨completes_next (by decide), rfl, completes_next (by decide)⟩

/-- `bytes_per_sector` 512, the largest that attaches, on the highest unit; a reference store, and one whose answers to
come grant this seek and this read and fail the next ones. -/
theorem witness_AttachInstallsTheImage : (3 : UnitId).val < (bench small).cfg.maxUnits ∧
    ((bench small).unit 3).backingStore = none ∧
    SeekGranted (store ([0, 0, 0, 1, 0, 0, 0, 1, 0, 0, 0, 1, 0, 0, 2, 0] ++ [9])) ∧
    SeekGranted { store [] with seekPlan := [.moved, .failed 0], readPlan := [16, 0] } ∧
    (∀ l, ([16, 0] : List Nat).head? = some l → 16 ≤ l) ∧ ((0 * 256 + 0) * 256 + 2) * 256 + 0 ≤ 512 :=
  ⟨by decide, rfl, .inl rfl, .inr ⟨_, rfl⟩, by intro l hl; cases hl; decide, by decide⟩

/-- Each of the reasons: the header one byte short in content and in what is delivered, and the sector size just above the
bound. -/
theorem witness_FailedAttachLeavesTheUnitDetached :
    (∀ k : UnitId, k.val = 2 → ((bench small).unit k).backingStore = none) ∧ (bench small).cfg.maxUnits ≤ 4 ∧
    ({ store [] with seekPlan := [.failed 0] }).seekPlan = [.failed 0] ∧
    (SeekGranted (store (List.replicate 15 0)) ∧ (store (List.replicate 15 0)).data.length < 16) ∧
    ({ store [] with readPlan := [15] }).readPlan.head? = some 15 ∧
    (SeekGranted (store [0, 0, 0, 1, 0, 0, 0, 1, 0, 0, 0, 1, 0, 0, 2, 1]) ∧
      ((store [0, 0, 0, 1, 0, 0, 0, 1, 0, 0, 0, 1, 0, 0, 2, 1]).data.drop 12).take 4 = [0, 0, 2, 1] ∧
      512 < ((0 * 256 + 0) * 256 + 2) * 256 + 1) :=
  ⟨by decide, by decide, rfl, ⟨.inl rfl, by decide⟩, rfl, .inl rfl, by decide⟩

theorem witness_ReattachDetachesFirst : (0 : UnitId).val < (bench small).cfg.maxUnits ∧
    ((bench small).unit 0).backingStore.isSome = true := ⟨by decide, rfl⟩

theorem witness_DetachEmptiesTheUnit : (3 : UnitId).val < (bench small).cfg.maxUnits ∧
    (bench small).cfg.maxUnits ≤ 4 := by decide

theorem witness_ResetIsInitAfterPowerOn :
    ∀ k : UnitId, ({ State.reset with regs := { Regs.reset with w7 := 0x1234 } }).unit k = DiskUnit.detached := by decide

/-- A state with a unit attached meets the invariant and steps. -/
theorem witness_EveryStepKeepsTheInvariant :
    Inv { bench small with pending := [.op (.regwr 7 0x1000 0)] } ∧
      ∃ t, step { bench small with pending := [.op (.regwr 7 0x1000 0)] } = .next t :=
  ⟨⟨by decide, by decide, by decide, by decide, by decide, by decide, ⟨by decide, List.length_replicate⟩, by decide⟩,
    completes_next (by decide)⟩

theorem witness_OnlyInadmissibleGeometryIsRefused :
    step (State.withBlock (bench oddSmall) { w1 := 0x0200, w2 := 0, w3 := 0, w4 := 2, w5 := 0, w6 := 0x0800 }) =
      .refused .inadmissibleGeometry := stopsWith_refused (by decide)

/-- One unit attached and one attach to come, both admitted. -/
theorem witness_AdmittedRunsNeverStop :
    AllAdmitted (bench small) ∧ PendingAdmitted { bench small with pending := [.op (.attach 1 smallStore true)] } := by
  refine ⟨by decide, ?_⟩
  intro x hx
  rw [List.mem_singleton] at hx
  subst hx
  intro g hg
  have h : (readHeader smallStore).1 =
      some { cylinders := 2, heads := 1, sectorsPerTrack := 2, bytesPerSector := 4 } := by decide
  rw [h] at hg
  cases hg
  decide

end Sys2Proof.Tests
end

section
/-! PROOF. The invariant of the points where the host can act: its parts under each update of the state, and
every step. -/

namespace Sys2Proof.Machine

/-! ## The attention lines, bit by bit (10_state.md R21) -/

theorem attnMask_eq_twoPow : ∀ k : UnitId, attnMask k = BitVec.twoPow 16 (7 - k.val) := by decide

theorem attnMask_getLsbD (k : UnitId) (n : Nat) :
    (attnMask k).getLsbD n = decide (n = 7 - k.val) := by
  have h7 : 7 - k.val < 16 := by omega
  simp [attnMask_eq_twoPow, BitVec.getLsbD_twoPow, h7, eq_comm]

/-- `ATTN[k]` is bit `7 - k` of `w0`. -/
theorem and_attnMask_ne_zero (w : Word) (k : UnitId) :
    decide ((w &&& attnMask k) ≠ 0#16) = w.getLsbD (7 - k.val) := by
  have hne : attnMask k ≠ 0#16 := by
    revert k
    decide
  rw [attnMask_eq_twoPow] at hne ⊢
  rw [BitVec.and_twoPow]
  cases hb : w.getLsbD (7 - k.val) <;> simp [hne]

theorem attentionSound_iff (s : State) :
    AttentionSound s ↔ ∀ k : UnitId, s.regs.w0.getLsbD (7 - k.val) = (s.unit k).backingStore.isSome := by
  simp only [AttentionSound, and_attnMask_ne_zero]

/-- The attention lines are bits 7 to 4 of `w0`: while these stay and no unit comes or goes, the lines stay right. -/
theorem AttentionSound.of_low {s t : State} (h : AttentionSound s)
    (hw : ∀ n, 4 ≤ n → n < 8 → t.regs.w0.getLsbD n = s.regs.w0.getLsbD n)
    (hu : ∀ k, (t.unit k).backingStore.isSome = (s.unit k).backingStore.isSome) : AttentionSound t := by
  rw [attentionSound_iff] at h ⊢
  intro k
  rw [hw _ (by omega) (by omega), hu, h]

/-- The status byte is bits 15 to 8 of `w0`. -/
theorem StatusByteSound.of_high {s t : State} (h : StatusByteSound s)
    (hw : ∀ n, 8 ≤ n → n < 16 → t.regs.w0.getLsbD n = s.regs.w0.getLsbD n) : StatusByteSound t := by
  obtain ⟨h9, hoffline, hunsafe⟩ := h
  refine ⟨?_, ?_, ?_⟩
  · rw [hw 9 (by omega) (by omega), h9]
  · rw [hw 15 (by omega) (by omega), hw 14 (by omega) (by omega), hoffline]
  · rw [hw 12 (by omega) (by omega), hw 8 (by omega) (by omega), hunsafe]

/-- Every outcome leaves one of the patterns of the status byte (60_exceptions.md R156). -/
theorem status_patterns (o : CmdOutcome) : o.status.getLsbD 9 = false ∧
    o.status.getLsbD 15 = o.status.getLsbD 14 ∧ o.status.getLsbD 12 = o.status.getLsbD 8 := by
  cases o <;> decide

/-- No outcome sets the reserved bit of `w7`. -/
theorem detail_reserved (o : CmdOutcome) : o.detail.getLsbD 11 = false := by
  cases o <;> decide

/-! ## The units -/

/-- A write to the descriptor of a unit the controller owns keeps the units sound if what is written is sound. -/
theorem UnitsSound.setUnit {s : State} (h : UnitsSound s) {k : UnitId} {u : DiskUnit} (hk : k.val < s.cfg.maxUnits)
    (hu : UnitSound u) : UnitsSound (s.setUnit k u) := by
  intro j
  by_cases hj : j = k
  · subst hj
    rw [State.unit_setUnit_same]
    exact ⟨hu, fun hge => absurd hk (by simpa using hge)⟩
  · rw [State.unit_setUnit_ne s u hj]
    exact h j

/-- An attached unit is one of the controller's (10_state.md R25). -/
theorem UnitsSound.lt_of_online {s : State} (h : UnitsSound s) {k : UnitId}
    (hon : (s.unit k).backingStore.isSome = true) : k.val < s.cfg.maxUnits := by
  by_contra hge
  rw [(h k).2 (by omega)] at hon
  simp [DiskUnit.detached] at hon

theorem unitSound_detached : UnitSound DiskUnit.detached := ⟨fun _ => rfl, by decide⟩

/-- No unit is attached or detached inside a command. -/
theorem Frame.online {k : UnitId} {s t : State} (h : Frame k s t) (j : UnitId) :
    (t.unit j).backingStore.isSome = (s.unit j).backingStore.isSome := by
  by_cases hj : j = k
  · subst hj
    exact h.drive.online
  · rw [h.others j hj]

/-- The inside of a command on an attached unit keeps the units sound. -/
theorem Frame.unitsSound {k : UnitId} {s t : State} (h : Frame k s t)
    (hon : (s.unit k).backingStore.isSome = true) (hs : UnitsSound s) : UnitsSound t := by
  intro j
  by_cases hj : j = k
  · subst hj
    have hk := hs.lt_of_online hon
    obtain ⟨⟨_, hsize⟩, _⟩ := hs j
    refine ⟨⟨fun hnone => ?_, by rw [h.drive.bytesPerSector]; exact hsize⟩, fun hge => ?_⟩
    · have := h.online j
      simp [hnone, hon] at this
    · rw [h.cfg] at hge
      omega
  · rw [h.others j hj, h.cfg]
    exact hs j

/-! ## Commands -/

/-- The entry keeps the low byte of `w0` and clears the status byte (41_command_execution.md R83). -/
theorem enterCommand_w0_getLsbD (s : State) (n : Nat) :
    (enterCommand s).regs.w0.getLsbD n = (decide (n < 8) && s.regs.w0.getLsbD n) := by
  have low : ∀ n < 16, (0x00FF#16).getLsbD n = decide (n < 8) := by decide
  rw [enterCommand_regs, BitVec.getLsbD_and, Bool.and_comm]
  by_cases hn : n < 16
  · rw [low n hn]
  · rw [BitVec.getLsbD_of_ge _ n (by omega), BitVec.getLsbD_of_ge _ n (by omega), Bool.and_false, Bool.and_false]

/-- The part of the invariant that holds all through a command, while `IDLE` may be clear and the line and the status
byte are still those of the command before. -/
structure BusyInv (s : State) : Prop where
  reserved : s.regs.w7.getLsbD 11 = false
  attention : AttentionSound s
  units : UnitsSound s
  transfer : TransferSound s
  mem : s.mem.wf = true

theorem BusyInv.enterCommand {s : State} (h : BusyInv s) : BusyInv (enterCommand s) := by
  refine ⟨h.reserved, h.attention.of_low (fun n _ h8 => ?_) fun _ => rfl, h.units, h.transfer, h.mem⟩
  rw [enterCommand_w0_getLsbD, decide_eq_true h8, Bool.true_and]

theorem BusyInv.of_frame {k : UnitId} {s t : State} (h : BusyInv s) (hf : Frame k s t)
    (hon : (s.unit k).backingStore.isSome = true) : BusyInv t where
  reserved := by rw [hf.regs]; exact h.reserved
  attention := h.attention.of_low (fun _ _ _ => by rw [hf.regs]) hf.online
  units := hf.unitsSound hon h.units
  transfer := ⟨hf.dma h.transfer.1, hf.buffer (h.units k).1.2 h.transfer.2⟩
  mem := hf.mem h.mem

/-- Completion posting restores the whole invariant, if the entry has cleared the status byte. -/
theorem BusyInv.complete {s : State} (h : BusyInv s) (o : CmdOutcome)
    (hclear : ∀ n, 8 ≤ n → s.regs.w0.getLsbD n = false) : Inv (complete o s) := by
  obtain ⟨h9, hoffline, hunsafe⟩ := status_patterns o
  have hstatus : ∀ n, 8 ≤ n → (Sys2Proof.Machine.complete o s).regs.w0.getLsbD n = o.status.getLsbD n := by
    intro n hn
    rw [complete_regs, BitVec.getLsbD_or, hclear n hn, Bool.false_or]
  refine ⟨Config.admitted_eq_true _, ⟨?_, ?_⟩, ⟨?_, ?_, ?_⟩, rfl, ?_, h.units, h.transfer, h.mem⟩
  · simp [idle, maskIdle]
  · rw [complete_regs, BitVec.getLsbD_or, BitVec.getLsbD_or, h.reserved, detail_reserved]
    rfl
  · rw [hstatus 9 (by omega), h9]
  · rw [hstatus 15 (by omega), hstatus 14 (by omega), hoffline]
  · rw [hstatus 12 (by omega), hstatus 8 (by omega), hunsafe]
  · refine h.attention.of_low (fun n _ h8 => ?_) fun _ => rfl
    rw [complete_regs, BitVec.getLsbD_or, status_low o n h8, Bool.or_false]

/-- A command that ends leaves the invariant, whatever the phase and the status byte it started with. -/
theorem exec_command_inv {b : CommandBlock} {i : Instr} (hc : Command b i) {s t : State} (hs : BusyInv s)
    (h : exec i s = .next t) : Inv t := by
  obtain ⟨o, u, ⟨_, hend⟩, rfl⟩ := exec_command_cases hc h
  have hclear : ∀ n, 8 ≤ n → (enterCommand s).regs.w0.getLsbD n = false := by
    intro n hn
    rw [enterCommand_w0_getLsbD, decide_eq_false (by omega), Bool.false_and]
  obtain rfl | ⟨k, _, hon, hf⟩ := hend
  · exact hs.enterCommand.complete o hclear
  · exact (hs.enterCommand.of_frame hf hon).complete o (by rw [hf.regs]; exact hclear)

theorem Inv.busy {s : State} (h : Inv s) : BusyInv s := by
  obtain ⟨_, ⟨_, hres⟩, _, _, hatt, hunits, hxfer, hmem⟩ := h
  exact ⟨hres, hatt, hunits, hxfer, hmem⟩

/-! ## Register writes -/

/-- The host writes of `w0` only the enables, bits 3 to 0 (10_state.md R14). -/
theorem mergeRegister_w0 (i : Fin 8) (value : Word) (lanes : BitVec 2) (s : State) {n : Nat} (h4 : 4 ≤ n)
    (hn : n < 16) : (mergeRegister i value lanes s).regs.w0.getLsbD n = s.regs.w0.getLsbD n := by
  by_cases hi : i = 0
  · subst hi
    have hm : (writeMask 0).getLsbD n = false := by
      rw [writeMask_getLsbD 0 n hn]
      simp
      omega
    rw [← Regs.get_zero, mergeRegister_get_same, mergeWrite_outside 0 _ _ _ hn hm, Regs.get_zero]
  · rw [← Regs.get_zero, mergeRegister_get_ne (Ne.symm hi), Regs.get_zero]

/-- The host never writes the reserved bit of `w7` (10_state.md R14). -/
theorem mergeRegister_reserved (i : Fin 8) (value : Word) (lanes : BitVec 2) (s : State) :
    (mergeRegister i value lanes s).regs.w7.getLsbD 11 = s.regs.w7.getLsbD 11 := by
  by_cases hi : i = 7
  · subst hi
    rw [← Regs.get_seven, mergeRegister_get_same, mergeWrite_outside 7 _ _ _ (by omega) (by decide), Regs.get_seven]
  · rw [← Regs.get_seven, mergeRegister_get_ne (Ne.symm hi), Regs.get_seven]

theorem BusyInv.mergeRegister {s : State} (h : BusyInv s) (i : Fin 8) (value : Word) (lanes : BitVec 2) :
    BusyInv (mergeRegister i value lanes s) :=
  ⟨(mergeRegister_reserved i value lanes s).trans h.reserved,
    h.attention.of_low (fun _ h4 h8 => mergeRegister_w0 i value lanes s h4 (by omega)) fun _ => rfl,
    h.units, h.transfer, h.mem⟩

/-- A write that triggers nothing leaves an idle controller idle (40_register_access.md R79). -/
theorem mergeRegister_idle {i : Fin 8} {value : Word} {lanes : BitVec 2} {s : State} (h : idle s.regs.w7 = true)
    (ht : triggers i (s.regs.get i) (mergeWrite i (s.regs.get i) value lanes) = false) :
    idle (mergeRegister i value lanes s).regs.w7 = true := by
  rw [← Regs.get_seven]
  by_cases hi : i = 7
  · subst hi
    rw [mergeRegister_get_same]
    simpa [triggers, h] using ht
  · rw [mergeRegister_get_ne (Ne.symm hi), Regs.get_seven, h]

/-- The arbiter runs after every write that could have changed what its function reads (60_exceptions.md R141). -/
theorem arbitrateWrite_line {s : State} (h : LineSound s) (i : Fin 8) (value : Word) (lanes : BitVec 2) :
    LineSound (arbitrateWrite i (mergeRegister i value lanes s)) := by
  by_cases hi : i = 0 ∨ i = 7
  · rw [arbitrateWrite, if_pos hi]
    rfl
  · have h0 := mergeRegister_get_ne (i := i) (j := 0) (by omega) value lanes s
    have h7 := mergeRegister_get_ne (i := i) (j := 7) (by omega) value lanes s
    simp only [Regs.get_zero, Regs.get_seven] at h0 h7
    rw [arbitrateWrite, if_neg hi, LineSound, h0, h7]
    exact h

/-- The arbiter changes nothing a command reads. -/
theorem BusyInv.arbitrateWrite {s : State} (h : BusyInv s) (i : Fin 8) : BusyInv (arbitrateWrite i s) := by
  unfold Sys2Proof.Machine.arbitrateWrite
  split
  · exact ⟨h.reserved, h.attention, h.units, h.transfer, h.mem⟩
  · exact h

theorem execRegwr_inv {index : Nat} {value : Word} {lanes : BitVec 2} {s t : State} (hs : Inv s)
    (h : execRegwr index value lanes s = .next t) : Inv t := by
  obtain ⟨_, ⟨hidle, _⟩, hstatus, hline, _⟩ := id hs
  obtain e | ⟨i, _, e, ht⟩ | ⟨_, _, _, e⟩ := execRegwr_cases index value lanes s
  · cases e.symm.trans h
    exact hs
  · cases e.symm.trans h
    obtain ⟨hres, hatt, hunits, hxfer, hmem⟩ := (hs.busy.mergeRegister i value lanes).arbitrateWrite i
    refine ⟨Config.admitted_eq_true _, ⟨?_, hres⟩, hstatus.of_high fun n h8 hn => ?_,
      arbitrateWrite_line hline i value lanes, hatt, hunits, hxfer, hmem⟩
    · rw [arbitrateWrite_regs]
      exact mergeRegister_idle hidle ht
    · rw [arbitrateWrite_regs]
      exact mergeRegister_w0 i value lanes s (by omega) hn
  · rw [e, executeCommand_eq_exec] at h
    exact exec_command_inv (decodeBlock_command _) ((hs.busy.mergeRegister 7 value lanes).arbitrateWrite 7) h

/-! ## Unit management -/

@[simp] theorem releaseStore_cfg (k : UnitId) (s : State) : (releaseStore k s).cfg = s.cfg := by
  unfold releaseStore
  split <;> rfl

theorem releaseStore_inv {s : State} (hs : Inv s) (k : UnitId) : Inv (releaseStore k s) := by
  unfold releaseStore
  split <;> exact hs

/-- Installing a descriptor with its attention line, or removing both, keeps the invariant
(45_unit_management.md R124, R127). -/
theorem changeUnit_inv {s : State} (hs : Inv s) {k : UnitId} {u : DiskUnit} {w : Word} (hk : k.val < s.cfg.maxUnits)
    (hu : UnitSound u) (hw : ∀ n < 16, w.getLsbD n =
      if n = 7 - k.val then u.backingStore.isSome else s.regs.w0.getLsbD n) :
    Inv (driveSink ((s.setUnit k u).withRegs { s.regs with w0 := w })) := by
  obtain ⟨_, hquiet, hstatus, _, hatt, hunits, hxfer, hmem⟩ := hs
  refine ⟨Config.admitted_eq_true _, hquiet, hstatus.of_high fun n h8 hn => ?_, rfl, ?_,
    hunits.setUnit hk hu, hxfer, hmem⟩
  · exact (hw n hn).trans (if_neg (by omega))
  · rw [attentionSound_iff] at hatt ⊢
    intro j
    refine (hw _ (by omega)).trans ?_
    change _ = ((s.setUnit k u).unit j).backingStore.isSome
    by_cases hj : j = k
    · subst hj
      rw [if_pos rfl, State.unit_setUnit_same]
    · have hne : 7 - j.val ≠ 7 - k.val := fun h => hj (Fin.ext (by omega))
      rw [if_neg hne, State.unit_setUnit_ne s u hj, hatt j]

theorem detachUnit_inv {s : State} (hs : Inv s) {k : UnitId} (hk : k.val < s.cfg.maxUnits) :
    Inv (detachUnit k s) := by
  refine changeUnit_inv (releaseStore_inv hs k) (by rwa [releaseStore_cfg]) unitSound_detached fun n hn => ?_
  rw [BitVec.getLsbD_and, BitVec.getLsbD_not, attnMask_getLsbD]
  by_cases h : n = 7 - k.val
  · simp [h, DiskUnit.detached]
  · simp [h, hn]

theorem installUnit_inv {s : State} (hs : Inv s) {k : UnitId} (hk : k.val < s.cfg.maxUnits) {u : DiskUnit}
    (hu : UnitSound u) (hon : u.backingStore.isSome = true) : Inv (installUnit k u s) := by
  have h : Inv (driveSink ((s.setUnit k u).withRegs { s.regs with w0 := s.regs.w0 ||| attnMask k })) := by
    refine changeUnit_inv hs hk hu fun n hn => ?_
    rw [BitVec.getLsbD_or, attnMask_getLsbD]
    by_cases h : n = 7 - k.val
    · simp [h, hon]
    · simp [h]
  exact h

/-- A header is accepted only with a sector of at most 512 bytes (45_unit_management.md R123, R125). -/
theorem readHeader_bytesPerSector {st : BackingStore} {g : Geometry} (h : (readHeader st).1 = some g) :
    g.bytesPerSector.toNat ≤ Config.maxSectorSize := by
  unfold readHeader at h
  dsimp only at h
  split at h
  · split at h
    · contradiction
    · dsimp only at h
      split at h
      · cases h
        assumption
      · contradiction
  · contradiction

theorem headerEvents_inv {s : State} (hs : Inv s) (k : UnitId) (st : BackingStore) : Inv (headerEvents k st s) := by
  unfold headerEvents
  dsimp only
  split <;> exact hs

@[simp] theorem headerEvents_cfg (k : UnitId) (st : BackingStore) (s : State) : (headerEvents k st s).cfg = s.cfg := by
  unfold headerEvents
  dsimp only
  split <;> rfl

theorem attachDetached_inv {s : State} (hs : Inv s) {k : UnitId} (hk : k.val < s.cfg.maxUnits) (st : BackingStore)
    (readOnly : Bool) : Inv (attachDetached k st readOnly s) := by
  have he := headerEvents_inv hs k st
  unfold attachDetached
  dsimp only
  split
  · exact he
  · rename_i g hg
    exact installUnit_inv he (by rwa [headerEvents_cfg])
      ⟨fun hnone => absurd hnone (Option.some_ne_none _), readHeader_bytesPerSector hg⟩ rfl

@[simp] theorem detachUnit_cfg (k : UnitId) (s : State) : (detachUnit k s).cfg = s.cfg := releaseStore_cfg k s

theorem execAttach_inv {unit : Nat} {store : BackingStore} {readOnly : Bool} {s t : State} (hs : Inv s)
    (h : execAttach unit store readOnly s = .next t) : Inv t := by
  unfold execAttach at h
  split at h
  · cases h
    exact hs
  · rename_i k hu
    cases h
    obtain ⟨rfl, hk⟩ := unitOfNat_some hu
    unfold detachIfAttached
    split
    · exact attachDetached_inv (detachUnit_inv hs hk) (by rwa [detachUnit_cfg]) store readOnly
    · exact attachDetached_inv hs hk store readOnly

theorem execDetach_inv {unit : Nat} {s t : State} (hs : Inv s) (h : execDetach unit s = .next t) : Inv t := by
  unfold execDetach at h
  split at h
  · cases h
    exact hs
  · rename_i k hu
    cases h
    obtain ⟨rfl, hk⟩ := unitOfNat_some hu
    exact detachUnit_inv hs hk

/-! ## Init -/

theorem attentionOf_getLsbD {s : State} (hs : UnitsSound s) (k : UnitId) (n : Nat) :
    (attentionOf k s).getLsbD n = (decide (n = 7 - k.val) && (s.unit k).backingStore.isSome) := by
  unfold attentionOf
  split
  · rename_i h
    rw [attnMask_getLsbD, h.2, Bool.and_true]
  · rename_i h
    have hoff : (s.unit k).backingStore.isSome = false :=
      Bool.eq_false_iff.mpr fun hon => h ⟨hs.lt_of_online hon, hon⟩
    rw [hoff, Bool.and_false, BitVec.getLsbD_zero]

/-- `init` re-derives every attention line and clears all other bits of `w0` (70_reset_and_hazards.md R157). -/
theorem initRegs_w0_getLsbD {s : State} (hs : UnitsSound s) (n : Nat) :
    (initRegs s).w0.getLsbD n = true ↔ ∃ k : UnitId, n = 7 - k.val ∧ (s.unit k).backingStore.isSome = true := by
  simp only [initRegs, BitVec.getLsbD_or, attentionOf_getLsbD hs, Bool.or_eq_true, Bool.and_eq_true,
    decide_eq_true_eq, Fin.exists_fin_succ]
  simp [or_assoc]

theorem execInit_inv {s t : State} (hs : Inv s) (h : execInit s = .next t) : Inv t := by
  cases h
  obtain ⟨_, _, _, _, _, hunits, hxfer, hmem⟩ := hs
  have hquiet : idle maskIdle = true ∧ maskIdle.getLsbD 11 = false := by decide
  have hclear : ∀ n, 8 ≤ n → (initRegs s).w0.getLsbD n = false := by
    intro n h8
    rw [← Bool.not_eq_true, initRegs_w0_getLsbD hunits]
    rintro ⟨k, hk, _⟩
    omega
  refine ⟨Config.admitted_eq_true _, hquiet, ⟨?_, ?_, ?_⟩, rfl, ?_, hunits, hxfer, hmem⟩
  · exact hclear 9 (by omega)
  · exact (hclear 15 (by omega)).trans (hclear 14 (by omega)).symm
  · exact (hclear 12 (by omega)).trans (hclear 8 (by omega)).symm
  · rw [attentionSound_iff]
    intro k
    rw [Bool.eq_iff_iff]
    refine (initRegs_w0_getLsbD hunits _).trans ⟨?_, fun hon => ⟨k, rfl, hon⟩⟩
    rintro ⟨j, hj, hon⟩
    obtain rfl : j = k := Fin.ext (by omega)
    exact hon

/-! ## Every step -/

/-- Every host operation keeps the invariant. -/
theorem exec_hostOp_inv {o : HostOp} {s t : State} (hs : Inv s) (h : exec o.instr s = .next t) : Inv t := by
  cases o with
  | regrd index =>
    cases h
    exact hs
  | regwr index value lanes => exact execRegwr_inv hs h
  | init => exact execInit_inv hs h
  | attach unit store readOnly => exact execAttach_inv hs h
  | detach unit => exact execDetach_inv hs h

/-- A host store changes memory only, and keeps its canonical form (70_reset_and_hazards.md R178). -/
theorem hostStoreWord_inv {s : State} (hs : Inv s) (word : BitVec 20) (value : Word) :
    Inv (hostStoreWord word value s) := by
  obtain ⟨hcfg, hquiet, hstatus, hline, hatt, hunits, hxfer, hmem⟩ := hs
  exact ⟨hcfg, hquiet, hstatus, hline, hatt, hunits, hxfer, Memory.wf_writeWord _ value hmem⟩

/-- What a step can do: wait, run the next host operation, or make the next host store. -/
theorem step_cases {s t : State} (h : step s = .next t) :
    t = s ∨ (∃ o rest, s.pending = .op o :: rest ∧ exec o.instr (s.begin rest) = .next t) ∨
      ∃ word value rest, s.pending = .hostStore word value :: rest ∧ t = hostStoreWord word value (s.begin rest) := by
  unfold step at h
  split at h
  · cases h
    exact .inl rfl
  · exact .inr (.inl ⟨_, _, ‹_›, h⟩)
  · cases h
    exact .inr (.inr ⟨_, _, _, ‹_›, rfl⟩)

/-- Settles O57: the three things a step can do, each keeping the invariant. -/
theorem everyStepKeepsTheInvariant : Obligations.EveryStepKeepsTheInvariant := by
  intro s t hs h
  have hbegin : ∀ rest, Inv (s.begin rest) := fun _ => hs
  obtain rfl | ⟨o, rest, _, h⟩ | ⟨word, value, rest, _, rfl⟩ := step_cases h
  · exact hs
  · exact exec_hostOp_inv (hbegin rest) h
  · exact hostStoreWord_inv (hbegin rest) word value

/-- Settles O56: clause by clause, on the reset state. -/
theorem resetMeetsTheInvariant : Obligations.ResetMeetsTheInvariant := by
  refine ⟨Config.admitted_eq_true _, by decide, by decide, rfl, by decide, fun k => ?_,
    ⟨rfl, List.length_replicate⟩, Memory.wf_reset⟩
  have hdetached : State.reset.unit k = DiskUnit.detached := by
    fin_cases k <;> rfl
  rw [hdetached]
  exact ⟨unitSound_detached, fun _ => rfl⟩

end Sys2Proof.Machine
end

section
/-! PROOF. Nothing an earlier command left in the transient state reaches what an operation does: every field of it
that a command reads has been set by that command before. -/

namespace Sys2Proof.Machine

/-! ## Changes of the transient state that an operation does not see -/

/-- The state with its transient part changed by `g`. -/
def State.mapXfer (g : Transfer → Transfer) (s : State) : State := s.withXfer (g s.xfer)

/-- The change leaves the running DMA address as it is, and does not look at it. -/
def KeepsDma (g : Transfer → Transfer) : Prop := ∀ x d, g { x with dma := d } = { g x with dma := d }

/-- Other operands, unit and sector buffer: what one iteration of the data commands sets or never reads. -/
def scratch (o : CommandBlock) (u : Option UnitId) (buffer : List Byte) (x : Transfer) : Transfer :=
  { x with operands := o, unit := u, buffer := buffer }

/-- Another transient state with the running DMA address kept. -/
def replaceButDma (y x : Transfer) : Transfer := { y with dma := x.dma }

theorem keepsDma_scratch (o : CommandBlock) (u : Option UnitId) (buffer : List Byte) :
    KeepsDma (scratch o u buffer) := fun _ _ => rfl

theorem keepsDma_replaceButDma (y : Transfer) : KeepsDma (replaceButDma y) := fun _ _ => rfl

theorem KeepsDma.dma_eq {g : Transfer → Transfer} (hg : KeepsDma g) (x : Transfer) : (g x).dma = x.dma := by
  have h : g x = { g x with dma := x.dma } := hg x x.dma
  rw [h]

@[simp] theorem State.mapXfer_unit (g : Transfer → Transfer) (s : State) (k : UnitId) :
    (s.mapXfer g).unit k = s.unit k := rfl

section
variable (s : State) (o : CommandBlock) (u : Option UnitId) (buffer : List Byte)

@[simp] theorem mapXfer_scratch_cylinder :
    (s.mapXfer (scratch o u buffer)).xfer.cylinder = s.xfer.cylinder := rfl

@[simp] theorem mapXfer_scratch_remaining :
    (s.mapXfer (scratch o u buffer)).xfer.remaining = s.xfer.remaining := rfl

@[simp] theorem mapXfer_scratch_buffer : (s.mapXfer (scratch o u buffer)).xfer.buffer = buffer := rfl

@[simp] theorem chunk_scratch (k : UnitId) : chunk k (s.mapXfer (scratch o u buffer)) = chunk k s := rfl

end

/-! ## The DMA engine reads and writes only the running address -/

theorem dmaWriteWord_mapXfer {g : Transfer → Transfer} (hg : KeepsDma g) (v : Word) (s : State) :
    dmaWriteWord v (s.mapXfer g) = (dmaWriteWord v s).mapXfer g := by
  have h := hg s.xfer (nextDma s.xfer.dma)
  simp [dmaWriteWord, State.mapXfer, State.withXfer, State.withMem, State.emit, hg.dma_eq, h]

theorem dmaWriteWords_mapXfer {g : Transfer → Transfer} (hg : KeepsDma g) (vs : List Word) (s : State) :
    dmaWriteWords vs (s.mapXfer g) = (dmaWriteWords vs s).mapXfer g := by
  induction vs generalizing s with
  | nil => rfl
  | cons v vs ih =>
    simp only [dmaWriteWords]
    rw [dmaWriteWord_mapXfer hg, ih]

theorem dmaReadWord_mapXfer {g : Transfer → Transfer} (hg : KeepsDma g) (s : State) :
    dmaReadWord (s.mapXfer g) = ((dmaReadWord s).1, (dmaReadWord s).2.mapXfer g) := by
  have h := hg s.xfer (nextDma s.xfer.dma)
  simp [dmaReadWord, State.mapXfer, State.withXfer, State.emit, hg.dma_eq, h]

theorem dmaReadWords_mapXfer {g : Transfer → Transfer} (hg : KeepsDma g) (n : Nat) (s : State) :
    dmaReadWords n (s.mapXfer g) = ((dmaReadWords n s).1, (dmaReadWords n s).2.mapXfer g) := by
  induction n generalizing s with
  | zero => rfl
  | succ n ih =>
    simp only [dmaReadWords]
    rw [dmaReadWord_mapXfer hg, ih]

/-! ## The stores do not see the transient state -/

theorem storeSeek_withXfer (k : UnitId) (pos : Nat) (s : State) (x : Transfer) :
    storeSeek k pos (s.withXfer x) = ((storeSeek k pos s).1, (storeSeek k pos s).2.withXfer x) := by
  unfold storeSeek
  rw [State.withXfer_unit]
  cases (s.unit k).backingStore <;> rfl

theorem storeRead_withXfer (k : UnitId) (n : Nat) (s : State) (x : Transfer) :
    storeRead k n (s.withXfer x) = ((storeRead k n s).1, (storeRead k n s).2.withXfer x) := by
  unfold storeRead
  rw [State.withXfer_unit]
  cases (s.unit k).backingStore <;> rfl

theorem storeWrite_withXfer (k : UnitId) (bytes : List Byte) (s : State) (x : Transfer) :
    storeWrite k bytes (s.withXfer x) = ((storeWrite k bytes s).1, (storeWrite k bytes s).2.withXfer x) := by
  unfold storeWrite
  rw [State.withXfer_unit]
  cases (s.unit k).backingStore <;> rfl

@[simp] theorem storeRead_xfer (k : UnitId) (n : Nat) (s : State) : (storeRead k n s).2.xfer = s.xfer := by
  unfold storeRead
  split <;> rfl

@[simp] theorem storeWrite_xfer (k : UnitId) (bytes : List Byte) (s : State) :
    (storeWrite k bytes s).2.xfer = s.xfer := by
  unfold storeWrite
  split <;> rfl

theorem storeRead_mapXfer (k : UnitId) (n : Nat) (s : State) (g : Transfer → Transfer) :
    storeRead k n (s.mapXfer g) = ((storeRead k n s).1, (storeRead k n s).2.mapXfer g) := by
  rw [State.mapXfer, storeRead_withXfer, State.mapXfer, storeRead_xfer]

theorem storeWrite_mapXfer (k : UnitId) (bytes : List Byte) (s : State) (g : Transfer → Transfer) :
    storeWrite k bytes (s.mapXfer g) = ((storeWrite k bytes s).1, (storeWrite k bytes s).2.mapXfer g) := by
  rw [State.mapXfer, storeWrite_withXfer, State.mapXfer, storeWrite_xfer]

/-! ## One iteration sees of the transient state only the address, the remaining count and the counters -/

theorem loadBuffer_scratch (bytes : List Byte) (s : State) (o : CommandBlock) (u : Option UnitId)
    (buffer : List Byte) : loadBuffer bytes (s.mapXfer (scratch o u buffer)) =
      (loadBuffer bytes s).mapXfer (scratch o u (fillBuffer buffer bytes)) := rfl

@[simp] theorem loadBuffer_buffer (bytes : List Byte) (s : State) :
    (loadBuffer bytes s).xfer.buffer = fillBuffer s.xfer.buffer bytes := rfl

theorem advanceChs_scratch (d : DiskUnit) (x : Transfer) (o : CommandBlock) (u : Option UnitId)
    (buffer : List Byte) : advanceChs d (scratch o u buffer x) = scratch o u buffer (advanceChs d x) := by
  unfold advanceChs scratch
  dsimp only
  split
  · split <;> rfl
  · rfl

theorem nextSector_scratch (k : UnitId) (n : Nat) (s : State) (o : CommandBlock) (u : Option UnitId)
    (buffer : List Byte) : nextSector k n (s.mapXfer (scratch o u buffer)) =
      (nextSector k n s).mapXfer (scratch o u buffer) :=
  congrArg s.withXfer
    (advanceChs_scratch (s.unit k) { s.xfer with remaining := s.xfer.remaining - n } o u buffer)

/-- What an iteration leaves, changed in its transient part. -/
def Iteration.mapXfer (g : Transfer → Transfer) : Iteration → Iteration
  | .again s => .again (s.mapXfer g)
  | .stop o s => .stop o (s.mapXfer g)

/-- The iteration goes the same way whatever operands, unit and sector buffer the transient state holds. -/
def IgnoresScratch (body : State → Iteration) : Prop :=
  ∀ s o u buffer, ∃ buffer', body (s.mapXfer (scratch o u buffer)) = (body s).mapXfer (scratch o u buffer')

theorem readSector_ignoresScratch (k : UnitId) (ti : Bool) : IgnoresScratch (readSector k ti) := by
  intro s o u buffer
  by_cases hcyl : s.xfer.cylinder > (s.unit k).cylinders.toNat
  · refine ⟨buffer, ?_⟩
    simp only [readSector, State.mapXfer_unit, mapXfer_scratch_cylinder, hcyl, if_true]
    rfl
  · refine ⟨fillBuffer buffer (storeRead k (chunk k s) s).1, ?_⟩
    simp only [readSector, State.mapXfer_unit, mapXfer_scratch_cylinder, chunk_scratch, storeRead_mapXfer,
      loadBuffer_scratch, hcyl, if_false]
    split
    · cases ti with
      | true => exact congrArg Iteration.again (nextSector_scratch ..)
      | false =>
        simp only [Bool.false_eq_true, if_false]
        rw [dmaWriteWords_mapXfer (keepsDma_scratch _ _ _), nextSector_scratch]
        rfl
    · rfl

/-- A sector loaded at the buffer's front is read back from it, whatever the buffer held. -/
theorem take_fillBuffer {size : Nat} {bytes : List Byte} (h : bytes.length = size) (buffer : List Byte) :
    (fillBuffer buffer bytes).take size = bytes := by
  rw [fillBuffer, ← h, List.take_left]

theorem writeSector_ignoresScratch (k : UnitId) : IgnoresScratch (writeSector k) := by
  intro s o u buffer
  by_cases hcyl : s.xfer.cylinder > (s.unit k).cylinders.toNat
  · refine ⟨buffer, ?_⟩
    simp only [writeSector, State.mapXfer_unit, mapXfer_scratch_cylinder, hcyl, if_true]
    rfl
  · have hlen := paddedSector_length (fetched_length_le k s)
    refine ⟨fillBuffer buffer (paddedSector (s.unit k).bytesPerSector.toNat
      (unpackWords (dmaReadWords (chunk k s / 2) s).1)), ?_⟩
    simp only [writeSector, State.mapXfer_unit, mapXfer_scratch_cylinder, chunk_scratch,
      dmaReadWords_mapXfer (keepsDma_scratch _ _ _), loadBuffer_scratch, mapXfer_scratch_buffer, loadBuffer_buffer,
      take_fillBuffer hlen, storeWrite_mapXfer, nextSector_scratch, hcyl, if_false]
    split <;> rfl

/-! ## Handlers, their transient state erased -/

/-- How a handler ends, the transient state apart. -/
def Handler.erase : Handler → Handler
  | .ended o s => .ended o (s.withXfer Transfer.reset)
  | .noMeaning r => .noMeaning r

/-- Completion posting does not look at the transient state. -/
theorem observed_finish (h : Handler) : observed h.finish = h.erase.finish := by
  cases h <;> rfl

theorem observed_finish_of_erase {h h' : Handler} (e : h.erase = h'.erase) :
    observed h.finish = observed h'.finish := by
  rw [observed_finish, observed_finish, e]

theorem requireUnit_erase {b : CommandBlock} {s : State} {x : Transfer} {f g : UnitId → Handler}
    (h : ∀ k, (f k).erase = (g k).erase) :
    (requireUnit b (s.withXfer x) f).erase = (requireUnit b s g).erase := by
  unfold requireUnit
  rw [State.withXfer_cfg]
  cases currentUnit s.cfg.maxUnits b.sel with
  | none => rfl
  | some k => exact h k

/-- A check that ends the command early, or goes on: it sees no transient state. -/
theorem check_erase {p : Bool} {o : CmdOutcome} {s : State} {x : Transfer} {f g : Handler} (h : f.erase = g.erase) :
    (if p then Handler.ended o (s.withXfer x) else f).erase = (if p then Handler.ended o s else g).erase := by
  cases p with
  | true => rfl
  | false => exact h

section
variable {k : UnitId} {s : State} {x : Transfer} {f g : Handler}

theorem requireOnline_erase (h : f.erase = g.erase) :
    (requireOnline k (s.withXfer x) f).erase = (requireOnline k s g).erase := check_erase h

theorem requireSafe_erase (h : f.erase = g.erase) :
    (requireSafe k (s.withXfer x) f).erase = (requireSafe k s g).erase := check_erase h

theorem requireWritable_erase (h : f.erase = g.erase) :
    (requireWritable k (s.withXfer x) f).erase = (requireWritable k s g).erase := check_erase h

end

theorem seekUnit_erase {k : UnitId} {c hd sec : Nat} {s : State} {x : Transfer} {f g : State → Handler}
    (h : ∀ t, (f (t.withXfer x)).erase = (g t).erase) :
    (seekUnit k c hd sec (s.withXfer x) f).erase = (seekUnit k c hd sec s g).erase := by
  unfold seekUnit
  rw [State.withXfer_unit, storeSeek_withXfer]
  cases (s.unit k).backingStore with
  | none => rfl
  | some st =>
    cases validate (s.unit k) c hd sec with
    | some o => rfl
    | none =>
      dsimp only
      split
      · exact h _
      · rfl

/-! ## The loops -/

theorem sectorLoop_erase {body : State → Iteration} (hbody : IgnoresScratch body) (fuel : Nat) (s : State)
    (o : CommandBlock) (u : Option UnitId) (buffer : List Byte) :
    (sectorLoop body fuel (s.mapXfer (scratch o u buffer))).erase = (sectorLoop body fuel s).erase := by
  induction fuel generalizing s buffer with
  | zero => rfl
  | succ fuel ih =>
    obtain ⟨buffer', hb⟩ := hbody s o u buffer
    simp only [sectorLoop, hb, mapXfer_scratch_remaining]
    split
    · rfl
    · cases body s with
      | stop o' s1 => rfl
      | again s1 => exact ih s1 buffer'

theorem formatSectors_erase (k : UnitId) (n : Nat) (s : State) (x : Transfer) :
    (formatSectors k n (s.withXfer x)).erase = (formatSectors k n s).erase := by
  induction n generalizing s with
  | zero => rfl
  | succ n ih =>
    simp only [formatSectors, State.withXfer_unit, storeWrite_withXfer]
    split
    · exact ih _
    · rfl

/-- The common tail of Read Data and Write Data sets all that its iterations read. -/
theorem transferSectors_erase {body : State → Iteration} (hbody : IgnoresScratch body) (b : CommandBlock)
    (d : DiskUnit) (s : State) (x : Transfer) :
    (transferSectors b d body (takeAddress b (takeDma b (s.withXfer x)))).erase =
      (transferSectors b d body (takeAddress b (takeDma b s))).erase := by
  unfold transferSectors
  split
  · exact sectorLoop_erase hbody (byteCount b) (takeAddress b (takeDma b s)) x.operands x.unit x.buffer
  · rfl

/-- A command without sector data sets the running address before it moves a word. -/
theorem dmaWriteWords_takeDma_erase (b : CommandBlock) (vs : List Word) (s : State) (x : Transfer) :
    (dmaWriteWords vs (takeDma b (s.withXfer x))).withXfer Transfer.reset =
      (dmaWriteWords vs (takeDma b s)).withXfer Transfer.reset := by
  have h : dmaWriteWords vs (takeDma b (s.withXfer x)) =
      (dmaWriteWords vs (takeDma b s)).mapXfer (replaceButDma x) :=
    dmaWriteWords_mapXfer (keepsDma_replaceButDma x) vs (takeDma b s)
  rw [h]
  rfl

/-! ## The handlers -/

section
variable (b : CommandBlock) (s : State) (x : Transfer)

theorem stregHandler_erase : (stregHandler b (s.withXfer x)).erase = (stregHandler b s).erase :=
  requireUnit_erase fun k => requireOnline_erase <| by
    dsimp only [Handler.erase]
    split
    · rfl
    · exact congrArg _ (dmaWriteWords_takeDma_erase b _ (takeOperands b k (clearUnsafe k s)) _)

theorem ufreadHandler_erase : (ufreadHandler b (s.withXfer x)).erase = (ufreadHandler b s).erase :=
  requireUnit_erase fun k => requireOnline_erase <| requireSafe_erase <| by
    rw [State.withXfer_unit]
    cases validate (s.unit k) b.cylinder.toNat b.head.toNat b.sector.toNat with
    | some o => rfl
    | none =>
      dsimp only [Handler.erase]
      split
      · rfl
      · exact congrArg _ (dmaWriteWords_takeDma_erase b _ (takeOperands b k s) _)

theorem restoreHandler_erase : (restoreHandler b (s.withXfer x)).erase = (restoreHandler b s).erase :=
  requireUnit_erase fun k => requireOnline_erase <|
    seekUnit_erase (s := takeOperands b k (clearUnsafe k s)) fun _ => rfl

theorem wrfmtHandler_erase : (wrfmtHandler b (s.withXfer x)).erase = (wrfmtHandler b s).erase :=
  requireUnit_erase fun k => requireOnline_erase <| requireSafe_erase <| requireWritable_erase <|
    seekUnit_erase (s := takeOperands b k s) fun t => by
      rw [State.withXfer_unit]
      split
      · exact formatSectors_erase k _ t _
      · rfl

theorem rddataHandler_erase : (rddataHandler b (s.withXfer x)).erase = (rddataHandler b s).erase :=
  requireUnit_erase fun k => requireOnline_erase <| requireSafe_erase <|
    seekUnit_erase (s := takeOperands b k s) fun t =>
      transferSectors_erase (readSector_ignoresScratch k b.ti) b (s.unit k) t _

theorem wrdataHandler_erase : (wrdataHandler b (s.withXfer x)).erase = (wrdataHandler b s).erase :=
  requireUnit_erase fun k => requireOnline_erase <| requireSafe_erase <| requireWritable_erase <|
    seekUnit_erase (s := takeOperands b k s) fun t =>
      transferSectors_erase (writeSector_ignoresScratch k) b (s.unit k) t _

end

section
variable (s : State) (x : Transfer)

/-- Every command, whatever the transient state it starts with. -/
theorem exec_command_observed {b : CommandBlock} {i : Instr} (hc : Command b i) :
    observed (exec i (s.withXfer x)) = observed (exec i s) := by
  cases hc with
  | streg => exact observed_finish_of_erase (stregHandler_erase b (enterCommand s) x)
  | wrfmt => exact observed_finish_of_erase (wrfmtHandler_erase b (enterCommand s) x)
  | rddata => exact observed_finish_of_erase (rddataHandler_erase b (enterCommand s) x)
  | wrdata => exact observed_finish_of_erase (wrdataHandler_erase b (enterCommand s) x)
  | ufread => exact observed_finish_of_erase (ufreadHandler_erase b (enterCommand s) x)
  | ufwrite => rfl
  | seek => rfl
  | restore => exact observed_finish_of_erase (restoreHandler_erase b (enterCommand s) x)

/-! ## Host operations -/

theorem arbitrateWrite_withXfer (i : Fin 8) : arbitrateWrite i (s.withXfer x) = (arbitrateWrite i s).withXfer x := by
  unfold arbitrateWrite
  split <;> rfl

theorem executeCommand_observed : observed (executeCommand (s.withXfer x)) = observed (executeCommand s) := by
  rw [executeCommand_eq_exec, executeCommand_eq_exec]
  exact exec_command_observed s x (decodeBlock_command _)

theorem writeRegister_observed (i : Fin 8) (value : Word) (lanes : BitVec 2) :
    observed (writeRegister i value lanes (s.withXfer x)) = observed (writeRegister i value lanes s) := by
  have hmerge : arbitrateWrite i (mergeRegister i value lanes (s.withXfer x)) =
      (arbitrateWrite i (mergeRegister i value lanes s)).withXfer x :=
    arbitrateWrite_withXfer (mergeRegister i value lanes s) x i
  have hbusy : busyGuard i (s.withXfer x) = busyGuard i s := rfl
  unfold writeRegister
  rw [hmerge, hbusy, State.withXfer_regs]
  split
  · rfl
  · split
    · exact executeCommand_observed _ x
    · rfl

theorem releaseStore_withXfer (k : UnitId) : releaseStore k (s.withXfer x) = (releaseStore k s).withXfer x := by
  unfold releaseStore
  rw [State.withXfer_unit]
  cases (s.unit k).backingStore <;> rfl

theorem detachUnit_withXfer (k : UnitId) : detachUnit k (s.withXfer x) = (detachUnit k s).withXfer x := by
  unfold detachUnit
  rw [releaseStore_withXfer]
  rfl

theorem detachIfAttached_withXfer (k : UnitId) :
    detachIfAttached k (s.withXfer x) = (detachIfAttached k s).withXfer x := by
  unfold detachIfAttached
  rw [State.withXfer_unit, detachUnit_withXfer]
  split <;> rfl

theorem headerEvents_withXfer (k : UnitId) (st : BackingStore) :
    headerEvents k st (s.withXfer x) = (headerEvents k st s).withXfer x := by
  unfold headerEvents
  dsimp only
  split <;> rfl

theorem attachDetached_withXfer (k : UnitId) (st : BackingStore) (readOnly : Bool) :
    attachDetached k st readOnly (s.withXfer x) = (attachDetached k st readOnly s).withXfer x := by
  unfold attachDetached
  rw [headerEvents_withXfer]
  cases (readHeader st).1 <;> rfl

theorem execRegwr_observed (index : Nat) (value : Word) (lanes : BitVec 2) :
    observed (execRegwr index value lanes (s.withXfer x)) = observed (execRegwr index value lanes s) := by
  unfold execRegwr
  cases regIndex index with
  | none => rfl
  | some i => exact writeRegister_observed s x i value lanes

theorem execAttach_observed (unit : Nat) (st : BackingStore) (readOnly : Bool) :
    observed (execAttach unit st readOnly (s.withXfer x)) = observed (execAttach unit st readOnly s) := by
  unfold execAttach
  rw [State.withXfer_cfg]
  cases unitOfNat s.cfg.maxUnits unit with
  | none => rfl
  | some k =>
    dsimp only
    rw [detachIfAttached_withXfer, attachDetached_withXfer]
    rfl

theorem execDetach_observed (unit : Nat) :
    observed (execDetach unit (s.withXfer x)) = observed (execDetach unit s) := by
  unfold execDetach
  rw [State.withXfer_cfg]
  cases unitOfNat s.cfg.maxUnits unit with
  | none => rfl
  | some k =>
    dsimp only
    rw [detachUnit_withXfer]
    rfl

end

/-- Settles O49: every operation reads of the transient state only what it has set itself. -/
theorem transientStateIsNeverObserved : Obligations.TransientStateIsNeverObserved := by
  intro i s x
  cases i with
  | streg b => exact exec_command_observed s x (.streg (b := b))
  | wrfmt b => exact exec_command_observed s x (.wrfmt (b := b))
  | rddata b => exact exec_command_observed s x (.rddata (b := b))
  | wrdata b => exact exec_command_observed s x (.wrdata (b := b))
  | ufread b => exact exec_command_observed s x (.ufread (b := b))
  | ufwrite b => exact exec_command_observed s x (.ufwrite (b := b))
  | seek b => exact exec_command_observed s x (.seek (b := b))
  | restore b => exact exec_command_observed s x (.restore (b := b))
  | regrd index => rfl
  | regwr index value lanes => exact execRegwr_observed s x index value lanes
  | init => rfl
  | attach unit store readOnly => exact execAttach_observed s x unit store readOnly
  | detach unit => exact execDetach_observed s x unit

end Sys2Proof.Machine
end

section
/-! PROOF. Host memory: the host's own store, and the order in which a command moves the words of a transfer. -/

namespace Sys2Proof.Machine

/-! ## The host's store (70_reset_and_hazards.md R178) -/

/-- The address of a host store is even. -/
theorem wordAddress_even (word : BitVec 20) : (word ++ 0#1).getLsbD 0 = false := by
  apply even_of_toNat
  rw [append_toNat]
  simp

/-- Settles O10: the step is the store of one word, and `Stored.word` says what that does to memory. -/
theorem hostStoreWritesOneWord : Obligations.HostStoreWritesOneWord := by
  intro s word value rest h
  have hstep : step s = .next (hostStoreWord word value (s.begin rest)) := by
    unfold step
    rw [h]
  exact ⟨_, hstep, Stored.word s.mem (wordAddress_even word) value, rfl, rfl, rfl, rfl, rfl, rfl⟩

/-! ## Addresses an operation has moved words at -/

/-- The addresses of the DMA writes of an operation, in order. -/
def writeAddresses (tr : List Event) : List DmaAddr := (dmaWrites tr).map Prod.fst

/-- From `s` to `t` the operation has seen `n` more words move, in ascending order from `a`; `seen` picks the writes or
the reads (20_memory.md R52). -/
def Appends (seen : List Event → List DmaAddr) (a : DmaAddr) (n : Nat) (s t : State) : Prop :=
  seen t.trace = seen s.trace ++ (List.range n).map (dmaAt a)

section
variable {seen : List Event → List DmaAddr} {a : DmaAddr} {s t u : State}

/-- No word is moved where the addresses seen stay. -/
theorem Appends.none (h : seen t.trace = seen s.trace) : Appends seen a 0 s t := by
  rw [Appends, h]
  simp

/-- What goes before a run and moves no word does not count. -/
theorem Appends.of_eq {n : Nat} (h : seen t.trace = seen s.trace) (g : Appends seen a n t u) :
    Appends seen a n s u := by
  rw [Appends, g, h]

/-- Two runs of words, the second starting where the first ended, are one. -/
theorem Appends.trans {n m : Nat} (h : Appends seen a n s t) (g : Appends seen (dmaAt a n) m t u) :
    Appends seen a (n + m) s u := by
  rw [Appends, g, h, List.range_add]
  simp [dmaAt_add, Function.comp_def]

end

theorem dmaWriteWords_writes {vs : List Word} {s : State} (h : s.xfer.dma.getLsbD 0 = false) :
    Appends writeAddresses s.xfer.dma vs.length s (dmaWriteWords vs s) := by
  rw [Appends, writeAddresses, (dmaWriteWords_trace vs s h).1, List.map_append, List.map_fst_zip (by simp)]
  rfl

@[simp] theorem dmaWriteWords_reads (vs : List Word) (s : State) :
    dmaReads (dmaWriteWords vs s).trace = dmaReads s.trace := by
  induction vs generalizing s with
  | nil => rfl
  | cons v vs ih => exact ih _

@[simp] theorem dmaReadWords_writes (n : Nat) (s : State) :
    dmaWrites (dmaReadWords n s).2.trace = dmaWrites s.trace := by
  induction n generalizing s with
  | zero => rfl
  | succ n ih => exact ih _

/-! ## What moves no word -/

/-- No word of host memory moves from `s` to `t`. -/
structure SameDma (s t : State) : Prop where
  writes : dmaWrites t.trace = dmaWrites s.trace
  reads : dmaReads t.trace = dmaReads s.trace

theorem SameDma.writeAddresses_eq {s t : State} (h : SameDma s t) :
    writeAddresses t.trace = writeAddresses s.trace :=
  congrArg (List.map Prod.fst) h.writes

theorem SameDma.trans {s t u : State} (h : SameDma s t) (g : SameDma t u) : SameDma s u :=
  ⟨g.writes.trans h.writes, g.reads.trans h.reads⟩

theorem storeSeek_sameDma (k : UnitId) (pos : Nat) (s : State) : SameDma s (storeSeek k pos s).2 := by
  unfold storeSeek
  split <;> exact ⟨rfl, rfl⟩

theorem storeRead_sameDma (k : UnitId) (n : Nat) (s : State) : SameDma s (storeRead k n s).2 := by
  unfold storeRead
  split <;> exact ⟨rfl, rfl⟩

theorem storeWrite_sameDma (k : UnitId) (bytes : List Byte) (s : State) : SameDma s (storeWrite k bytes s).2 := by
  unfold storeWrite
  split <;> exact ⟨rfl, rfl⟩

theorem formatSectors_sameDma {k : UnitId} {n : Nat} {s t : State} {o : CmdOutcome}
    (h : formatSectors k n s = .ended o t) : SameDma s t := by
  induction n generalizing s with
  | zero =>
    cases h
    exact ⟨rfl, rfl⟩
  | succ n ih =>
    simp only [formatSectors] at h
    split at h
    · exact (storeWrite_sameDma k _ s).trans (ih h)
    · cases h
      exact storeWrite_sameDma k _ s

@[simp] theorem loadBuffer_dma (bytes : List Byte) (s : State) : (loadBuffer bytes s).xfer.dma = s.xfer.dma := rfl
@[simp] theorem loadBuffer_remaining (bytes : List Byte) (s : State) :
    (loadBuffer bytes s).xfer.remaining = s.xfer.remaining := rfl
@[simp] theorem nextSector_dma (k : UnitId) (n : Nat) (s : State) : (nextSector k n s).xfer.dma = s.xfer.dma := by
  simp [nextSector]

/-! ## One iteration and the loop -/

/-- The words an iteration from `s` moves: a run from the running address, in bytes at most the remaining count. An
iteration that goes on has moved the address past them and has taken at least their bytes off the count; one that stops
may leave the count as it was. -/
def Iteration.Moves (seen : List Event → List DmaAddr) (s : State) : Iteration → Prop
  | .again t => ∃ n, 2 * n + t.xfer.remaining ≤ s.xfer.remaining ∧ t.xfer.dma = dmaAt s.xfer.dma n ∧
      Appends seen s.xfer.dma n s t
  | .stop _ t => ∃ n, 2 * n ≤ s.xfer.remaining ∧ Appends seen s.xfer.dma n s t

/-- The iterations' runs join to one, in bytes at most the count the loop starts with. -/
theorem sectorLoop_moves {seen : List Event → List DmaAddr} {body : State → Iteration}
    (hbody : ∀ s, s.xfer.dma.getLsbD 0 = false → (body s).Moves seen s) {fuel : Nat} {s t : State} {o : CmdOutcome}
    (hd : s.xfer.dma.getLsbD 0 = false) (h : sectorLoop body fuel s = .ended o t) :
    ∃ n, 2 * n ≤ s.xfer.remaining ∧ Appends seen s.xfer.dma n s t := by
  induction fuel generalizing s with
  | zero =>
    cases h
    exact ⟨0, Nat.zero_le _, .none rfl⟩
  | succ fuel ih =>
    have hs := hbody s hd
    simp only [sectorLoop] at h
    split at h
    · cases h
      exact ⟨0, Nat.zero_le _, .none rfl⟩
    · split at h
      · rename_i hb
        cases h
        rw [hb] at hs
        exact hs
      · rename_i s1 hb
        rw [hb] at hs
        obtain ⟨n, hn, hdma, hfirst⟩ := hs
        obtain ⟨m, hm, hrest⟩ := ih (by rw [hdma]; exact dmaAt_even hd n) h
        rw [hdma] at hrest
        exact ⟨n + m, by omega, hfirst.trans hrest⟩

/-- One iteration of Read Data writes the bytes it got, or none of them (44_commands_data.md R119). -/
theorem readSector_writes (k : UnitId) (ti : Bool) (s : State) (hd : s.xfer.dma.getLsbD 0 = false) :
    (readSector k ti s).Moves writeAddresses s := by
  have hc : chunk k s ≤ s.xfer.remaining := Nat.min_le_left _ _
  have hread := storeRead_sameDma k (chunk k s) s
  unfold readSector
  split
  · exact ⟨0, Nat.zero_le _, .none rfl⟩
  · dsimp only
    split
    · rename_i hlen
      cases ti with
      | true => exact ⟨0, by simp, by simp, .none hread.writeAddresses_eq⟩
      | false =>
        generalize hs1 : loadBuffer (storeRead k (chunk k s) s).1 (storeRead k (chunk k s) s).2 = s1
        have hdma : s1.xfer.dma = s.xfer.dma := by simp [← hs1]
        have hrem : s1.xfer.remaining = s.xfer.remaining := by simp [← hs1]
        have hloaded : SameDma s s1 := by
          rw [← hs1]
          exact ⟨hread.writes, hread.reads⟩
        have hd1 : s1.xfer.dma.getLsbD 0 = false := hdma ▸ hd
        have hx := dmaWriteWords_xfer (packWords (storeRead k (chunk k s) s).1) s1 hd1
        refine ⟨(packWords (storeRead k (chunk k s) s).1).length, ?_, ?_, ?_⟩
        · rw [packWords_length, hlen, nextSector_remaining]
          simp only [Bool.false_eq_true, if_false, hx, hrem]
          omega
        · rw [nextSector_dma]
          simp only [Bool.false_eq_true, if_false, hx, hdma]
        · exact .of_eq hloaded.writeAddresses_eq (hdma ▸ dmaWriteWords_writes hd1)
    · exact ⟨0, Nat.zero_le _, .none hread.writeAddresses_eq⟩

theorem readSector_reads (k : UnitId) (ti : Bool) (s : State) :
    dmaReads (readSector k ti s).state.trace = dmaReads s.trace := by
  have hread := (storeRead_sameDma k (chunk k s) s).reads
  unfold readSector
  split
  · rfl
  · dsimp only
    split
    · cases ti with
      | true => exact hread
      | false => exact (dmaWriteWords_reads _ _).trans hread
    · exact hread

/-- One iteration of Write Data reads the words of its bytes, whatever the store answers (44_commands_data.md R120). -/
theorem writeSector_reads (k : UnitId) (s : State) (hd : s.xfer.dma.getLsbD 0 = false) :
    (writeSector k s).Moves dmaReads s := by
  have hc : chunk k s ≤ s.xfer.remaining := Nat.min_le_left _ _
  have hx := dmaReadWords_xfer (chunk k s / 2) s hd
  have hrun : ∀ bytes buffer, Appends dmaReads s.xfer.dma (chunk k s / 2) s
      (storeWrite k bytes (loadBuffer buffer (dmaReadWords (chunk k s / 2) s).2)).2 := fun _ _ =>
    (storeWrite_sameDma ..).reads.trans (dmaReadWords_trace (chunk k s / 2) s hd).1
  unfold writeSector
  split
  · exact ⟨0, Nat.zero_le _, .none rfl⟩
  · dsimp only
    split
    · refine ⟨chunk k s / 2, ?_, ?_, hrun _ _⟩
      · rw [nextSector_remaining, storeWrite_xfer, loadBuffer_remaining, hx]
        dsimp only
        omega
      · rw [nextSector_dma, storeWrite_xfer, loadBuffer_dma, hx]
    · exact ⟨chunk k s / 2, by omega, hrun _ _⟩

theorem writeSector_writes (k : UnitId) (s : State) :
    dmaWrites (writeSector k s).state.trace = dmaWrites s.trace := by
  unfold writeSector
  split
  · rfl
  · dsimp only
    split <;> exact (storeWrite_sameDma ..).writes.trans (dmaReadWords_writes _ _)

/-! ## The handlers -/

/-- The words of a command on block `b` that goes from `s` to `t`: a run of writes and a run of reads, both from the
block's DMA address and within its byte count, or three written words. -/
structure TransferInOrder (b : CommandBlock) (s t : State) : Prop where
  writes : ∃ n, 2 * n ≤ max 6 (byteCount b) ∧ Appends writeAddresses (dmaAddress b) n s t
  reads : ∃ m, 2 * m ≤ byteCount b ∧ Appends dmaReads (dmaAddress b) m s t

/-- A command that moves no word. -/
theorem SameDma.transferInOrder {b : CommandBlock} {s t : State} (h : SameDma s t) : TransferInOrder b s t :=
  ⟨⟨0, by omega, .none h.writeAddresses_eq⟩, ⟨0, by omega, .none h.reads⟩⟩

theorem TransferInOrder.refl (b : CommandBlock) (s : State) : TransferInOrder b s s :=
  SameDma.transferInOrder ⟨rfl, rfl⟩

/-- A seek moves no word, however it ends. -/
theorem seekUnit_inOrder {b : CommandBlock} {k : UnitId} {c h sec : Nat} {s t : State} {body : State → Handler}
    (hs : SameDma s t) (hb : ∀ u, SameDma s u → (body u).Ends fun _ => TransferInOrder b s) :
    (seekUnit k c h sec t body).Ends fun _ => TransferInOrder b s := by
  have sought : ∀ pos, SameDma s (storeSeek k pos t).2 := fun pos => hs.trans (storeSeek_sameDma k pos t)
  unfold seekUnit
  split
  · exact hs.transferInOrder
  · split
    · exact hs.transferInOrder
    · split
      · exact hb _ (sought _)
      · exact (sought _).transferInOrder

/-- Store Registers and Unformatted Read: at most three words, from the block's address (42_geometry_dma.md R108). -/
theorem writeWords_inOrder {b : CommandBlock} {s t : State} {ws : List Word} (h : SameDma s t)
    (hd : t.xfer.dma = dmaAddress b) (hl : ws.length ≤ 3) : TransferInOrder b s (dmaWriteWords ws t) := by
  have heven : t.xfer.dma.getLsbD 0 = false := hd ▸ dmaAddress_even b
  exact ⟨⟨ws.length, by omega, .of_eq h.writeAddresses_eq (hd ▸ dmaWriteWords_writes heven)⟩,
    ⟨0, by omega, .none ((dmaWriteWords_reads ws t).trans h.reads)⟩⟩

/-- The tail of Read Data. -/
theorem readSectors_inOrder {b : CommandBlock} {u : DiskUnit} {k : UnitId} {ti : Bool} {s t : State}
    (h : SameDma s t) :
    (transferSectors b u (readSector k ti) (takeAddress b (takeDma b t))).Ends fun _ => TransferInOrder b s := by
  unfold transferSectors
  split
  · cases hl : sectorLoop (readSector k ti) (byteCount b) (takeAddress b (takeDma b t)) with
    | noMeaning r => trivial
    | ended o v =>
      obtain ⟨n, hn, hwrites⟩ := sectorLoop_moves (readSector_writes k ti) (dmaAddress_even b) hl
      have hquiet := (sectorLoop_ended (R := fun x y => dmaReads y.trace = dmaReads x.trace) (fun _ => rfl)
        (fun _ _ _ hx hy => hy.trans hx) (readSector_reads k ti) hl).1
      exact ⟨⟨n, le_max_of_le_right hn, .of_eq h.writeAddresses_eq hwrites⟩,
        ⟨0, Nat.zero_le _, .none (hquiet.trans h.reads)⟩⟩
  · trivial

/-- The tail of Write Data. -/
theorem writeSectors_inOrder {b : CommandBlock} {u : DiskUnit} {k : UnitId} {s t : State} (h : SameDma s t) :
    (transferSectors b u (writeSector k) (takeAddress b (takeDma b t))).Ends fun _ => TransferInOrder b s := by
  unfold transferSectors
  split
  · cases hl : sectorLoop (writeSector k) (byteCount b) (takeAddress b (takeDma b t)) with
    | noMeaning r => trivial
    | ended o v =>
      obtain ⟨m, hm, hreads⟩ := sectorLoop_moves (writeSector_reads k) (dmaAddress_even b) hl
      have hquiet := (sectorLoop_ended (R := fun x y => dmaWrites y.trace = dmaWrites x.trace) (fun _ => rfl)
        (fun _ _ _ hx hy => hy.trans hx) (writeSector_writes k) hl).1
      exact ⟨⟨0, Nat.zero_le _, .none (congrArg (List.map Prod.fst) (hquiet.trans h.writes))⟩,
        ⟨m, hm, .of_eq h.reads hreads⟩⟩
  · trivial

section
variable (b : CommandBlock) (s : State)

theorem stregHandler_inOrder : (stregHandler b s).Ends fun _ => TransferInOrder b s := by
  refine requireUnit_ends (.refl b s) fun k _ => requireOnline_ends (.refl b s) fun _ => ?_
  have taken : SameDma s (takeDma b (takeOperands b k (clearUnsafe k s))) := ⟨rfl, rfl⟩
  dsimp only [Handler.Ends]
  split
  · exact taken.transferInOrder
  · exact writeWords_inOrder taken rfl (by simp [geometryWords])

theorem ufreadHandler_inOrder : (ufreadHandler b s).Ends fun _ => TransferInOrder b s := by
  refine requireUnit_ends (.refl b s) fun k _ => requireOnline_ends (.refl b s) fun _ =>
    requireSafe_ends (.refl b s) fun _ => ?_
  have taken : SameDma s (takeDma b (takeOperands b k s)) := ⟨rfl, rfl⟩
  split
  · exact .refl b s
  · dsimp only [Handler.Ends]
    split
    · exact taken.transferInOrder
    · exact writeWords_inOrder taken rfl (by simp [echoWords])

theorem restoreHandler_inOrder : (restoreHandler b s).Ends fun _ => TransferInOrder b s :=
  requireUnit_ends (.refl b s) fun _ _ => requireOnline_ends (.refl b s) fun _ =>
    seekUnit_inOrder ⟨rfl, rfl⟩ fun _ sought => sought.transferInOrder

theorem wrfmtHandler_inOrder : (wrfmtHandler b s).Ends fun _ => TransferInOrder b s := by
  refine requireUnit_ends (.refl b s) fun k _ => requireOnline_ends (.refl b s) fun _ =>
    requireSafe_ends (.refl b s) fun _ => requireWritable_ends (.refl b s) fun _ =>
      seekUnit_inOrder ⟨rfl, rfl⟩ fun t sought => ?_
  split
  · cases hf : formatSectors k (s.unit k).sectorsPerTrack.toNat t with
    | noMeaning r => trivial
    | ended o u => exact (sought.trans (formatSectors_sameDma hf)).transferInOrder
  · trivial

theorem rddataHandler_inOrder : (rddataHandler b s).Ends fun _ => TransferInOrder b s :=
  requireUnit_ends (.refl b s) fun _ _ => requireOnline_ends (.refl b s) fun _ =>
    requireSafe_ends (.refl b s) fun _ => seekUnit_inOrder ⟨rfl, rfl⟩ fun _ sought => readSectors_inOrder sought

theorem wrdataHandler_inOrder : (wrdataHandler b s).Ends fun _ => TransferInOrder b s :=
  requireUnit_ends (.refl b s) fun _ _ => requireOnline_ends (.refl b s) fun _ =>
    requireSafe_ends (.refl b s) fun _ => requireWritable_ends (.refl b s) fun _ =>
      seekUnit_inOrder ⟨rfl, rfl⟩ fun _ sought => writeSectors_inOrder sought

end

/-! ## The commands -/

/-- Entry and completion posting move no word. -/
theorem TransferInOrder.of_finish {b : CommandBlock} {s t : State} {h : Handler}
    (hends : h.Ends fun _ => TransferInOrder b (enterCommand s)) (he : h.finish = .next t) :
    TransferInOrder b s t := by
  obtain ⟨o, u, e, rfl⟩ := Handler.finish_next he
  obtain ⟨hwrites, hreads⟩ := hends.of_eq e
  exact ⟨hwrites, hreads⟩

theorem exec_command_inOrder {b : CommandBlock} {i : Instr} (hc : Command b i) {s t : State}
    (h : exec i s = .next t) : TransferInOrder b s t := by
  cases hc with
  | streg => exact .of_finish (stregHandler_inOrder b _) h
  | wrfmt => exact .of_finish (wrfmtHandler_inOrder b _) h
  | rddata => exact .of_finish (rddataHandler_inOrder b _) h
  | wrdata => exact .of_finish (wrdataHandler_inOrder b _) h
  | ufread => exact .of_finish (ufreadHandler_inOrder b _) h
  | ufwrite =>
    cases h
    exact SameDma.transferInOrder ⟨rfl, rfl⟩
  | seek =>
    cases h
    exact SameDma.transferInOrder ⟨rfl, rfl⟩
  | restore => exact .of_finish (restoreHandler_inOrder b _) h

/-- Settles O48: the sector loops join one run per sector, the three-word commands make one run. -/
theorem dmaMovesInAscendingOrder : Obligations.DmaMovesInAscendingOrder := by
  intro b i s t hc h
  obtain ⟨⟨n, hn, hwrites⟩, ⟨m, hm, hreads⟩⟩ := exec_command_inOrder hc h
  exact ⟨n, m, hwrites, hreads, fun j => even_toNat (dmaAt_even (dmaAddress_even b) j), hn, hm⟩

end Sys2Proof.Machine
end

section
/-! PROOF. The decoder and the encoder undo each other: the fields of a block against its six words, the command field
against the command, and the bundles of REGRD and REGWR. -/

namespace Sys2Proof

/-! ## Bits and fields of a word in numbers -/

/-- A bit of a word in numbers. -/
theorem bit_eq_decide {n : Nat} (x : BitVec n) (i : Nat) : x.getLsbD i = decide (x.toNat / 2 ^ i % 2 = 1) := by
  rw [BitVec.getLsbD, Nat.testBit_eq_decide_div_mod_eq]

theorem bit_toNat {n : Nat} (x : BitVec n) (i : Nat) : (x.getLsbD i).toNat = x.toNat / 2 ^ i % 2 := by
  rw [BitVec.getLsbD, Nat.toNat_testBit]

/-- A field of a word is the value it has in numbers. -/
theorem field_eq {n len : Nat} {x : BitVec n} {y : BitVec len} {lo : Nat}
    (h : x.toNat / 2 ^ lo % 2 ^ len = y.toNat) : x.extractLsb' lo len = y :=
  BitVec.eq_of_toNat_eq (by rw [field_toNat, h])

/-! ## The fields of a block and its words (30_encoding.md R60) -/

/-- The command field of the first word is the code it was written with (30_encoding.md R63). -/
@[simp] theorem commandField_wordsOfBlock (code : BitVec 3) (b : CommandBlock) :
    commandField (wordsOfBlock code b).w1 = code := by
  refine field_eq ?_
  rw [wordsOfBlock_w1]
  have := b.head.isLt
  have := b.offset.isLt
  have := code.isLt
  omega

/-- The fields are read back from the words they were written to. -/
@[simp] theorem blockOfWords_wordsOfBlock (code : BitVec 3) (b : CommandBlock) :
    blockOfWords (wordsOfBlock code b) = b := by
  have hcode := code.isLt
  obtain ⟨ext, strobe, ti, offset, head, recordCount, sector, cylinder, count, dmaLo, selHigh, sel, dmaSpare,
    dmaHi⟩ := b
  have hext := ext.isLt
  have hstrobe := strobe.isLt
  have hti := ti.toNat_lt
  have hoffset := offset.isLt
  have hhead := head.isLt
  have hrecord := recordCount.isLt
  have hsector := sector.isLt
  have hselHigh := selHigh.isLt
  have hsel := sel.isLt
  have hspare := dmaSpare.isLt
  have hdmaHi := dmaHi.isLt
  simp only [blockOfWords, CommandBlock.mk.injEq]
  refine ⟨field_eq ?_, field_eq ?_, ?_, field_eq ?_, field_eq ?_, field_eq ?_, field_eq ?_, rfl, rfl, rfl,
    field_eq ?_, field_eq ?_, field_eq ?_, field_eq ?_⟩
  case refine_3 =>
    rw [bit_eq_decide, wordsOfBlock_w1]
    cases ti <;> simp <;> omega
  all_goals
    simp only [wordsOfBlock_w1, wordsOfBlock_w2, wordsOfBlock_w6]
    omega

theorem blockWords_eq {v w : BlockWords} (h1 : v.w1 = w.w1) (h2 : v.w2 = w.w2) (h3 : v.w3 = w.w3) (h4 : v.w4 = w.w4)
    (h5 : v.w5 = w.w5) (h6 : v.w6 = w.w6) : v = w := by
  cases v
  cases w
  subst h1 h2 h3 h4 h5 h6
  rfl

/-- The words are rebuilt from the command field and the fields of the block: no bit of them is lost. -/
@[simp] theorem wordsOfBlock_blockOfWords (ws : BlockWords) :
    wordsOfBlock (commandField ws.w1) (blockOfWords ws) = ws := by
  refine blockWords_eq (BitVec.eq_of_toNat_eq ?_) (BitVec.eq_of_toNat_eq ?_) rfl rfl rfl (BitVec.eq_of_toNat_eq ?_)
  · have := ws.w1.isLt
    simp only [wordsOfBlock_w1, commandField, blockOfWords, field_toNat, bit_toNat]
    omega
  · have := ws.w2.isLt
    simp only [wordsOfBlock_w2, blockOfWords, field_toNat]
    omega
  · have := ws.w6.isLt
    simp only [wordsOfBlock_w6, blockOfWords, field_toNat]
    omega

@[simp] theorem decodeBlock_wordsOfBlock (code : BitVec 3) (b : CommandBlock) :
    decodeBlock (wordsOfBlock code b) = commandOfField code b := by
  rw [decodeBlock, commandField_wordsOfBlock, blockOfWords_wordsOfBlock]

/-! ## The command field and the command (30_encoding.md R63) -/

/-- The encoder writes the code that the opcode map reads. -/
theorem encode_commandOfField (code : BitVec 3) (b : CommandBlock) :
    encode (commandOfField code b) = some (bytesOfBlock (wordsOfBlock code b)) := by
  obtain ⟨⟨n, hn⟩⟩ := code
  interval_cases n <;> rfl

theorem commandOfField_wellFormed (code : BitVec 3) (b : CommandBlock) :
    (commandOfField code b).wellFormed = true := by
  unfold commandOfField
  split <;> rfl

/-- Every command has a code. -/
theorem exists_commandOfField {b : CommandBlock} {i : Instr} (h : Machine.Command b i) :
    ∃ code, i = commandOfField code b := by
  cases h with
  | streg => exact ⟨0, rfl⟩
  | wrfmt => exact ⟨1, rfl⟩
  | rddata => exact ⟨2, rfl⟩
  | wrdata => exact ⟨3, rfl⟩
  | ufread => exact ⟨4, rfl⟩
  | ufwrite => exact ⟨5, rfl⟩
  | seek => exact ⟨6, rfl⟩
  | restore => exact ⟨7, rfl⟩

/-- The mask `0x0700` keeps the command field. -/
theorem commandField_and_mask (w : Word) : commandField (w &&& 0x0700#16) = commandField w := by
  have hmask : (0x0700#16).extractLsb' 8 3 = BitVec.allOnes 3 := by decide
  rw [commandField, BitVec.extractLsb'_and, hmask, BitVec.and_allOnes, commandField]

/-- The masked first word decides the command. -/
theorem decodeBlock_of_mask {ws : BlockWords} {v : Word} (h : ws.w1 &&& 0x0700#16 = v) :
    decodeBlock ws = commandOfField (commandField v) (blockOfWords ws) := by
  rw [← h, commandField_and_mask, decodeBlock]

/-! ## Operands (30_encoding.md R65) -/

/-- Clearing bit 0. -/
theorem evenMask_toNat (w : Word) : (w &&& 0xFFFE#16).toNat = w.toNat / 2 * 2 := by
  have hmask : 0xFFFE#16 = BitVec.allOnes 16 <<< 1 := by decide
  have := w.isLt
  rw [hmask, ← BitVec.shiftLeft_ushiftRight, BitVec.toNat_shiftLeft, BitVec.toNat_ushiftRight,
    Nat.shiftLeft_eq, Nat.shiftRight_eq_div_pow]
  omega

/-! ## Bundles (30_encoding.md R58; log 18) -/

/-- The byte of REGRD's bundle in numbers. -/
theorem regrdByte_toNat {index : Nat} (h : index ≤ 7) : (0#5 ++ BitVec.ofNat 3 index : Byte).toNat = index := by
  rw [append_toNat, BitVec.toNat_ofNat, BitVec.toNat_ofNat]
  omega

/-- The high byte of REGWR's bundle in numbers. -/
theorem regwrByte_toNat {index : Nat} (h : index ≤ 7) (lanes : BitVec 2) :
    (0#3 ++ lanes ++ BitVec.ofNat 3 index : Byte).toNat = lanes.toNat * 8 + index := by
  rw [append_toNat, append_toNat, BitVec.toNat_ofNat, BitVec.toNat_ofNat]
  omega

theorem decode_regrdBytes {index : Nat} (h : index ≤ 7) : decode (regrdBytes index) = .ok (.regrd index) := by
  have hspare : (0#5 ++ BitVec.ofNat 3 index : Byte).extractLsb' 3 5 = 0#5 :=
    field_eq (by rw [regrdByte_toNat h, BitVec.toNat_ofNat]; omega)
  have hindex : ((0#5 ++ BitVec.ofNat 3 index : Byte).extractLsb' 0 3).toNat = index := by
    rw [field_toNat, regrdByte_toNat h]
    omega
  simp only [regrdBytes, decode, hspare, hindex, if_true]

theorem decode_regwrBytes {index : Nat} (h : index ≤ 7) (value : Word) (lanes : BitVec 2) :
    decode (regwrBytes index value lanes) = .ok (.regwr index value lanes) := by
  have hbyte := regwrByte_toNat h lanes
  have hspare : (0#3 ++ lanes ++ BitVec.ofNat 3 index : Byte).extractLsb' 5 3 = 0#3 :=
    field_eq (by rw [hbyte, BitVec.toNat_ofNat]; omega)
  have hindex : ((0#3 ++ lanes ++ BitVec.ofNat 3 index : Byte).extractLsb' 0 3).toNat = index := by
    rw [field_toNat, hbyte]
    omega
  have hlanes : (0#3 ++ lanes ++ BitVec.ofNat 3 index : Byte).extractLsb' 3 2 = lanes :=
    field_eq (by rw [hbyte]; omega)
  simp only [regwrBytes, decode, hspare, hindex, hlanes, Machine.Memory.word_of_its_bytes, if_true]

theorem encode_regrd {index : Nat} (h : index ≤ 7) : encode (.regrd index) = some (regrdBytes index) := if_pos h

theorem encode_regwr {index : Nat} (h : index ≤ 7) (value : Word) (lanes : BitVec 2) :
    encode (.regwr index value lanes) = some (regwrBytes index value lanes) := if_pos h

theorem indexField_le (b : Byte) : (b.extractLsb' 0 3).toNat ≤ 7 := by
  have := (b.extractLsb' 0 3).isLt
  omega

/-- A byte without a bit above its three is the bundle of the index it holds. -/
theorem regrdBytes_field {b : Byte} (h : b.extractLsb' 3 5 = 0#5) :
    regrdBytes (b.extractLsb' 0 3).toNat = [b] := by
  have hspare : b.toNat / 2 ^ 3 % 2 ^ 5 = 0 := by rw [← field_toNat, h, BitVec.toNat_ofNat]
  have := b.isLt
  refine congrArg (· :: []) (BitVec.eq_of_toNat_eq ?_)
  rw [regrdByte_toNat (indexField_le b), field_toNat]
  omega

/-- Three bytes without a bit above their 21 are the bundle of what they hold. -/
theorem regwrBytes_field {b2 b1 b0 : Byte} (h : b2.extractLsb' 5 3 = 0#3) :
    regwrBytes (b2.extractLsb' 0 3).toNat (wordOfBytes b1 b0) (b2.extractLsb' 3 2) = [b2, b1, b0] := by
  have hspare : b2.toNat / 2 ^ 5 % 2 ^ 3 = 0 := by rw [← field_toNat, h, BitVec.toNat_ofNat]
  have hhigh : (0#3 ++ b2.extractLsb' 3 2 ++ BitVec.ofNat 3 (b2.extractLsb' 0 3).toNat : Byte) = b2 := by
    have := b2.isLt
    apply BitVec.eq_of_toNat_eq
    rw [regwrByte_toNat (indexField_le b2), field_toNat, field_toNat]
    omega
  rw [regwrBytes, hhigh, Machine.Memory.highByte_wordOfBytes, Machine.Memory.lowByte_wordOfBytes]

/-! ## What the decoder can answer -/

/-- Bytes that decode are one of the three forms: a bundle of REGRD, a bundle of REGWR, a block. -/
theorem decode_cases {bytes : List Byte} {i : Instr} (h : decode bytes = .ok i) :
    (∃ b, b.extractLsb' 3 5 = 0#5 ∧ bytes = [b] ∧ i = .regrd (b.extractLsb' 0 3).toNat) ∨
    (∃ b2 b1 b0, b2.extractLsb' 5 3 = 0#3 ∧ bytes = [b2, b1, b0] ∧
      i = .regwr (b2.extractLsb' 0 3).toNat (wordOfBytes b1 b0) (b2.extractLsb' 3 2)) ∨
    (∃ ws, bytes = bytesOfBlock ws ∧ i = decodeBlock ws) := by
  unfold decode at h
  split at h
  · split at h <;> cases h
    exact .inl ⟨_, ‹_›, rfl, rfl⟩
  · split at h <;> cases h
    exact .inr (.inl ⟨_, _, _, ‹_›, rfl, rfl⟩)
  · cases h
    exact .inr (.inr ⟨_, by simp [bytesOfBlock], rfl⟩)
  · cases h

/-! ## What the encoder answers -/

theorem decode_of_encode_command {b : CommandBlock} {i : Instr} {bytes : List Byte} (hc : Machine.Command b i)
    (h : encode i = some bytes) : decode bytes = .ok i := by
  obtain ⟨code, rfl⟩ := exists_commandOfField hc
  rw [encode_commandOfField] at h
  cases h
  rw [decode_bytesOfBlock, decodeBlock_wordsOfBlock]

theorem decode_of_encode {i : Instr} {bytes : List Byte} (h : encode i = some bytes) : decode bytes = .ok i := by
  cases i with
  | streg b => exact decode_of_encode_command (b := b) .streg h
  | wrfmt b => exact decode_of_encode_command (b := b) .wrfmt h
  | rddata b => exact decode_of_encode_command (b := b) .rddata h
  | wrdata b => exact decode_of_encode_command (b := b) .wrdata h
  | ufread b => exact decode_of_encode_command (b := b) .ufread h
  | ufwrite b => exact decode_of_encode_command (b := b) .ufwrite h
  | seek b => exact decode_of_encode_command (b := b) .seek h
  | restore b => exact decode_of_encode_command (b := b) .restore h
  | regrd index =>
    obtain ⟨hi, ⟨⟩⟩ := Option.ite_none_right_eq_some.1 h
    exact decode_regrdBytes hi
  | regwr index value lanes =>
    obtain ⟨hi, ⟨⟩⟩ := Option.ite_none_right_eq_some.1 h
    exact decode_regwrBytes hi value lanes
  | init => cases h
  | attach unit store readOnly => cases h
  | detach unit => cases h

/-! ## Settled -/

/-- Settles O1: both blocks and the three bundles, evaluated. -/
theorem writtenOutWordsDecode : Obligations.WrittenOutWordsDecode := by
  unfold Obligations.WrittenOutWordsDecode
  decide

/-- Settles O2: a command by its code and the fields of its block, REGRD and REGWR by their bundles. -/
theorem decodeUndoesEncode : Obligations.DecodeUndoesEncode := by
  refine ⟨fun i bytes _ h => decode_of_encode h, fun b i hc => ?_, fun index hi => ?_,
    fun index value lanes hi => ?_⟩
  · obtain ⟨code, rfl⟩ := exists_commandOfField hc
    rw [encode_commandOfField]
    rfl
  · rw [encode_regrd hi]
    rfl
  · rw [encode_regwr hi]
    rfl

/-- Settles O3: the three forms of bytes that decode, each encoded again. -/
theorem encodeUndoesDecode : Obligations.EncodeUndoesDecode := by
  intro bytes i h
  obtain ⟨b, hspare, rfl, rfl⟩ | ⟨b2, b1, b0, hspare, rfl, rfl⟩ | ⟨ws, rfl, rfl⟩ := decode_cases h
  · exact ⟨by rw [encode_regrd (indexField_le b), regrdBytes_field hspare], decide_eq_true (indexField_le b)⟩
  · exact ⟨by rw [encode_regwr (indexField_le b2), regwrBytes_field hspare], decide_eq_true (indexField_le b2)⟩
  · refine ⟨?_, commandOfField_wellFormed _ _⟩
    rw [decodeBlock, encode_commandOfField, wordsOfBlock_blockOfWords]

/-- Settles O4: the mask keeps exactly the command field. -/
theorem commandFieldSelectsTheCommand : Obligations.CommandFieldSelectsTheCommand := fun ws =>
  ⟨decodeBlock_of_mask, decodeBlock_of_mask, decodeBlock_of_mask, decodeBlock_of_mask, decodeBlock_of_mask,
    decodeBlock_of_mask, decodeBlock_of_mask, decodeBlock_of_mask, Machine.decodeBlock_command ws⟩

/-- Settles O5: every operand in numbers, by its field and its mask. -/
theorem operandsAreAssembledFromTheBlock : Obligations.OperandsAreAssembledFromTheBlock := by
  intro ws
  refine ⟨?_, ?_, rfl, evenMask_toNat ws.w4, ?_, bit_eq_decide ws.w1 11, field_toNat ws.w6 8 4⟩
  · exact (field_toNat ws.w1 0 6).trans (congrArg (· % 64) (Nat.div_one _))
  · exact (field_toNat ws.w2 0 8).trans (congrArg (· % 256) (Nat.div_one _))
  · rw [Machine.dmaAddress, Machine.Memory.mask_toNat, append_toNat]
    simp only [blockOfWords, field_toNat]
    omega

end Sys2Proof
end

section
/-! PROOF. A command placed by `withFetchWord` is run by the next step's trigger write. -/

namespace Sys2Proof.Machine

/-- A write that changes `IDLE` from 1 to 0 runs the command the block decodes to, after the merge and the arbiter
(40_register_access.md R79). -/
theorem exec_regwr_trigger {s : State} {value : Word} {lanes : BitVec 2} (hidle : idle s.regs.w7 = true)
    (hclear : idle (mergeWrite 7 s.regs.w7 value lanes) = false) :
    exec (.regwr 7 value lanes) s = exec (decodeBlock s.regs.block) (driveSink (mergeRegister 7 value lanes s)) := by
  have hbusy : busyGuard 7 s = false := by simp [busyGuard]
  have htrigger : triggers 7 (s.regs.get 7) (mergeWrite 7 (s.regs.get 7) value lanes) = true := by
    simp [triggers, hidle, hclear]
  change writeRegister 7 value lanes s = _
  simp only [writeRegister, hbusy, htrigger, Bool.false_eq_true, if_false, if_true]
  exact executeCommand_eq_exec _

/-- The conventional trigger word clears `IDLE` (30_encoding.md R61). -/
theorem idle_mergeWrite_triggerWord (old : Word) : idle (mergeWrite 7 old 0#16 0#2) = false := by
  rw [idle, mergeWrite_inside 7 old _ _ (by decide) (by decide)]
  simp

/-- A row of 16 bits is read as the command its block decodes to. -/
theorem decodeTableWord_command (w : Nat) : decodeTableWord 16 w = some (decodeBlock (tableBlock w)) := by
  have hbytes : tableBytes 16 w = bytesOfBlock (tableBlock w) := rfl
  rw [decodeTableWord, hbytes, decode_bytesOfBlock]

/-- The table's command is placed as its block and the trigger write. -/
theorem State.withFetchWord_command (s : State) (w : Nat) :
    s.withFetchWord 16 w = s.withBlock (tableBlock w) := by
  have hc := decodeBlock_command (tableBlock w)
  unfold withFetchWord
  rw [decodeTableWord_command]
  generalize decodeBlock (tableBlock w) = i at hc
  cases hc <;> rfl

/-- The next step after a block has been placed runs its command. -/
theorem step_withBlock (s : State) (ws : BlockWords) :
    step (s.withBlock ws) =
      exec (decodeBlock ws) (driveSink (mergeRegister 7 0#16 0#2 ((s.withBlock ws).begin s.pending))) := by
  have hidle : idle (s.regs.w7 ||| maskIdle) = true := by simp [idle, maskIdle]
  exact exec_regwr_trigger (s := (s.withBlock ws).begin s.pending) hidle (idle_mergeWrite_triggerWord _)

/-- Settles O9: the state is that of the trigger write after its merge and its arbiter run. -/
theorem tableWordRunsAsTheNextStep : Obligations.TableWordRunsAsTheNextStep := by
  intro s w i h
  obtain rfl : decodeBlock (tableBlock w) = i := Option.some.inj ((decodeTableWord_command w).symm.trans h)
  rw [State.withFetchWord_command, step_withBlock]
  exact ⟨_, rfl, rfl, rfl, rfl, rfl, rfl, rfl, rfl⟩

end Sys2Proof.Machine
end

section
/-! PROOF. The ignored bits of the command block: a command uses of its block the operands `SameOperands` names, and
keeps the others in the transient state only. -/

namespace Sys2Proof.Machine

section
variable {b c : CommandBlock} (h : SameOperands b c)
include h

/-! ## The operands of two blocks that agree -/

theorem SameOperands.byteCount_eq : byteCount b = byteCount c := congrArg BitVec.toNat h.count

/-- Bit 0 is cleared after the DMA address is put together, so it does not matter (30_encoding.md R66). -/
theorem SameOperands.dmaAddress_eq : dmaAddress b = dmaAddress c := by
  have hlo := congrArg BitVec.toNat h.dmaLo
  rw [evenMask_toNat, evenMask_toNat] at hlo
  apply BitVec.eq_of_toNat_eq
  rw [dmaAddress, dmaAddress, Memory.mask_toNat, Memory.mask_toNat, append_toNat, append_toNat, h.dmaHi]
  omega

theorem SameOperands.takeDma_eq : takeDma b = takeDma c := by
  funext s
  rw [takeDma, takeDma, h.dmaAddress_eq]

theorem SameOperands.takeAddress_eq : takeAddress b = takeAddress c := by
  funext s
  rw [takeAddress, takeAddress, h.byteCount_eq, h.cylinder, h.head, h.sector]

theorem SameOperands.wordLimit_eq : wordLimit b = wordLimit c := by
  rw [wordLimit, wordLimit, h.byteCount_eq]

theorem SameOperands.echoLimit_eq (cfg : Config) : echoLimit cfg b = echoLimit cfg c := by
  rw [echoLimit, echoLimit, h.wordLimit_eq]

theorem SameOperands.echoWords_eq (u : DiskUnit) : echoWords u b = echoWords u c := by
  rw [echoWords, echoWords, h.head, h.cylinder, h.sector]

theorem SameOperands.requireUnit_eq (s : State) (body : UnitId → Handler) :
    requireUnit b s body = requireUnit c s body := by
  rw [requireUnit, requireUnit, h.sel]

theorem SameOperands.transferSectors_eq (u : DiskUnit) (body : State → Iteration) (s : State) :
    transferSectors b u body s = transferSectors c u body s := by
  rw [transferSectors, transferSectors, h.byteCount_eq]

/-! ## The handlers: the blocks differ only in the operands kept in the transient state -/

variable (s : State)

theorem SameOperands.stregHandler_erase : (stregHandler b s).erase = (stregHandler c s).erase := by
  simp only [stregHandler, h.requireUnit_eq, h.takeDma_eq, h.wordLimit_eq, h.ti]
  refine requireUnit_erase (x := s.xfer) fun k => requireOnline_erase (x := s.xfer) ?_
  dsimp only [Handler.erase]
  split
  · rfl
  · exact congrArg _ (dmaWriteWords_takeDma_erase c _ (takeOperands c k (clearUnsafe k s)) _)

theorem SameOperands.ufreadHandler_erase : (ufreadHandler b s).erase = (ufreadHandler c s).erase := by
  simp only [ufreadHandler, h.requireUnit_eq, h.takeDma_eq, h.echoWords_eq, h.echoLimit_eq, h.ti, h.cylinder, h.head,
    h.sector]
  refine requireUnit_erase (x := s.xfer) fun k => requireOnline_erase (x := s.xfer) <|
    requireSafe_erase (x := s.xfer) ?_
  cases validate (s.unit k) c.cylinder.toNat c.head.toNat c.sector.toNat with
  | some o => rfl
  | none =>
    dsimp only [Handler.erase]
    split
    · rfl
    · exact congrArg _ (dmaWriteWords_takeDma_erase c _ (takeOperands c k s) _)

theorem SameOperands.restoreHandler_erase : (restoreHandler b s).erase = (restoreHandler c s).erase := by
  simp only [restoreHandler, h.requireUnit_eq]
  exact requireUnit_erase (x := s.xfer) fun k => requireOnline_erase (x := s.xfer) <|
    seekUnit_erase (s := takeOperands c k (clearUnsafe k s)) fun _ => rfl

theorem SameOperands.wrfmtHandler_erase : (wrfmtHandler b s).erase = (wrfmtHandler c s).erase := by
  simp only [wrfmtHandler, h.requireUnit_eq, h.cylinder, h.head]
  refine requireUnit_erase (x := s.xfer) fun k => requireOnline_erase (x := s.xfer) <|
    requireSafe_erase (x := s.xfer) <| requireWritable_erase (x := s.xfer) <|
    seekUnit_erase (s := takeOperands c k s) fun t => ?_
  split
  · exact formatSectors_erase k _ t _
  · rfl

theorem SameOperands.rddataHandler_erase : (rddataHandler b s).erase = (rddataHandler c s).erase := by
  simp only [rddataHandler, h.requireUnit_eq, h.transferSectors_eq, h.takeDma_eq, h.takeAddress_eq, h.ti, h.cylinder,
    h.head, h.sector]
  exact requireUnit_erase (x := s.xfer) fun k => requireOnline_erase (x := s.xfer) <|
    requireSafe_erase (x := s.xfer) <| seekUnit_erase (s := takeOperands c k s) fun t =>
      transferSectors_erase (readSector_ignoresScratch k c.ti) c (s.unit k) t _

theorem SameOperands.wrdataHandler_erase : (wrdataHandler b s).erase = (wrdataHandler c s).erase := by
  simp only [wrdataHandler, h.requireUnit_eq, h.transferSectors_eq, h.takeDma_eq, h.takeAddress_eq, h.cylinder,
    h.head, h.sector]
  exact requireUnit_erase (x := s.xfer) fun k => requireOnline_erase (x := s.xfer) <|
    requireSafe_erase (x := s.xfer) <| requireWritable_erase (x := s.xfer) <|
    seekUnit_erase (s := takeOperands c k s) fun t =>
      transferSectors_erase (writeSector_ignoresScratch k) c (s.unit k) t _

end

/-- Settles O6: the eight codes, each by its handler on the two blocks. -/
theorem ignoredBitsNeverInfluence : Obligations.IgnoredBitsNeverInfluence := by
  intro code b c s h
  rw [← runCommand_eq_exec, ← runCommand_eq_exec]
  unfold runCommand
  split
  · exact observed_finish_of_erase (h.stregHandler_erase (enterCommand s))
  · exact observed_finish_of_erase (h.wrfmtHandler_erase (enterCommand s))
  · exact observed_finish_of_erase (h.rddataHandler_erase (enterCommand s))
  · exact observed_finish_of_erase (h.wrdataHandler_erase (enterCommand s))
  · exact observed_finish_of_erase (h.ufreadHandler_erase (enterCommand s))
  · rfl
  · rfl
  · exact observed_finish_of_erase (h.restoreHandler_erase (enterCommand s))

end Sys2Proof.Machine
end

section
/-! PROOF. The start of a data transfer: Read Data and Write Data past their checks, and the transfer of no byte. -/

namespace Sys2Proof.Machine

/-- The state a transfer starts from: the store repositioned at the block's address by one granted seek, the running
counts and addresses taken from the block (44_commands_data.md R119, R120). -/
def transferStart (b : CommandBlock) (k : UnitId) (st : BackingStore) (s : State) : State :=
  takeAddress b <| takeDma b <|
    ((takeOperands b k s).setStore k
      { st with pos := startPosition (s.unit k) b, seekPlan := st.seekPlan.tail }).emit
      (.storeSeek k (startPosition (s.unit k) b) true)

theorem transferStart_unit_same (b : CommandBlock) (k : UnitId) (st : BackingStore) (s : State) :
    (transferStart b k st s).unit k = { s.unit k with
      backingStore := some { st with pos := startPosition (s.unit k) b, seekPlan := st.seekPlan.tail } } :=
  State.unit_setStore_same (takeOperands b k s) k _

theorem transferStart_unit_ne (b : CommandBlock) {k j : UnitId} (st : BackingStore) (s : State) (hj : j ≠ k) :
    (transferStart b k st s).unit j = s.unit j :=
  State.unit_setStore_ne (takeOperands b k s) _ hj

section
variable {b : CommandBlock} {k : UnitId} {s : State} {st : BackingStore}
  (hst : (s.unit k).backingStore = some st) (hseek : SeekGranted st) (hvalid : ValidAddress (s.unit k) b)
include hst hseek hvalid

theorem seekUnit_transferStart (body : State → Handler) :
    seekUnit k b.cylinder.toNat b.head.toNat b.sector.toNat (takeOperands b k s)
      (fun s1 => body (takeAddress b (takeDma b s1))) = body (transferStart b k st s) := by
  obtain ⟨⟨hcyl, hhead⟩, hsector⟩ := hvalid
  rw [seekUnit_moved (s := takeOperands b k s) hst hseek ((validate_eq_none_iff _ _ _ _).2 ⟨hcyl, hhead, hsector⟩),
    takeOperands_unit, bytePosition_eq]
  rfl

variable (hready : Ready b k s)
include hready

/-- Read Data past its checks is the sector loop (44_commands_data.md R119). -/
theorem rddataHandler_of_ready : rddataHandler b s =
    transferSectors b (s.unit k) (readSector k b.ti) (transferStart b k st s) := by
  rw [rddataHandler, requireUnit_some hready.selected, requireOnline_ok hready.online, requireSafe_ok hready.safe]
  exact seekUnit_transferStart hst hseek hvalid _

/-- Write Data past its checks is the sector loop (44_commands_data.md R120). -/
theorem wrdataHandler_of_ready (hw : (s.unit k).writeProtected = false) : wrdataHandler b s =
    transferSectors b (s.unit k) (writeSector k) (transferStart b k st s) := by
  rw [wrdataHandler, requireUnit_some hready.selected, requireOnline_ok hready.online, requireSafe_ok hready.safe,
    requireWritable_ok hw]
  exact seekUnit_transferStart hst hseek hvalid _

end

/-- A transfer of no byte ends before its first sector (30_encoding.md R65). -/
theorem transferSectors_zero {b : CommandBlock} {u : DiskUnit} (ha : admittedSectorSize u = true)
    (h0 : byteCount b = 0) (body : State → Iteration) (s : State) :
    transferSectors b u body s = .ended .success s := by
  rw [transferSectors, if_pos ha, h0, sectorLoop]

/-- Settles O38: past the checks the loop has nothing to do, so the command is its seek and its completion. -/
theorem zeroByteCountMovesNothing : Obligations.ZeroByteCountMovesNothing := by
  intro b i s k st hready hst hseek hvalid hsize h0 hi
  have hready' : Ready b k (enterCommand s) := ⟨hready.selected, hready.online, hready.safe⟩
  have hend : exec i s = .next (complete .success (transferStart b k st (enterCommand s))) := by
    obtain rfl | ⟨rfl, hw⟩ := hi
    · change (rddataHandler b (enterCommand s)).finish = _
      rw [rddataHandler_of_ready (s := enterCommand s) hst hseek hvalid hready', enterCommand_unit,
        transferSectors_zero hsize h0, Handler.finish]
    · change (wrdataHandler b (enterCommand s)).finish = _
      rw [wrdataHandler_of_ready (s := enterCommand s) hst hseek hvalid hready' hw, enterCommand_unit,
        transferSectors_zero hsize h0, Handler.finish]
  exact ⟨_, hend, complete_posted .success rfl rfl rfl rfl, transferStart_unit_same b k st (enterCommand s),
    fun j hj => transferStart_unit_ne b st (enterCommand s) hj, rfl, rfl⟩

end Sys2Proof.Machine
end

section
/-! PROOF. Host register access: what a read answers, what a write merges, when it starts a command and how
that ends. -/

namespace Sys2Proof.Machine

/-! ## Reads (40_register_access.md R73) -/

/-- Settles O11: each index names its register, an index above 7 none. -/
theorem registerReadAnswersTheLiveValue : Obligations.RegisterReadAnswersTheLiveValue := by
  intro s
  refine ⟨rfl, rfl, rfl, rfl, rfl, rfl, rfl, rfl, fun index h => ?_⟩
  change execRegrd index s = _
  rw [execRegrd, readValue, regIndex_none h]
  rfl

/-! ## The masked merge (40_register_access.md R76, R82) -/

theorem mergeWrite_getLsbD (i : Fin 8) (old value : Word) (lanes : BitVec 2) {n : Nat} (hn : n < 16) :
    (mergeWrite i old value lanes).getLsbD n =
      if (writeMask i).getLsbD n = true ∧ lanes.getLsbD (if n < 8 then 0 else 1) = false
      then value.getLsbD n else old.getLsbD n := by
  cases hm : (writeMask i).getLsbD n with
  | false =>
    rw [mergeWrite_outside i old value lanes hn hm]
    simp
  | true =>
    rw [mergeWrite_inside i old value lanes hn hm]
    cases lanes.getLsbD (if n < 8 then 0 else 1) <;> simp

/-- A merge leaves the bits outside the mask. -/
theorem mergeWrite_and_not_mask (i : Fin 8) (old value : Word) (lanes : BitVec 2) :
    mergeWrite i old value lanes &&& ~~~writeMask i = old &&& ~~~writeMask i := by
  apply BitVec.eq_of_getLsbD_eq
  intro n hn
  rw [BitVec.getLsbD_and, BitVec.getLsbD_and, BitVec.getLsbD_not, mergeWrite_getLsbD i old value lanes hn]
  cases (writeMask i).getLsbD n <;> simp

/-- The merge of a full write. -/
theorem mergeWrite_full (i : Fin 8) (old value : Word) :
    mergeWrite i old value 0#2 = (old &&& ~~~writeMask i) ||| (value &&& writeMask i) := by
  have hlanes : suppressMask 0#2 = 0#16 := by decide
  rw [mergeWrite, hlanes, BitVec.or_zero, BitVec.not_zero, BitVec.and_allOnes]

/-- The command block's registers have no protected bit (10_state.md R14). -/
theorem writeMask_of_block : ∀ {i : Fin 8}, 1 ≤ i.val ∧ i.val ≤ 6 → writeMask i = BitVec.allOnes 16 := by
  decide

/-- A write to `w7` keeps a set `IDLE` if it preserves the high lane or its value has `IDLE` set. -/
theorem idle_mergeWrite {old value : Word} {lanes : BitVec 2} (hold : idle old = true)
    (h : lanes.getLsbD 1 = true ∨ idle value = true) : idle (mergeWrite 7 old value lanes) = true := by
  have hbit : idle (mergeWrite 7 old value lanes) = if lanes.getLsbD 1 = true then idle old else idle value :=
    mergeWrite_inside 7 old value lanes (n := 15) (by decide) (by decide)
  rw [hbit]
  split
  · exact hold
  · exact h.resolve_left ‹_›

/-! ## The arbiter after a write (40_register_access.md R78) -/

theorem arbitrateWrite_of_arbitrated {i : Fin 8} (h : i = 0 ∨ i = 7) (s : State) : arbitrateWrite i s = driveSink s :=
  if_pos h

theorem arbitrateWrite_of_block {i : Fin 8} (h : 1 ≤ i.val ∧ i.val ≤ 6) (s : State) : arbitrateWrite i s = s :=
  if_neg (by omega)

/-- The arbiter drives only the line; the rest of the state but the trace stays. -/
theorem arbitrateWrite_frame (i : Fin 8) (s : State) :
    (arbitrateWrite i s).units = s.units ∧ (arbitrateWrite i s).mem = s.mem ∧ (arbitrateWrite i s).xfer = s.xfer ∧
      (arbitrateWrite i s).cfg = s.cfg ∧ (arbitrateWrite i s).pending = s.pending ∧
      (arbitrateWrite i s).reply = s.reply := by
  unfold arbitrateWrite
  split <;> exact ⟨rfl, rfl, rfl, rfl, rfl, rfl⟩

/-- A busy controller's line is low (60_exceptions.md R140). -/
theorem driveSink_of_busy {s : State} (h : idle s.regs.w7 = false) :
    driveSink s = (s.withLevel false).emit (.sink false) := by
  simp [driveSink, arbiterLevel, h]

/-! ## Writes that start no command -/

/-- Settles O14: no register has the index. -/
theorem outOfRangeWritesAreIgnored : Obligations.OutOfRangeWritesAreIgnored := by
  intro s index value lanes h
  change execRegwr index value lanes s = _
  rw [execRegwr, regIndex_none h]

theorem busyGuard_of_idle {s : State} (h : idle s.regs.w7 = true) (i : Fin 8) : busyGuard i s = false := by
  simp [busyGuard, h]

theorem triggers_iff {i : Fin 8} {old new : Word} :
    triggers i old new = true ↔ i = 7 ∧ idle old = true ∧ idle new = false := by
  simp [triggers, and_assoc]

/-- A write to `w7` that does not change `IDLE` from 1 to 0 is a merge and an arbitration (40_register_access.md R75,
R79). -/
theorem exec_regwr_seven_plain {s : State} {value : Word} {lanes : BitVec 2}
    (h : idle s.regs.w7 = false ∨ idle (mergeWrite 7 s.regs.w7 value lanes) = true) :
    exec (.regwr 7 value lanes) s = .next (driveSink (mergeRegister 7 value lanes s)) := by
  have hbusy : busyGuard 7 s = false := rfl
  refine execRegwr_plain (i := 7) hbusy (Bool.eq_false_iff.2 fun ht => ?_)
  obtain ⟨_, hidle, hclear⟩ := triggers_iff.1 ht
  rw [Regs.get_seven] at hidle hclear
  simp [hidle, hclear] at h

/-- A busy controller drops a write to `w0`..`w6` (40_register_access.md R75). -/
theorem exec_regwr_dropped {s : State} (h : idle s.regs.w7 = false) {index : Nat} (hi : index ≠ 7) (value : Word)
    (lanes : BitVec 2) : exec (.regwr index value lanes) s = .next s := by
  by_cases hr : 8 ≤ index
  · exact outOfRangeWritesAreIgnored s index value lanes hr
  · obtain ⟨i, rfl⟩ : ∃ i : Fin 8, i.val = index := ⟨⟨index, by omega⟩, rfl⟩
    have hguard : busyGuard i s = true := by
      rw [busyGuard, h, decide_eq_true (by omega)]
      rfl
    change execRegwr i.val value lanes s = _
    rw [execRegwr, regIndex_val]
    exact if_pos hguard

/-- Settles O13: the guard drops the other indexes, and a clear `IDLE` cannot trigger. -/
theorem busyWritesAreDropped : Obligations.BusyWritesAreDropped := fun _ value lanes h =>
  ⟨fun _ hi => exec_regwr_dropped h hi value lanes, _, exec_regwr_seven_plain (.inl h), rfl, rfl, rfl, rfl⟩

/-- Settles O12: an idle controller's write that triggers nothing is a merge and an arbitration. -/
theorem writeMergesUnderMaskAndLanes : Obligations.WriteMergesUnderMaskAndLanes := by
  intro s i value lanes hidle hquiet
  have htrigger : triggers i (s.regs.get i) (mergeWrite i (s.regs.get i) value lanes) = false := by
    refine Bool.eq_false_iff.2 fun ht => ?_
    obtain ⟨rfl, _, hclear⟩ := triggers_iff.1 ht
    exact absurd (hclear.symm.trans (idle_mergeWrite hidle (hquiet rfl))) (by decide)
  refine ⟨_, execRegwr_plain (busyGuard_of_idle hidle i) htrigger, fun n hn => ?_, fun j hj => ?_, fun hi => ?_,
    fun hi => ?_, arbitrateWrite_frame i _⟩
  · rw [arbitrateWrite_regs, mergeRegister_get_same, mergeWrite_getLsbD i _ _ _ hn, writeMask_getLsbD i n hn]
    simp only [decide_eq_true_iff]
  · rw [arbitrateWrite_regs, mergeRegister_get_ne hj]
  · rw [arbitrateWrite_of_arbitrated hi]
    exact ⟨rfl, rfl⟩
  · rw [arbitrateWrite_of_block hi]
    exact ⟨rfl, rfl⟩

/-! ## The trigger write (40_register_access.md R79, R82) -/

/-- A command that answers a next state has posted one of its outcomes (41_command_execution.md R94, 60_exceptions.md
R136). -/
theorem exec_command_posted {b : CommandBlock} {i : Instr} (hc : Command b i) {s t : State} (h : exec i s = .next t) :
    ∃ o, possible i o = true ∧ Posted s t o.status o.detail := by
  obtain ⟨o, u, ⟨hpossible, hend⟩, rfl⟩ := exec_command_cases hc h
  refine ⟨o, hpossible, ?_⟩
  obtain rfl | ⟨k, _, _, hf⟩ := hend
  · exact complete_posted o rfl rfl rfl rfl
  · exact complete_posted o hf.regs hf.cfg hf.pending hf.reply

theorem Posted.idle {s t : State} {S0 S7 : Word} (h : Posted s t S0 S7) : idle t.regs.w7 = true := by
  simp [h.regs, Sys2Proof.Machine.idle]

/-- Settles O8: the trigger runs the decoded command, whose completion sets `IDLE`; any other write is the merge. -/
theorem triggerWriteRunsTheDecodedCommand : Obligations.TriggerWriteRunsTheDecodedCommand := by
  rintro s value lanes _ rfl
  refine ⟨fun hidle hclear => ?_, fun h => exec_regwr_seven_plain h⟩
  have hrun := exec_regwr_trigger hidle hclear
  refine ⟨?_, fun t ht => ?_⟩
  · rw [hrun, driveSink_of_busy (s := mergeRegister 7 value lanes s) hclear]
    rfl
  · obtain ⟨_, _, hposted⟩ := exec_command_posted (decodeBlock_command _) (hrun.symm.trans ht)
    exact hposted.idle

/-- Completion posting leaves the reserved bit of `w7`, the one bit outside its mask (10_state.md R14, R20). -/
theorem posted_and_not_mask (w7 : Word) (o : CmdOutcome) :
    (w7 ||| 0x8000#16 ||| o.detail) &&& ~~~writeMask 7 = w7 &&& ~~~writeMask 7 := by
  have hposted : (0x8000#16 ||| o.detail) &&& ~~~writeMask 7 = 0#16 := by cases o <;> decide
  rw [BitVec.or_assoc, BitVec.and_or_distrib_right, hposted, BitVec.or_zero]

/-- Settles O15: without a command the register is the merge; a command adds to `w7` nothing outside its mask. -/
theorem maskFidelity : Obligations.MaskFidelity := by
  intro s t i value h hidle
  cases ht : triggers i (s.regs.get i) (mergeWrite i (s.regs.get i) value 0#2) with
  | false =>
    cases (execRegwr_plain (busyGuard_of_idle hidle i) ht).symm.trans h
    rw [arbitrateWrite_regs, mergeRegister_get_same]
    refine ⟨mergeWrite_and_not_mask i _ _ _, fun hi => ?_, ?_, ?_⟩
    · rw [mergeWrite_full, writeMask_of_block hi, BitVec.not_allOnes, BitVec.and_zero, BitVec.zero_or,
        BitVec.and_allOnes]
    · rintro rfl
      exact mergeWrite_full 0 s.regs.w0 value
    · rintro rfl _
      exact mergeWrite_full 7 s.regs.w7 value
  | true =>
    obtain ⟨rfl, _, hclear⟩ := triggers_iff.1 ht
    rw [Regs.get_seven] at hclear
    obtain ⟨o, _, hposted⟩ :=
      exec_command_posted (decodeBlock_command _) ((exec_regwr_trigger hidle hclear).symm.trans h)
    refine ⟨?_, by simp, by simp, fun _ hv => ?_⟩
    · rw [Regs.get_seven, hposted.regs]
      exact (posted_and_not_mask _ o).trans (mergeWrite_and_not_mask 7 s.regs.w7 value 0#2)
    · exact absurd (hclear.symm.trans (idle_mergeWrite hidle (.inr hv))) (by decide)

end Sys2Proof.Machine
end

section
/-! PROOF. The interrupt sink during a command: nothing between the entry and the completion drives it, so a trigger
write drives it twice. -/

namespace Sys2Proof.Machine

/-- No level is driven on the sink from `s` to `t`. -/
def SameSinks (s t : State) : Prop := sinkLevels t.trace = sinkLevels s.trace

theorem SameSinks.refl (s : State) : SameSinks s s := rfl

theorem SameSinks.trans {s t u : State} (h : SameSinks s t) (g : SameSinks t u) : SameSinks s u :=
  Eq.trans g h

/-! ## The DMA engine and the stores -/

theorem dmaWriteWords_sinks (vs : List Word) (s : State) : SameSinks s (dmaWriteWords vs s) := by
  induction vs generalizing s with
  | nil => exact .refl s
  | cons v vs ih => exact ih (dmaWriteWord v s)

theorem dmaReadWords_sinks (n : Nat) (s : State) : SameSinks s (dmaReadWords n s).2 := by
  induction n generalizing s with
  | zero => exact .refl s
  | succ n ih => exact ih (dmaReadWord s).2

theorem storeSeek_sinks (k : UnitId) (pos : Nat) (s : State) : SameSinks s (storeSeek k pos s).2 := by
  unfold storeSeek
  split <;> exact rfl

theorem storeRead_sinks (k : UnitId) (n : Nat) (s : State) : SameSinks s (storeRead k n s).2 := by
  unfold storeRead
  split <;> exact rfl

theorem storeWrite_sinks (k : UnitId) (bytes : List Byte) (s : State) : SameSinks s (storeWrite k bytes s).2 := by
  unfold storeWrite
  split <;> exact rfl

/-! ## Iterations and loops -/

theorem readSector_sinks (k : UnitId) (ti : Bool) (s : State) : SameSinks s (readSector k ti s).state := by
  have hread := storeRead_sinks k (chunk k s) s
  unfold readSector
  split
  · exact .refl s
  · dsimp only
    split
    · cases ti with
      | true => exact hread
      | false => exact hread.trans (dmaWriteWords_sinks _ _)
    · exact hread

theorem writeSector_sinks (k : UnitId) (s : State) : SameSinks s (writeSector k s).state := by
  have hread := dmaReadWords_sinks (chunk k s / 2) s
  unfold writeSector
  split
  · exact .refl s
  · dsimp only
    split <;> exact hread.trans (storeWrite_sinks k _ _)

theorem formatSectors_sinks {k : UnitId} {n : Nat} {s t : State} (h : SameSinks s t) :
    (formatSectors k n t).Ends fun _ => SameSinks s := by
  induction n generalizing t with
  | zero => exact h
  | succ n ih =>
    have hwrite := h.trans (storeWrite_sinks k (List.replicate (t.unit k).bytesPerSector.toNat 0#8) t)
    dsimp only [formatSectors]
    split
    · exact ih hwrite
    · exact hwrite

/-- The loop of a data command drives no level if no iteration does. -/
theorem transferSectors_sinks {b : CommandBlock} {u : DiskUnit} {body : State → Iteration} {s t : State}
    (hbody : ∀ v, SameSinks v (body v).state) (h : SameSinks s t) :
    (transferSectors b u body (takeAddress b (takeDma b t))).Ends fun _ => SameSinks s := by
  unfold transferSectors
  split
  · cases hl : sectorLoop body (byteCount b) (takeAddress b (takeDma b t)) with
    | noMeaning r => trivial
    | ended o v => exact h.trans (sectorLoop_ended (R := SameSinks) .refl (fun _ _ _ => .trans) hbody hl).1
  · trivial

theorem seekUnit_sinks {k : UnitId} {c h sec : Nat} {s t : State} {body : State → Handler} (hs : SameSinks s t)
    (hb : ∀ u, SameSinks s u → (body u).Ends fun _ => SameSinks s) :
    (seekUnit k c h sec t body).Ends fun _ => SameSinks s := by
  have sought : ∀ pos, SameSinks s (storeSeek k pos t).2 := fun pos => hs.trans (storeSeek_sinks k pos t)
  unfold seekUnit
  split
  · exact hs
  · split
    · exact hs
    · split
      · exact hb _ (sought _)
      · exact sought _

/-! ## The handlers -/

section
variable (b : CommandBlock) (s : State)

theorem stregHandler_sinks : (stregHandler b s).Ends fun _ => SameSinks s := by
  refine requireUnit_ends (.refl s) fun k _ => requireOnline_ends (.refl s) fun _ => ?_
  dsimp only [Handler.Ends]
  split
  · exact rfl
  · exact dmaWriteWords_sinks _ (takeDma b (takeOperands b k (clearUnsafe k s)))

theorem ufreadHandler_sinks : (ufreadHandler b s).Ends fun _ => SameSinks s := by
  refine requireUnit_ends (.refl s) fun k _ => requireOnline_ends (.refl s) fun _ =>
    requireSafe_ends (.refl s) fun _ => ?_
  split
  · exact .refl s
  · dsimp only [Handler.Ends]
    split
    · exact rfl
    · exact dmaWriteWords_sinks _ (takeDma b (takeOperands b k s))

theorem restoreHandler_sinks : (restoreHandler b s).Ends fun _ => SameSinks s :=
  requireUnit_ends (.refl s) fun _ _ => requireOnline_ends (.refl s) fun _ =>
    seekUnit_sinks rfl fun _ sought => sought

theorem wrfmtHandler_sinks : (wrfmtHandler b s).Ends fun _ => SameSinks s := by
  refine requireUnit_ends (.refl s) fun _ _ => requireOnline_ends (.refl s) fun _ =>
    requireSafe_ends (.refl s) fun _ => requireWritable_ends (.refl s) fun _ =>
      seekUnit_sinks rfl fun _ sought => ?_
  split
  · exact formatSectors_sinks sought
  · trivial

theorem rddataHandler_sinks : (rddataHandler b s).Ends fun _ => SameSinks s :=
  requireUnit_ends (.refl s) fun k _ => requireOnline_ends (.refl s) fun _ =>
    requireSafe_ends (.refl s) fun _ => seekUnit_sinks rfl fun _ sought =>
      transferSectors_sinks (readSector_sinks k b.ti) sought

theorem wrdataHandler_sinks : (wrdataHandler b s).Ends fun _ => SameSinks s :=
  requireUnit_ends (.refl s) fun k _ => requireOnline_ends (.refl s) fun _ =>
    requireSafe_ends (.refl s) fun _ => requireWritable_ends (.refl s) fun _ => seekUnit_sinks rfl fun _ sought =>
      transferSectors_sinks (writeSector_sinks k) sought

end

/-! ## The commands and the trigger write (40_register_access.md R80) -/

/-- A command's only level is the one its completion drives, the last (60_exceptions.md R141). -/
def DrivesFinalLevel (s t : State) : Prop := sinkLevels t.trace = sinkLevels s.trace ++ [t.intLevel]

theorem DrivesFinalLevel.complete {s u : State} (h : SameSinks s u) (o : CmdOutcome) :
    DrivesFinalLevel s (complete o u) :=
  congrArg (· ++ _) h

theorem DrivesFinalLevel.of_finish {s t : State} {h : Handler} (hends : h.Ends fun _ => SameSinks (enterCommand s))
    (he : h.finish = .next t) : DrivesFinalLevel s t := by
  obtain ⟨o, u, e, rfl⟩ := Handler.finish_next he
  exact .complete (hends.of_eq e) o

theorem exec_command_drivesFinalLevel {b : CommandBlock} {i : Instr} (hc : Command b i) {s t : State}
    (h : exec i s = .next t) : DrivesFinalLevel s t := by
  cases hc with
  | streg => exact .of_finish (stregHandler_sinks b _) h
  | wrfmt => exact .of_finish (wrfmtHandler_sinks b _) h
  | rddata => exact .of_finish (rddataHandler_sinks b _) h
  | wrdata => exact .of_finish (wrdataHandler_sinks b _) h
  | ufread => exact .of_finish (ufreadHandler_sinks b _) h
  | ufwrite => exact .of_finish (h := .ended .unsupported (enterCommand s)) (.refl _) h
  | seek => exact .of_finish (h := .ended .success (enterCommand s)) (.refl _) h
  | restore => exact .of_finish (restoreHandler_sinks b _) h

/-- Settles O20: the merge clears `IDLE`, which drives low, and the command drives its final level. -/
theorem triggerDrivesLowThenFinal : Obligations.TriggerDrivesLowThenFinal := by
  intro s t value lanes hidle hclear h
  rw [exec_regwr_trigger hidle hclear, driveSink_of_busy (s := mergeRegister 7 value lanes s) hclear] at h
  have hdriven := exec_command_drivesFinalLevel (decodeBlock_command _) h
  exact hdriven.trans (List.append_assoc (sinkLevels s.trace) [false] [t.intLevel])

end Sys2Proof.Machine
end

section
/-! PROOF. A run goes on while every geometry is admitted: an inadmissible one is all that a command is refused for, and
no operation brings one in. -/

namespace Sys2Proof.Machine

/-! ## What a handler is refused for (45_unit_management.md R134) -/

/-- A property of the refusal of a handler, if it has no meaning. -/
def Handler.Refuses (P : Refusal → Prop) : Handler → Prop
  | .ended _ _ => True
  | .noMeaning r => P r

/-- The refusal an attached unit with an inadmissible sector size is to blame for. -/
def BlamesAUnit (s : State) (r : Refusal) : Prop :=
  r = .inadmissibleGeometry ∧ ∃ k, (s.unit k).backingStore.isSome = true ∧ admittedSectorSize (s.unit k) = false

section
variable {P : Refusal → Prop} {k : UnitId} {s : State} {body : Handler}

theorem requireUnit_refuses {b : CommandBlock} {body : UnitId → Handler} (h : ∀ k, (body k).Refuses P) :
    (requireUnit b s body).Refuses P := by
  unfold requireUnit
  split
  · trivial
  · exact h _

theorem requireOnline_refuses (h : (s.unit k).backingStore.isSome = true → body.Refuses P) :
    (requireOnline k s body).Refuses P := by
  unfold requireOnline
  split
  · trivial
  · exact h (Option.isNone_eq_false_iff.1 (Bool.eq_false_iff.2 ‹_›))

theorem requireSafe_refuses (h : body.Refuses P) : (requireSafe k s body).Refuses P := by
  unfold requireSafe
  split
  · trivial
  · exact h

theorem requireWritable_refuses (h : body.Refuses P) : (requireWritable k s body).Refuses P := by
  unfold requireWritable
  split
  · trivial
  · exact h

theorem seekUnit_refuses {c hd sec : Nat} {body : State → Handler} (h : ∀ t, (body t).Refuses P) :
    (seekUnit k c hd sec s body).Refuses P := by
  obtain ⟨_, e⟩ | ⟨_, _, e⟩ | ⟨_, _, e⟩ | ⟨t, _, _, e⟩ := seekUnit_cases k c hd sec s body <;> rw [e]
  · trivial
  · trivial
  · trivial
  · exact h t

end

/-- The common tail of Read Data and Write Data is refused on an inadmissible sector size only. -/
theorem transferSectors_refuses {P : Refusal → Prop} {b : CommandBlock} {u : DiskUnit} {body : State → Iteration}
    {s : State} (h : admittedSectorSize u = false → P .inadmissibleGeometry) :
    (transferSectors b u body s).Refuses P := by
  unfold transferSectors
  split
  · cases hl : sectorLoop body (byteCount b) s with
    | ended o t => trivial
    | noMeaning r => exact absurd hl (sectorLoop_never_refuses body _ s r)
  · exact h (Bool.eq_false_iff.2 ‹_›)

section
variable (b : CommandBlock) (s : State)

theorem stregHandler_refuses : (stregHandler b s).Refuses (BlamesAUnit s) :=
  requireUnit_refuses fun _ => requireOnline_refuses fun _ => trivial

theorem ufreadHandler_refuses : (ufreadHandler b s).Refuses (BlamesAUnit s) :=
  requireUnit_refuses fun _ => requireOnline_refuses fun _ => requireSafe_refuses <| by
    split <;> trivial

theorem restoreHandler_refuses : (restoreHandler b s).Refuses (BlamesAUnit s) :=
  requireUnit_refuses fun _ => requireOnline_refuses fun _ => seekUnit_refuses fun _ => trivial

theorem wrfmtHandler_refuses : (wrfmtHandler b s).Refuses (BlamesAUnit s) :=
  requireUnit_refuses fun k => requireOnline_refuses fun hon => requireSafe_refuses <| requireWritable_refuses <|
    seekUnit_refuses fun t => by
      split
      · cases hf : formatSectors k (s.unit k).sectorsPerTrack.toNat t with
        | ended o u => trivial
        | noMeaning r => exact absurd hf (formatSectors_never_refuses k _ t r)
      · exact ⟨rfl, k, hon, Bool.eq_false_iff.2 ‹_›⟩

theorem rddataHandler_refuses : (rddataHandler b s).Refuses (BlamesAUnit s) :=
  requireUnit_refuses fun k => requireOnline_refuses fun hon => requireSafe_refuses <|
    seekUnit_refuses fun _ => transferSectors_refuses fun hsize => ⟨rfl, k, hon, hsize⟩

theorem wrdataHandler_refuses : (wrdataHandler b s).Refuses (BlamesAUnit s) :=
  requireUnit_refuses fun k => requireOnline_refuses fun hon => requireSafe_refuses <| requireWritable_refuses <|
    seekUnit_refuses fun _ => transferSectors_refuses fun hsize => ⟨rfl, k, hon, hsize⟩

end

/-- A refused operation is a refused handler's. -/
theorem Handler.Refuses.of_finish {P : Refusal → Prop} {h : Handler} (hr : h.Refuses P) {r : Refusal}
    (e : h.finish = .refused r) : P r := by
  cases h with
  | ended o t => cases e
  | noMeaning r' =>
    cases e
    exact hr

/-- All that a command is refused for is an inadmissible sector size of an attached unit. -/
theorem exec_command_refused {b : CommandBlock} {i : Instr} (hc : Command b i) {s : State} {r : Refusal}
    (h : exec i s = .refused r) : BlamesAUnit s r := by
  cases hc with
  | streg => exact (stregHandler_refuses b (enterCommand s)).of_finish h
  | wrfmt => exact (wrfmtHandler_refuses b (enterCommand s)).of_finish h
  | rddata => exact (rddataHandler_refuses b (enterCommand s)).of_finish h
  | wrdata => exact (wrdataHandler_refuses b (enterCommand s)).of_finish h
  | ufread => exact (ufreadHandler_refuses b (enterCommand s)).of_finish h
  | ufwrite => cases h
  | seek => cases h
  | restore => exact (restoreHandler_refuses b (enterCommand s)).of_finish h

/-- While every attached unit is admitted, every command answers a next state. -/
theorem exec_command_answers {b : CommandBlock} {i : Instr} (hc : Command b i) {s : State} (hs : AllAdmitted s) :
    ∃ t, exec i s = .next t := by
  cases h : exec i s with
  | next t => exact ⟨t, rfl⟩
  | fault f => nomatch f
  | refused r =>
    obtain ⟨_, k, hon, hsize⟩ := exec_command_refused hc h
    exact absurd ((hs k hon).symm.trans hsize) (by decide)

/-! ## Units stay admitted -/

/-- The inside of a command on one unit leaves every unit the same drive (41_command_execution.md R96). -/
theorem Frame.sameGeometry {k : UnitId} {s t : State} (h : Frame k s t) (j : UnitId) :
    SameGeometry (s.unit j) (t.unit j) := by
  by_cases hj : j = k
  · subst hj
    exact h.drive
  · rw [h.others j hj]
    exact SameGeometry.refl _

/-- A command leaves geometry, write protection and attachment of every unit (41_command_execution.md R96). -/
theorem exec_command_sameGeometry {b : CommandBlock} {i : Instr} (hc : Command b i) {s t : State}
    (h : exec i s = .next t) (j : UnitId) : SameGeometry (s.unit j) (t.unit j) := by
  obtain ⟨o, u, ⟨_, hend⟩, rfl⟩ := exec_command_cases hc h
  obtain rfl | ⟨k, _, _, hf⟩ := hend
  · exact SameGeometry.refl _
  · exact hf.sameGeometry j

theorem AllAdmitted.of_sameGeometry {s t : State} (hs : AllAdmitted s)
    (h : ∀ j, SameGeometry (s.unit j) (t.unit j)) : AllAdmitted t := by
  intro j hon
  have hsize := hs j ((h j).online.symm.trans hon)
  rwa [admittedSectorSize_iff, (h j).bytesPerSector, ← admittedSectorSize_iff]

theorem AllAdmitted.setUnit {s : State} (hs : AllAdmitted s) (k : UnitId) {u : DiskUnit}
    (hu : u.backingStore.isSome = true → admittedSectorSize u = true) : AllAdmitted (s.setUnit k u) := by
  intro j
  by_cases hj : j = k
  · subst hj
    rw [State.unit_setUnit_same]
    exact hu
  · rw [State.unit_setUnit_ne s u hj]
    exact hs j

/-! ## Host operations -/

/-- What a run needs of an operation that goes from `s` to `t`: every attached unit is still admitted, and the operations
to come are the same. -/
structure StaysAdmitted (s t : State) : Prop where
  admitted : AllAdmitted t
  pending : t.pending = s.pending

theorem exec_command_staysAdmitted {b : CommandBlock} {i : Instr} (hc : Command b i) {s : State}
    (hs : AllAdmitted s) : ∃ t, exec i s = .next t ∧ StaysAdmitted s t := by
  obtain ⟨t, h⟩ := exec_command_answers hc hs
  obtain ⟨o, _, hposted⟩ := exec_command_posted hc h
  exact ⟨t, h, hs.of_sameGeometry (exec_command_sameGeometry hc h), hposted.pending⟩

theorem execRegwr_staysAdmitted (index : Nat) (value : Word) (lanes : BitVec 2) {s : State} (hs : AllAdmitted s) :
    ∃ t, execRegwr index value lanes s = .next t ∧ StaysAdmitted s t := by
  obtain e | ⟨i, _, e, _⟩ | ⟨_, _, _, e⟩ := execRegwr_cases index value lanes s
  · exact ⟨s, e, hs, rfl⟩
  · obtain ⟨hunits, _, _, _, hpending, _⟩ := arbitrateWrite_frame i (mergeRegister i value lanes s)
    refine ⟨_, e, fun k => ?_, hpending⟩
    rw [State.unit, hunits]
    exact hs k
  · rw [e, executeCommand_eq_exec]
    obtain ⟨t, h, hadmitted, hpending⟩ := exec_command_staysAdmitted
      (s := driveSink (mergeRegister 7 value lanes s)) (decodeBlock_command _) hs
    exact ⟨t, h, hadmitted, hpending⟩

theorem detachUnit_staysAdmitted (k : UnitId) {s : State} (hs : AllAdmitted s) :
    StaysAdmitted s (detachUnit k s) := by
  have hreleased : StaysAdmitted s (releaseStore k s) := by
    unfold releaseStore
    split <;> exact ⟨hs, rfl⟩
  exact ⟨hreleased.admitted.setUnit k fun hon => absurd hon (by decide), hreleased.pending⟩

/-- An accepted header of an image the environment may offer has an admitted sector size. -/
theorem attachedUnit_admitted {st st' : BackingStore} {g : Geometry} (hst : ImageAdmitted st)
    (hg : (readHeader st).1 = some g) (readOnly : Bool) : admittedSectorSize (attachedUnit g st' readOnly) = true :=
  (admittedSectorSize_iff _).2 ⟨(hst g hg).1, (hst g hg).2, readHeader_bytesPerSector hg⟩

theorem attachDetached_staysAdmitted (k : UnitId) {st : BackingStore} (hst : ImageAdmitted st) (readOnly : Bool)
    {s : State} (hs : AllAdmitted s) : StaysAdmitted s (attachDetached k st readOnly s) := by
  have hread : StaysAdmitted s (headerEvents k st s) := by
    unfold headerEvents
    dsimp only
    split <;> exact ⟨hs, rfl⟩
  unfold attachDetached
  dsimp only
  split
  · exact ⟨hread.admitted, hread.pending⟩
  · rename_i g hg
    exact ⟨hread.admitted.setUnit k fun _ => attachedUnit_admitted hst hg readOnly, hread.pending⟩

theorem execAttach_staysAdmitted (unit : Nat) {st : BackingStore} (hst : ImageAdmitted st) (readOnly : Bool)
    {s : State} (hs : AllAdmitted s) : ∃ t, execAttach unit st readOnly s = .next t ∧ StaysAdmitted s t := by
  unfold execAttach
  split
  · exact ⟨_, rfl, hs, rfl⟩
  · rename_i k _
    have hdetached : StaysAdmitted s (detachIfAttached k s) := by
      unfold detachIfAttached
      split
      · exact detachUnit_staysAdmitted k hs
      · exact ⟨hs, rfl⟩
    obtain ⟨hadmitted, hpending⟩ := attachDetached_staysAdmitted k hst readOnly hdetached.admitted
    exact ⟨_, rfl, hadmitted, hpending.trans hdetached.pending⟩

theorem execDetach_staysAdmitted (unit : Nat) {s : State} (hs : AllAdmitted s) :
    ∃ t, execDetach unit s = .next t ∧ StaysAdmitted s t := by
  unfold execDetach
  split
  · exact ⟨_, rfl, hs, rfl⟩
  · exact ⟨_, rfl, detachUnit_staysAdmitted _ hs⟩

theorem exec_hostOp_staysAdmitted {o : HostOp} (ho : InputAdmitted (.op o)) {s : State} (hs : AllAdmitted s) :
    ∃ t, exec o.instr s = .next t ∧ StaysAdmitted s t := by
  cases o with
  | regrd index => exact ⟨_, rfl, hs, rfl⟩
  | regwr index value lanes => exact execRegwr_staysAdmitted index value lanes hs
  | init => exact ⟨_, rfl, hs, rfl⟩
  | attach unit st readOnly => exact execAttach_staysAdmitted unit ho readOnly hs
  | detach unit => exact execDetach_staysAdmitted unit hs

/-! ## Steps and runs -/

/-- One step goes on, and the next can too. -/
theorem step_admitted {s : State} (hs : AllAdmitted s) (hp : PendingAdmitted s) :
    ∃ t, step s = .next t ∧ AllAdmitted t ∧ PendingAdmitted t := by
  unfold step
  split
  · exact ⟨s, rfl, hs, hp⟩
  · rename_i o rest hpending
    rw [PendingAdmitted, hpending, List.forall_mem_cons] at hp
    obtain ⟨ho, hrest⟩ := hp
    obtain ⟨t, h, hstays⟩ := exec_hostOp_staysAdmitted (s := s.begin rest) ho hs
    exact ⟨t, h, hstays.admitted, by rwa [PendingAdmitted, hstays.pending]⟩
  · rename_i word value rest hpending
    rw [PendingAdmitted, hpending, List.forall_mem_cons] at hp
    exact ⟨_, rfl, hs, hp.2⟩

/-- A run whose first step answers goes on from its answer. -/
theorem run_succ {M : Host.Core} {s t : M.State} (h : M.step s = .next t) (n : Nat) : M.run (n + 1) s = M.run n t := by
  rw [Host.Core.run, h]

/-- Settles O59: by induction on the number of steps, each keeping the condition under which it goes on. -/
theorem admittedRunsNeverStop : Obligations.AdmittedRunsNeverStop := by
  intro n
  induction n with
  | zero => exact fun s hs hp => ⟨s, rfl, hs, hp⟩
  | succ n ih =>
    intro s hs hp
    obtain ⟨u, hstep, hu, hpu⟩ := step_admitted hs hp
    obtain ⟨t, hrun, ht⟩ := ih u hu hpu
    exact ⟨t, (run_succ (M := Sys2Proof.core) hstep n).trans hrun, ht⟩

end Sys2Proof.Machine
end

section
/-! PROOF. The preconditions of the commands, in the order of 41_command_execution.md R93: the unit a block selects, and
what a command reports before it has touched anything. -/

namespace Sys2Proof.Machine

/-! ## The selected unit (41_command_execution.md R86) -/

/-- The winner is the lowest-numbered unit whose select bit is set. -/
theorem lowestSelected_eq_some_iff : ∀ (sel : BitVec 4) (k : UnitId), lowestSelected sel = some k.val ↔
    sel.getLsbD (3 - k.val) = true ∧ ∀ j : UnitId, j < k → sel.getLsbD (3 - j.val) = false := by
  decide

theorem unitOfNat_eq_some_iff {m n : Nat} {k : UnitId} : unitOfNat m n = some k ↔ k.val = n ∧ n < m := by
  refine ⟨unitOfNat_some, ?_⟩
  rintro ⟨rfl, hlt⟩
  rw [unitOfNat, dif_pos k.isLt, if_pos hlt]

theorem currentUnit_eq_some_iff {m : Nat} {sel : BitVec 4} {k : UnitId} :
    currentUnit m sel = some k ↔ k.val < m ∧ lowestSelected sel = some k.val := by
  unfold currentUnit
  cases lowestSelected sel with
  | none => simp
  | some n =>
    simp only [unitOfNat_eq_some_iff, Option.some.injEq]
    constructor
    · rintro ⟨rfl, hlt⟩
      exact ⟨hlt, rfl⟩
    · rintro ⟨hlt, rfl⟩
      exact ⟨rfl, hlt⟩

/-- Settles O23: the winner among the select bits, then the bound. -/
theorem lowestSelectBitWins : Obligations.LowestSelectBitWins := fun _ sel k =>
  currentUnit_eq_some_iff.trans (and_congr_right' (lowestSelected_eq_some_iff sel k))

/-! ## A failed precondition ends the handler where it stands -/

theorem requireOnline_offline {k : UnitId} {s : State} {body : Handler} (h : (s.unit k).backingStore = none) :
    requireOnline k s body = .ended .unitOffline s := by
  simp [requireOnline, h]

theorem requireSafe_unsafe {k : UnitId} {s : State} {body : Handler} (h : (s.unit k).unsafeFlag = true) :
    requireSafe k s body = .ended .unitUnsafe s :=
  if_pos h

theorem requireWritable_protected {k : UnitId} {s : State} {body : Handler}
    (h : (s.unit k).writeProtected = true) : requireWritable k s body = .ended .writeProtected s :=
  if_pos h

/-! ## The preconditions each class of commands begins with -/

/-- Codes 0, 1, 2, 3, 4 and 7 resolve a unit that must be attached (41_command_execution.md R89, R90). -/
theorem UnitCommand.exec_eq {b : CommandBlock} {i : Instr} (hc : UnitCommand b i) (s : State) :
    ∃ body : UnitId → Handler, exec i s = (requireUnit b (enterCommand s) fun k =>
      requireOnline k (enterCommand s) (body k)).finish := by
  cases hc <;> exact ⟨_, rfl⟩

/-- Codes 1 to 4 need a safe unit besides (41_command_execution.md R91). -/
theorem SafePackCommand.exec_eq {b : CommandBlock} {i : Instr} (hc : SafePackCommand b i) (s : State) :
    ∃ body : UnitId → Handler, exec i s = (requireUnit b (enterCommand s) fun k =>
      requireOnline k (enterCommand s) <| requireSafe k (enterCommand s) (body k)).finish := by
  cases hc <;> exact ⟨_, rfl⟩

/-- Codes 1 and 3 need a writable unit besides (41_command_execution.md R92). -/
theorem WriteClassCommand.exec_eq {b : CommandBlock} {i : Instr} (hc : WriteClassCommand b i) (s : State) :
    ∃ body : UnitId → Handler, exec i s = (requireUnit b (enterCommand s) fun k =>
      requireOnline k (enterCommand s) <| requireSafe k (enterCommand s) <|
      requireWritable k (enterCommand s) (body k)).finish := by
  cases hc <;> exact ⟨_, rfl⟩

/-! ## The reports -/

/-- A command that ends where it entered posts its outcome and touches nothing else: no unit, no byte of memory, and
the sink is all that is driven (41_command_execution.md R83, R94). -/
theorem exec_reports {i : Instr} {s : State} {h : Handler} (hexec : exec i s = h.finish) {o : CmdOutcome}
    (hend : h = .ended o (enterCommand s)) :
    ∃ t, exec i s = .next t ∧ Posted s t o.status o.detail ∧ t.units = s.units ∧ t.mem = s.mem ∧
      t.trace = .sink t.intLevel :: s.trace :=
  ⟨complete o (enterCommand s), by rw [hexec, hend, Handler.finish], complete_posted o rfl rfl rfl rfl, rfl, rfl, rfl⟩

/-- Settles O24: the first precondition fails. -/
theorem noUnitSelectedTouchesNothing : Obligations.NoUnitSelectedTouchesNothing := by
  intro b i s hc hnone
  obtain ⟨body, hexec⟩ := hc.exec_eq s
  exact exec_reports (o := .noUnitSelected) hexec (requireUnit_none hnone)

/-- Settles O25: the second precondition fails. -/
theorem offlineUnitIsReported : Obligations.OfflineUnitIsReported := by
  intro b i s k hc hk hoff
  obtain ⟨body, hexec⟩ := hc.exec_eq s
  refine exec_reports (o := .unitOffline) hexec ?_
  rw [requireUnit_some (s := enterCommand s) hk, requireOnline_offline (s := enterCommand s) hoff]

/-- Settles O26: the third precondition fails, whatever comes after it. -/
theorem unsafeUnitIsReported : Obligations.UnsafeUnitIsReported := by
  intro b i s k hc hk hon hunsafe
  obtain ⟨body, hexec⟩ := hc.exec_eq s
  refine exec_reports (o := .unitUnsafe) hexec ?_
  rw [requireUnit_some (s := enterCommand s) hk, requireOnline_ok (s := enterCommand s) hon,
    requireSafe_unsafe (s := enterCommand s) hunsafe]

/-- Settles O27: the fourth precondition fails, whatever the address. -/
theorem writeProtectedUnitIsReported : Obligations.WriteProtectedUnitIsReported := by
  intro b i s k hc hready hprotected
  obtain ⟨body, hexec⟩ := hc.exec_eq s
  refine exec_reports (o := .writeProtected) hexec ?_
  rw [requireUnit_some (s := enterCommand s) hready.selected, requireOnline_ok (s := enterCommand s) hready.online,
    requireSafe_ok (s := enterCommand s) hready.safe, requireWritable_protected (s := enterCommand s) hprotected]

end Sys2Proof.Machine
end

section
/-! PROOF. What a command may change beside the selected unit and the posted registers, which units' flags and media,
and which bytes of host memory. -/

namespace Sys2Proof.Machine

/-! ## The registers a completion leaves (41_command_execution.md R94, R96) -/

/-- Posting leaves the low byte of `w0`. -/
theorem posted_low_byte (w0 : Word) (o : CmdOutcome) :
    ((w0 &&& 0x00FF#16) ||| o.status) &&& 0x00FF#16 = w0 &&& 0x00FF#16 := by
  have hlow : o.status &&& 0x00FF#16 = 0#16 := by cases o <;> decide
  rw [BitVec.and_or_distrib_right, hlow, BitVec.or_zero, BitVec.and_assoc, BitVec.and_self]

/-- Posting leaves the bits of `w7` that no outcome uses. -/
theorem posted_unused_bits (w7 : Word) (o : CmdOutcome) :
    (w7 ||| 0x8000#16 ||| o.detail) &&& 0x1EFA#16 = w7 &&& 0x1EFA#16 := by
  have hunused : (0x8000#16 ||| o.detail) &&& 0x1EFA#16 = 0#16 := detail_outside o
  rw [BitVec.or_assoc, BitVec.and_or_distrib_right, hunused, BitVec.or_zero]

/-- A command leaves every unit but the selected one as it is. -/
theorem exec_command_others {b : CommandBlock} {i : Instr} (hc : Command b i) {s t : State}
    (h : exec i s = .next t) {j : UnitId} (hj : currentUnit s.cfg.maxUnits b.sel ≠ some j) :
    t.unit j = s.unit j := by
  obtain ⟨o, u, ⟨_, hend⟩, rfl⟩ := exec_command_cases hc h
  obtain rfl | ⟨k, hk, _, hf⟩ := hend
  · rfl
  · exact hf.others j fun e => hj (e ▸ hk)

/-! ## Flags, media and memory -/

theorem State.unit_of_units {s t : State} (h : t.units = s.units) (j : UnitId) : t.unit j = s.unit j :=
  congrArg (Units.get · j) h

/-- No unit's `unsafeFlag` changes from `s` to `t`. -/
def SameFlags (s t : State) : Prop := ∀ j, (t.unit j).unsafeFlag = (s.unit j).unsafeFlag

/-- No medium's content changes from `s` to `t`; positions and planned answers may. -/
def SameMedia (s t : State) : Prop :=
  ∀ j, (t.unit j).backingStore.map BackingStore.data = (s.unit j).backingStore.map BackingStore.data

/-- The flags and the media stay: what reading a store keeps. -/
def KeepsMedia (s t : State) : Prop := SameFlags s t ∧ SameMedia s t

/-- The flags and host memory stay: what writing a store keeps. -/
def KeepsMemory (s t : State) : Prop := SameFlags s t ∧ t.mem = s.mem

/-- Every byte of host memory reads as before but the `n` from the block's DMA address on. -/
def WritesOnly (b : CommandBlock) (n : Nat) (s t : State) : Prop :=
  ∀ x, (∀ i, i < n → x ≠ dmaByte (dmaAddress b) i) → Memory.readByte t.mem x = Memory.readByte s.mem x

theorem KeepsMedia.refl (s : State) : KeepsMedia s s := ⟨fun _ => rfl, fun _ => rfl⟩

theorem KeepsMedia.trans {s t u : State} (h : KeepsMedia s t) (g : KeepsMedia t u) : KeepsMedia s u :=
  ⟨fun j => (g.1 j).trans (h.1 j), fun j => (g.2 j).trans (h.2 j)⟩

theorem KeepsMemory.refl (s : State) : KeepsMemory s s := ⟨fun _ => rfl, rfl⟩

theorem KeepsMemory.trans {s t u : State} (h : KeepsMemory s t) (g : KeepsMemory t u) : KeepsMemory s u :=
  ⟨fun j => (g.1 j).trans (h.1 j), g.2.trans h.2⟩

theorem WritesOnly.of_mem {b : CommandBlock} {n : Nat} {s t : State} (h : t.mem = s.mem) : WritesOnly b n s t :=
  fun _ _ => by rw [h]

theorem WritesOnly.trans {b : CommandBlock} {n : Nat} {s t u : State} (h : WritesOnly b n s t)
    (g : WritesOnly b n t u) : WritesOnly b n s u :=
  fun x hx => (g x hx).trans (h x hx)

/-! ## The stores -/

@[simp] theorem setStore_unsafeFlag (k j : UnitId) (st : BackingStore) (s : State) :
    ((s.setStore k st).unit j).unsafeFlag = (s.unit j).unsafeFlag := by
  by_cases hj : j = k
  · subst hj
    rw [State.unit_setStore_same]
  · rw [State.unit_setStore_ne s st hj]

theorem setStore_keepsMedia {k : UnitId} {st st' : BackingStore} {s : State}
    (hst : (s.unit k).backingStore = some st) (hdata : st'.data = st.data) : KeepsMedia s (s.setStore k st') := by
  refine ⟨fun j => setStore_unsafeFlag k j st' s, fun j => ?_⟩
  by_cases hj : j = k
  · subst hj
    simp [hst, hdata]
  · rw [State.unit_setStore_ne s st' hj]

theorem storeSeek_keepsMedia (k : UnitId) (pos : Nat) (s : State) : KeepsMedia s (storeSeek k pos s).2 := by
  unfold storeSeek
  split
  · exact .refl s
  · exact setStore_keepsMedia ‹_› (BackingStore.seek_data _ pos)

theorem storeRead_keepsMedia (k : UnitId) (n : Nat) (s : State) : KeepsMedia s (storeRead k n s).2 := by
  unfold storeRead
  split
  · exact .refl s
  · exact setStore_keepsMedia ‹_› (BackingStore.read_data _ n)

theorem storeSeek_keepsMemory (k : UnitId) (pos : Nat) (s : State) : KeepsMemory s (storeSeek k pos s).2 :=
  ⟨(storeSeek_keepsMedia k pos s).1, storeSeek_mem k pos s⟩

theorem storeWrite_keepsMemory (k : UnitId) (bytes : List Byte) (s : State) :
    KeepsMemory s (storeWrite k bytes s).2 := by
  refine ⟨?_, storeWrite_mem k bytes s⟩
  unfold storeWrite
  split
  · exact fun _ => rfl
  · exact fun j => setStore_unsafeFlag k j _ s

/-! ## Iterations and loops -/

theorem readSector_keepsMedia (k : UnitId) (ti : Bool) (s : State) : KeepsMedia s (readSector k ti s).state := by
  have hread := storeRead_keepsMedia k (chunk k s) s
  have hwrite : ∀ vs s1, KeepsMedia s s1 → KeepsMedia s (dmaWriteWords vs s1) := fun vs s1 h =>
    h.trans ⟨fun j => by rw [dmaWriteWords_unit], fun j => by rw [dmaWriteWords_unit]⟩
  unfold readSector
  split
  · exact .refl s
  · dsimp only
    split
    · cases ti with
      | true => exact hread
      | false => exact hwrite _ (loadBuffer _ _) hread
    · exact hread

theorem writeSector_keepsMemory (k : UnitId) (s : State) : KeepsMemory s (writeSector k s).state := by
  have hfetch : KeepsMemory s (dmaReadWords (chunk k s / 2) s).2 :=
    ⟨fun j => by rw [dmaReadWords_unit], dmaReadWords_mem _ s⟩
  have hstore : ∀ bytes buffer, KeepsMemory s
      (storeWrite k bytes (loadBuffer buffer (dmaReadWords (chunk k s / 2) s).2)).2 := fun bytes _ =>
    KeepsMemory.trans hfetch (storeWrite_keepsMemory k bytes (loadBuffer _ _))
  unfold writeSector
  split
  · exact .refl s
  · dsimp only
    split <;> exact hstore _ _

theorem formatSectors_keepsMemory {k : UnitId} {n : Nat} {s t : State} (h : KeepsMemory s t) :
    (formatSectors k n t).Ends fun _ => KeepsMemory s := by
  induction n generalizing t with
  | zero => exact h
  | succ n ih =>
    have hwrite := h.trans (storeWrite_keepsMemory k (List.replicate (t.unit k).bytesPerSector.toNat 0#8) t)
    dsimp only [formatSectors]
    split
    · exact ih hwrite
    · exact hwrite

/-! ## Seeks and transfers, for any relation between their start and their end -/

/-- A property of where a command stands at the seek, and of where the reposition leaves it, holds at its end if the
rest of the handler keeps it. -/
theorem seekUnit_ends_of {P : State → Prop} {k : UnitId} {c h sec : Nat} {s : State} {body : State → Handler}
    (hs : P s) (hsought : ∀ pos, P (storeSeek k pos s).2) (hb : ∀ t, P t → (body t).Ends fun _ => P) :
    (seekUnit k c h sec s body).Ends fun _ => P := by
  unfold seekUnit
  split
  · exact hs
  · split
    · exact hs
    · split
      · exact hb _ (hsought _)
      · exact hsought _

/-- Whatever relation every iteration keeps (and composes) holds from the start of a transfer to its end. -/
theorem transferSectors_ends_of {R : State → State → Prop} (hrefl : ∀ s, R s s)
    (htrans : ∀ s t u, R s t → R t u → R s u) {body : State → Iteration} (hbody : ∀ s, R s (body s).state)
    (b : CommandBlock) (u : DiskUnit) (s : State) : (transferSectors b u body s).Ends fun _ => R s := by
  unfold transferSectors
  split
  · cases hl : sectorLoop body (byteCount b) s with
    | noMeaning r => trivial
    | ended o t => exact (sectorLoop_ended hrefl htrans hbody hl).1
  · trivial

theorem Handler.Ends.imp {P Q : CmdOutcome → State → Prop} {h : Handler} (hends : h.Ends P)
    (himp : ∀ o t, P o t → Q o t) : h.Ends Q := by
  cases h with
  | ended o t => exact himp o t hends
  | noMeaning r => trivial

/-! ## DMA writes stay inside the block's transfer (42_geometry_dma.md R103, R108, R111) -/

/-- Words written from the block's address on. -/
theorem dmaWriteWords_writesOnly {b : CommandBlock} {n : Nat} {ws : List Word} {s t : State}
    (hmem : t.mem = s.mem) (hdma : t.xfer.dma = dmaAddress b) (hn : 2 * ws.length ≤ n) (hlen : ws.length ≤ 3) :
    WritesOnly b n s (dmaWriteWords ws t) := by
  intro x hx
  have hstored := dmaWriteWords_stored ws t (hdma ▸ dmaAddress_even b) (by omega)
  rw [hstored.2 x fun i hi => ?_, hmem]
  rw [unpackWords_length] at hi
  rw [hdma]
  exact hx i (by omega)

/-- A transfer of Read Data from the block's address and count. -/
theorem InsideTransfer.writesOnly {b : CommandBlock} {s t : State}
    (h : InsideTransfer (takeAddress b (takeDma b s)) t) : WritesOnly b (byteCount b) s t := by
  obtain ⟨n, hn, _, hmem⟩ := h (dmaAddress_even b) (byteCount_even b).2
  have hcount : 2 * n + t.xfer.remaining ≤ byteCount b := hn
  exact fun x hx => hmem x fun i hi => hx i (by omega)

/-! ## The handlers -/

@[simp] theorem clearUnsafe_backingStore (k j : UnitId) (s : State) :
    ((clearUnsafe k s).unit j).backingStore = (s.unit j).backingStore := by
  by_cases hj : j = k
  · subst hj
    rw [clearUnsafe_unit_same]
  · rw [clearUnsafe, State.unit_setUnit_ne s _ hj]

section
variable (b : CommandBlock) (s : State)

theorem stregHandler_keeps : (stregHandler b s).Ends fun _ t =>
    (∀ j, (t.unit j).backingStore = (s.unit j).backingStore) ∧ WritesOnly b (byteCount b) s t := by
  refine requireUnit_ends ⟨fun _ => rfl, .of_mem rfl⟩ fun k _ =>
    requireOnline_ends ⟨fun _ => rfl, .of_mem rfl⟩ fun _ => ?_
  dsimp only [Handler.Ends]
  split
  · exact ⟨fun j => clearUnsafe_backingStore k j s, .of_mem rfl⟩
  · refine ⟨fun j => ?_, dmaWriteWords_writesOnly rfl rfl ?_ ?_⟩
    · rw [dmaWriteWords_unit]
      exact clearUnsafe_backingStore k j s
    · rw [List.length_take, wordLimit]
      omega
    · rw [List.length_take, wordLimit]
      omega

theorem ufreadHandler_keeps :
    (ufreadHandler b s).Ends fun _ t => t.units = s.units ∧ WritesOnly b 6 s t := by
  refine requireUnit_ends ⟨rfl, .of_mem rfl⟩ fun k _ => requireOnline_ends ⟨rfl, .of_mem rfl⟩ fun _ =>
    requireSafe_ends ⟨rfl, .of_mem rfl⟩ fun _ => ?_
  have hlen : ((echoWords (s.unit k) b).take (echoLimit s.cfg b)).length ≤ 3 := by
    rw [List.length_take]
    exact min_le_right _ _
  split
  · exact ⟨rfl, .of_mem rfl⟩
  · dsimp only [Handler.Ends]
    split
    · exact ⟨rfl, .of_mem rfl⟩
    · exact ⟨dmaWriteWords_units _ _, dmaWriteWords_writesOnly rfl rfl (by omega) hlen⟩

theorem restoreHandler_keeps : (restoreHandler b s).Ends fun _ t => SameMedia s t ∧ t.mem = s.mem := by
  refine requireUnit_ends ⟨fun _ => rfl, rfl⟩ fun k _ => requireOnline_ends ⟨fun _ => rfl, rfl⟩ fun _ => ?_
  have hclear : SameMedia s (takeOperands b k (clearUnsafe k s)) := fun j =>
    congrArg _ (clearUnsafe_backingStore k j s)
  refine seekUnit_ends_of ⟨hclear, rfl⟩ (fun pos => ⟨fun j => ?_, storeSeek_mem k pos _⟩) fun _ h => h
  exact ((storeSeek_keepsMedia k pos _).2 j).trans (hclear j)

theorem wrfmtHandler_keepsMemory : (wrfmtHandler b s).Ends fun _ => KeepsMemory s := by
  refine requireUnit_ends (.refl s) fun k _ => requireOnline_ends (.refl s) fun _ =>
    requireSafe_ends (.refl s) fun _ => requireWritable_ends (.refl s) fun _ =>
      seekUnit_ends_of (.refl s) (fun pos => storeSeek_keepsMemory k pos (takeOperands b k s)) fun t ht => ?_
  split
  · exact formatSectors_keepsMemory ht
  · trivial

theorem wrdataHandler_keepsMemory : (wrdataHandler b s).Ends fun _ => KeepsMemory s := by
  refine requireUnit_ends (.refl s) fun k _ => requireOnline_ends (.refl s) fun _ =>
    requireSafe_ends (.refl s) fun _ => requireWritable_ends (.refl s) fun _ =>
      seekUnit_ends_of (.refl s) (fun pos => storeSeek_keepsMemory k pos (takeOperands b k s)) fun t ht => ?_
  exact (transferSectors_ends_of .refl (fun _ _ _ => .trans) (writeSector_keepsMemory k) b (s.unit k) _).imp
    fun _ _ h => ht.trans h

theorem rddataHandler_keeps :
    (rddataHandler b s).Ends fun _ t => KeepsMedia s t ∧ WritesOnly b (byteCount b) s t := by
  have hself : KeepsMedia s s ∧ WritesOnly b (byteCount b) s s := ⟨.refl s, .of_mem rfl⟩
  refine requireUnit_ends hself fun k _ => requireOnline_ends hself fun _ => requireSafe_ends hself fun _ =>
      seekUnit_ends_of (P := fun t => KeepsMedia s t ∧ WritesOnly b (byteCount b) s t) hself
        (fun pos => ⟨storeSeek_keepsMedia k pos (takeOperands b k s), .of_mem (storeSeek_mem k pos _)⟩) ?_
  rintro t ⟨hmedia, hmem⟩
  refine (transferSectors_ends_of (R := fun x y => KeepsMedia x y ∧ InsideTransfer x y) (fun x => ⟨.refl x, .refl x⟩)
    (fun _ _ _ hx hy => ⟨hx.1.trans hy.1, hx.2.trans hy.2⟩)
    (fun x => ⟨readSector_keepsMedia k b.ti x, readSector_inside k b.ti x⟩) b (s.unit k) _).imp ?_
  rintro _ _ ⟨hloop, hinside⟩
  exact ⟨hmedia.trans hloop, hmem.trans hinside.writesOnly⟩

end

/-! ## The commands -/

/-- Completion posting keeps what it does not look at. -/
theorem Handler.Ends.of_finish {R : State → Prop} {h : Handler} (hends : h.Ends fun _ => R)
    (hpost : ∀ o u, R u → R (complete o u)) {t : State} (he : h.finish = .next t) : R t := by
  obtain ⟨o, u, e, rfl⟩ := Handler.finish_next he
  exact hpost o u (hends.of_eq e)

section
variable {b : CommandBlock} {s t : State}

theorem exec_streg_keeps (h : exec (.streg b) s = .next t) :
    (∀ j, (t.unit j).backingStore = (s.unit j).backingStore) ∧ WritesOnly b (byteCount b) s t :=
  (stregHandler_keeps b (enterCommand s)).of_finish (fun _ _ => id) h

theorem exec_ufread_keeps (h : exec (.ufread b) s = .next t) : t.units = s.units ∧ WritesOnly b 6 s t :=
  (ufreadHandler_keeps b (enterCommand s)).of_finish (fun _ _ => id) h

theorem exec_restore_keeps (h : exec (.restore b) s = .next t) : SameMedia s t ∧ t.mem = s.mem :=
  (restoreHandler_keeps b (enterCommand s)).of_finish (fun _ _ => id) h

theorem exec_wrfmt_keepsMemory (h : exec (.wrfmt b) s = .next t) : KeepsMemory s t :=
  (wrfmtHandler_keepsMemory b (enterCommand s)).of_finish (fun _ _ => id) h

theorem exec_wrdata_keepsMemory (h : exec (.wrdata b) s = .next t) : KeepsMemory s t :=
  (wrdataHandler_keepsMemory b (enterCommand s)).of_finish (fun _ _ => id) h

theorem exec_rddata_keeps (h : exec (.rddata b) s = .next t) :
    KeepsMedia s t ∧ WritesOnly b (byteCount b) s t :=
  (rddataHandler_keeps b (enterCommand s)).of_finish (fun _ _ => id) h

theorem exec_ufwrite_keeps (h : exec (.ufwrite b) s = .next t) : t.units = s.units ∧ t.mem = s.mem := by
  cases h
  exact ⟨rfl, rfl⟩

theorem exec_seek_keeps (h : exec (.seek b) s = .next t) : t.units = s.units ∧ t.mem = s.mem := by
  cases h
  exact ⟨rfl, rfl⟩

end

section
variable {b : CommandBlock} {i : Instr} {s t : State} (h : exec i s = .next t)
include h

/-- Only Store Registers and Restore change an `unsafeFlag`. -/
theorem exec_command_flags (hc : Command b i) (hstreg : i ≠ .streg b) (hrestore : i ≠ .restore b) : SameFlags s t := by
  cases hc with
  | streg => exact absurd rfl hstreg
  | wrfmt => exact (exec_wrfmt_keepsMemory h).1
  | rddata =>
    obtain ⟨⟨hflags, _⟩, _⟩ := exec_rddata_keeps h
    exact hflags
  | wrdata => exact (exec_wrdata_keepsMemory h).1
  | ufread => exact fun j => by rw [State.unit_of_units (exec_ufread_keeps h).1]
  | ufwrite => exact fun j => by rw [State.unit_of_units (exec_ufwrite_keeps h).1]
  | seek => exact fun j => by rw [State.unit_of_units (exec_seek_keeps h).1]
  | restore => exact absurd rfl hrestore

/-- The commands that touch no store. -/
theorem exec_command_stores (hi : i = .streg b ∨ i = .ufread b ∨ i = .ufwrite b ∨ i = .seek b) (j : UnitId) :
    (t.unit j).backingStore = (s.unit j).backingStore := by
  obtain rfl | rfl | rfl | rfl := hi
  · exact (exec_streg_keeps h).1 j
  · rw [State.unit_of_units (exec_ufread_keeps h).1]
  · rw [State.unit_of_units (exec_ufwrite_keeps h).1]
  · rw [State.unit_of_units (exec_seek_keeps h).1]

/-- The commands that write no memory. -/
theorem exec_command_mem
    (hi : i = .wrfmt b ∨ i = .wrdata b ∨ i = .ufwrite b ∨ i = .seek b ∨ i = .restore b) : t.mem = s.mem := by
  obtain rfl | rfl | rfl | rfl | rfl := hi
  · exact (exec_wrfmt_keepsMemory h).2
  · exact (exec_wrdata_keepsMemory h).2
  · exact (exec_ufwrite_keeps h).2
  · exact (exec_seek_keeps h).2
  · exact (exec_restore_keeps h).2

/-- The bytes of the transfer are all the host memory a command may change. -/
theorem exec_command_writesOnly (hc : Command b i) :
    WritesOnly b (if i = .ufread b then 6 else byteCount b) s t := by
  cases hc with
  | streg => exact (exec_streg_keeps h).2
  | rddata => exact (exec_rddata_keeps h).2
  | ufread =>
    rw [if_pos rfl]
    exact (exec_ufread_keeps h).2
  | wrfmt | wrdata | ufwrite | seek | restore => exact .of_mem (exec_command_mem h (b := b) (by simp))

end

/-- Settles O46: the posted registers, the frame on the selected unit, and what each command keeps besides. -/
theorem commandFrameHolds : Obligations.CommandFrameHolds := by
  intro b i s t hc h
  obtain ⟨o, _, hposted⟩ := exec_command_posted hc h
  refine ⟨?_, ?_, ?_, fun j hj => exec_command_others hc h hj, exec_command_sameGeometry hc h,
    exec_command_flags h hc, exec_command_stores h, exec_command_mem h, exec_command_writesOnly h hc⟩
  · rw [hposted.regs]
    rfl
  · rw [hposted.regs]
    exact posted_low_byte s.regs.w0 o
  · rw [hposted.regs]
    exact posted_unused_bits s.regs.w7 o

/-! ## Write protection (41_command_execution.md R92, 45_unit_management.md R131) -/

/-- A write-class command on a protected unit ends at a precondition. -/
theorem WriteClassCommand.units_of_protected {b : CommandBlock} {i : Instr} (hc : WriteClassCommand b i) {k : UnitId}
    {s t : State} (hk : currentUnit s.cfg.maxUnits b.sel = some k) (hprotected : (s.unit k).writeProtected = true)
    (h : exec i s = .next t) : t.units = s.units := by
  obtain ⟨body, hexec⟩ := hc.exec_eq s
  rw [hexec, requireUnit_some (s := enterCommand s) hk] at h
  refine Handler.Ends.of_finish (R := fun t => t.units = s.units) ?_ (fun _ _ => id) h
  refine requireOnline_ends rfl fun _ => requireSafe_ends rfl fun _ => requireWritable_ends rfl fun hwritable => ?_
  exact absurd (hprotected.symm.trans hwritable) (by decide)

/-- A write-class command keeps every protected unit, selected or not. -/
theorem WriteClassCommand.protected_unit {b : CommandBlock} {i : Instr} (hw : WriteClassCommand b i)
    (hc : Command b i) {j : UnitId} {s t : State} (hprotected : (s.unit j).writeProtected = true)
    (h : exec i s = .next t) : t.unit j = s.unit j := by
  by_cases hj : currentUnit s.cfg.maxUnits b.sel = some j
  · exact State.unit_of_units (hw.units_of_protected hj hprotected h) j
  · exact exec_command_others hc h hj

/-- Settles O47: the commands that touch no store, the two that only read one, and the two that check the protection. -/
theorem writeProtectedMediumNeverChanges : Obligations.WriteProtectedMediumNeverChanges := by
  intro b i s t j hc h hi
  cases hc with
  | streg | ufread | ufwrite | seek => rw [exec_command_stores h (b := b) (by simp)]
  | rddata =>
    obtain ⟨⟨_, hmedia⟩, _⟩ := exec_rddata_keeps h
    exact hmedia j
  | restore => exact (exec_restore_keeps h).1 j
  | wrfmt =>
    have hprotected : (s.unit j).writeProtected = true := by simpa using hi
    rw [WriteClassCommand.wrfmt.protected_unit .wrfmt hprotected h]
  | wrdata =>
    have hprotected : (s.unit j).writeProtected = true := by simpa using hi
    rw [WriteClassCommand.wrdata.protected_unit .wrdata hprotected h]

end Sys2Proof.Machine
end

section
/-! PROOF. The address of a data command: the validator's reports, the reposition that fails, and the advance of the
running counters against the linear sector number (42_geometry_dma.md R97 to R101). -/

namespace Sys2Proof.Machine

/-! ## The validator, one bound after the other (42_geometry_dma.md R97) -/

section
variable {u : DiskUnit} {c h s : Nat}

theorem validate_cylinder (hc : u.cylinders.toNat < c) : validate u c h s = some .cylinderOutOfRange :=
  if_pos hc

theorem validate_head (hc : c ≤ u.cylinders.toNat) (hh : u.heads.toNat < h) :
    validate u c h s = some .headOutOfRange := by
  rw [validate, if_neg (Nat.not_lt.2 hc), if_pos hh]

theorem validate_sector (hc : c ≤ u.cylinders.toNat) (hh : h ≤ u.heads.toNat) (hs : u.sectorsPerTrack.toNat < s) :
    validate u c h s = some .sectorOutOfRange := by
  rw [validate, if_neg (Nat.not_lt.2 hc), if_neg (Nat.not_lt.2 hh), if_pos hs]

end

/-! ## The address a command validates -/

/-- The sector a command with block `b` validates and seeks: Write Format takes sector 0 (44_commands_data.md R118). -/
def addressedSector (b : CommandBlock) : Instr → Nat
  | .wrfmt _ => 0
  | _ => b.sector.toNat

theorem SafePackCommand.addressedSector_eq {b : CommandBlock} {i : Instr} (hc : SafePackCommand b i)
    (hi : i ≠ .wrfmt b) : addressedSector b i = b.sector.toNat := by
  cases hc with
  | wrfmt => exact absurd rfl hi
  | rddata | wrdata | ufread => rfl

section
variable {b : CommandBlock} {i : Instr} {s : State} {k : UnitId}
  (hc : SafePackCommand b i) (hready : Ready b k s)
  (hw : WriteClassCommand b i → (s.unit k).writeProtected = false)
include hc hready hw

/-- Codes 1, 2 and 3 past their checks seek their address (41_command_execution.md R93). -/
theorem SafePackCommand.exec_seeks (hi : i ≠ .ufread b) : ∃ body : State → Handler,
    exec i s = (seekUnit k b.cylinder.toNat b.head.toNat (addressedSector b i) (takeOperands b k (enterCommand s))
      body).finish := by
  obtain ⟨hk, hon, hsafe⟩ := hready
  have hunit : ∀ f, requireUnit b (enterCommand s) f = f k := fun _ => requireUnit_some hk
  have honline : ∀ h, requireOnline k (enterCommand s) h = h := fun _ => requireOnline_ok hon
  have hstable : ∀ h, requireSafe k (enterCommand s) h = h := fun _ => requireSafe_ok hsafe
  have hwritable : WriteClassCommand b i → ∀ h, requireWritable k (enterCommand s) h = h := fun hwc _ =>
    requireWritable_ok (hw hwc)
  cases hc with
  | wrfmt =>
    exact ⟨_, congrArg Handler.finish <| (hunit _).trans <| (honline _).trans <| (hstable _).trans <|
      hwritable .wrfmt _⟩
  | rddata => exact ⟨_, congrArg Handler.finish <| (hunit _).trans <| (honline _).trans <| hstable _⟩
  | wrdata =>
    exact ⟨_, congrArg Handler.finish <| (hunit _).trans <| (honline _).trans <| (hstable _).trans <|
      hwritable .wrdata _⟩
  | ufread => exact absurd rfl hi

/-- Codes 1 to 4 past their other checks end with what the validator raises, before anything is touched. -/
theorem SafePackCommand.exec_invalid {o : CmdOutcome}
    (hv : validate (s.unit k) b.cylinder.toNat b.head.toNat (addressedSector b i) = some o) :
    ∃ t, exec i s = .next t ∧ Posted s t o.status o.detail ∧ t.units = s.units ∧ t.mem = s.mem ∧
      t.trace = .sink t.intLevel :: s.trace := by
  by_cases hi : i = .ufread b
  · subst hi
    obtain ⟨hk, hon, hsafe⟩ := hready
    have hv : validate (s.unit k) b.cylinder.toNat b.head.toNat b.sector.toNat = some o := hv
    refine exec_reports (h := ufreadHandler b (enterCommand s)) rfl ?_
    rw [ufreadHandler, requireUnit_some (s := enterCommand s) hk, requireOnline_ok (s := enterCommand s) hon,
      requireSafe_ok (s := enterCommand s) hsafe, enterCommand_unit, hv]
  · obtain ⟨body, hexec⟩ := hc.exec_seeks hready hw hi
    rw [seekUnit_invalid (s := takeOperands b k (enterCommand s)) hready.online hv, Handler.finish] at hexec
    exact ⟨_, hexec, complete_posted o rfl rfl rfl rfl, rfl, rfl, rfl⟩

end

/-- Settles O28: the three bounds in the order in which the validator compares them. -/
theorem addressOutOfRangeIsReported : Obligations.AddressOutOfRangeIsReported := by
  intro b i s k hc hready hw C H S
  refine ⟨fun hcyl => ?_, fun hcyl hhead => ?_, fun hcyl hhead hsector hi => ?_⟩
  · exact hc.exec_invalid hready hw (o := .cylinderOutOfRange) (validate_cylinder hcyl)
  · exact hc.exec_invalid hready hw (o := .headOutOfRange) (validate_head hcyl hhead)
  · refine hc.exec_invalid hready hw (o := .sectorOutOfRange) ?_
    rw [hc.addressedSector_eq hi]
    exact validate_sector hcyl hhead hsector

/-- Settles O29: the three commands at their seek, whose answer is the one the environment planned. -/
theorem failedRepositionIsReported : Obligations.FailedRepositionIsReported := by
  intro b i s k st pos rest hready hst hplan hi
  obtain ⟨hc, hi, hw, hv⟩ : SafePackCommand b i ∧ i ≠ .ufread b ∧
      (WriteClassCommand b i → (s.unit k).writeProtected = false) ∧
      validate (s.unit k) b.cylinder.toNat b.head.toNat (addressedSector b i) = none := by
    rw [validate_eq_none_iff]
    obtain ⟨rfl, hw, hcyl, hhead⟩ | ⟨rfl, ⟨hcyl, hhead⟩, hsector⟩ | ⟨rfl, hw, ⟨hcyl, hhead⟩, hsector⟩ := hi
    · exact ⟨.wrfmt, Instr.noConfusion, fun _ => hw, hcyl, hhead, Nat.zero_le _⟩
    · exact ⟨.rddata, Instr.noConfusion, nofun, hcyl, hhead, hsector⟩
    · exact ⟨.wrdata, Instr.noConfusion, fun _ => hw, hcyl, hhead, hsector⟩
  obtain ⟨body, hexec⟩ := hc.exec_seeks hready hw hi
  rw [seekUnit_failed (s := takeOperands b k (enterCommand s)) hst hplan hv, Handler.finish] at hexec
  exact ⟨_, hexec, complete_posted .seekFailed rfl rfl rfl rfl, State.unit_setStore_same (takeOperands b k _) k _,
    fun j hj => State.unit_setStore_ne (takeOperands b k _) _ hj, rfl⟩

/-! ## The advance (42_geometry_dma.md R101) -/

/-- Settles O45: a step inside the track, to the next head, and to the next cylinder. -/
theorem advanceFollowsTheLinearPosition : Obligations.AdvanceFollowsTheLinearPosition := by
  intro u x hhead hsector
  by_cases hS : x.sector + 1 = u.sectorsPerTrack.toNat
  · by_cases hH : x.head + 1 = u.heads.toNat
    · simp only [advanceChs, if_pos hS, if_pos hH]
      refine ⟨by omega, by omega, ?_⟩
      rw [← hS, ← hH]
      ring
    · simp only [advanceChs, if_pos hS, if_neg hH]
      refine ⟨by omega, by omega, ?_⟩
      rw [← hS]
      ring
  · simp only [advanceChs, if_neg hS]
    exact ⟨hhead, by omega, rfl⟩

end Sys2Proof.Machine
end

section
/-! PROOF. A data transfer sector by sector: what Read Data and Write Data have done after a number of whole sectors,
and where a transfer from a canonical address stops when it runs past the last cylinder (42_geometry_dma.md R101,
R102). -/

namespace Sys2Proof.Machine

/-! ## The loop -/

section
variable {body : State → Iteration} {s t : State} (hleft : s.xfer.remaining ≠ 0) (fuel : Nat)
include hleft

theorem sectorLoop_of_again (h : body s = .again t) : sectorLoop body (fuel + 1) s = sectorLoop body fuel t := by
  rw [sectorLoop, if_neg hleft, h]

theorem sectorLoop_of_stop {o : CmdOutcome} (h : body s = .stop o t) :
    sectorLoop body (fuel + 1) s = .ended o t := by
  rw [sectorLoop, if_neg hleft, h]

end

/-- Where each of the first `n` iterations leads from `P j` to `P (j + 1)`, the loop goes on from `P n`. -/
theorem sectorLoop_iterates {body : State → Iteration} {P : Nat → State → Prop} {n : Nat}
    (hgo : ∀ j s, j < n → P j s → s.xfer.remaining ≠ 0 ∧ ∃ t, body s = .again t ∧ P (j + 1) t) (fuel : Nat)
    {s : State} (hs : P 0 s) : ∃ t, P n t ∧ sectorLoop body (fuel + n) s = sectorLoop body fuel t := by
  induction n generalizing fuel with
  | zero => exact ⟨s, hs, rfl⟩
  | succ n ih =>
    obtain ⟨t, ht, hloop⟩ := ih (fun j x hj => hgo j x (Nat.lt_succ_of_lt hj)) (fuel + 1)
    obtain ⟨hleft, v, hbody, hv⟩ := hgo n t n.lt_succ_self ht
    exact ⟨v, hv, by rw [← sectorLoop_of_again hleft fuel hbody, ← hloop, Nat.add_right_comm, Nat.add_assoc]⟩

/-- Past cylinder `C` an iteration stops before it does anything (42_geometry_dma.md R102). -/
theorem readSector_past_cylinder {k : UnitId} {s : State} (h : (s.unit k).cylinders.toNat < s.xfer.cylinder)
    (ti : Bool) : readSector k ti s = .stop .cylinderOutOfRange s :=
  if_pos h

theorem writeSector_past_cylinder {k : UnitId} {s : State} (h : (s.unit k).cylinders.toNat < s.xfer.cylinder) :
    writeSector k s = .stop .cylinderOutOfRange s :=
  if_pos h

/-! ## The counters of a canonical transfer (42_geometry_dma.md R101, R112) -/

/-- The counters are canonical and `j` linear sectors after the block's address. -/
structure SectorsOn (u : DiskUnit) (b : CommandBlock) (j : Nat) (x : Transfer) : Prop where
  head : x.head < u.heads.toNat
  sector : x.sector < u.sectorsPerTrack.toNat
  linear : (x.cylinder * u.heads.toNat + x.head) * u.sectorsPerTrack.toNat + x.sector = linearSector u b + j

/-- From `x` to `y` the counters have advanced by one sector. -/
structure CountersAdvanced (u : DiskUnit) (x y : Transfer) : Prop where
  cylinder : y.cylinder = (advanceChs u x).cylinder
  head : y.head = (advanceChs u x).head
  sector : y.sector = (advanceChs u x).sector

section
variable {u : DiskUnit} {b : CommandBlock} {j : Nat} {x : Transfer} (h : SectorsOn u b j x)
include h

theorem SectorsOn.advance {y : Transfer} (hy : CountersAdvanced u x y) : SectorsOn u b (j + 1) y := by
  obtain ⟨hhead, hsector, hlinear⟩ := advanceFollowsTheLinearPosition u x h.head h.sector
  refine ⟨hy.head ▸ hhead, hy.sector ▸ hsector, ?_⟩
  rw [hy.cylinder, hy.head, hy.sector, hlinear, h.linear, Nat.add_assoc]

/-- The linear position lies in the counters' cylinder. -/
theorem SectorsOn.cylinder_bounds :
    x.cylinder * (u.heads.toNat * u.sectorsPerTrack.toNat) ≤ linearSector u b + j ∧
      linearSector u b + j < (x.cylinder + 1) * (u.heads.toNat * u.sectorsPerTrack.toNat) := by
  have hlt : x.head * u.sectorsPerTrack.toNat + x.sector < u.heads.toNat * u.sectorsPerTrack.toNat :=
    calc x.head * u.sectorsPerTrack.toNat + x.sector
        < (x.head + 1) * u.sectorsPerTrack.toNat := by rw [Nat.succ_mul]; exact Nat.add_lt_add_left h.sector _
      _ ≤ u.heads.toNat * u.sectorsPerTrack.toNat := Nat.mul_le_mul_right _ h.head
  rw [← h.linear, Nat.add_mul, Nat.mul_assoc, Nat.add_assoc, Nat.succ_mul]
  exact ⟨Nat.le_add_right _ _, Nat.add_lt_add_left hlt _⟩

/-- The cylinder is inside the bound exactly while the linear position is (42_geometry_dma.md R102). -/
theorem SectorsOn.cylinder_le_iff : x.cylinder ≤ u.cylinders.toNat ↔ linearSector u b + j < admittedSectors u := by
  obtain ⟨hlow, hhigh⟩ := h.cylinder_bounds
  rw [admittedSectors, Nat.mul_assoc]
  refine ⟨fun hle => hhigh.trans_le (Nat.mul_le_mul_right _ (Nat.succ_le_succ hle)), fun hlt => ?_⟩
  exact Nat.le_of_lt_succ (Nat.lt_of_mul_lt_mul_right (hlow.trans_lt hlt))

end

/-- More sectors needed than `n` means more bytes than `n` sectors hold (42_geometry_dma.md R111). -/
theorem mul_lt_byteCount_of_lt_sectorsNeeded {u : DiskUnit} {b : CommandBlock} {n : Nat}
    (h : n < sectorsNeeded u b) : n * u.bytesPerSector.toNat < byteCount b := by
  have hpos : 0 < u.bytesPerSector.toNat := by
    by_contra h0
    rw [sectorsNeeded, Nat.eq_zero_of_not_pos h0, Nat.div_zero] at h
    omega
  have := (Nat.le_div_iff_mul_le hpos).1 h
  rw [Nat.succ_mul] at this
  omega

/-! ## Whole sectors moved -/

/-- The words of `j` whole sectors. -/
theorem two_mul_sector_words {u : DiskUnit} (ha : admittedSectorSize u = true) (j : Nat) :
    2 * (j * (u.bytesPerSector.toNat / 2)) = j * u.bytesPerSector.toNat := by
  obtain ⟨heven, -, -⟩ := (admittedSectorSize_iff u).1 ha
  rw [Nat.mul_left_comm, Nat.mul_div_cancel' (Nat.dvd_of_mod_eq_zero heven)]

/-- Read Data on unit `k`, entered in `s`, has moved `j` whole sectors (44_commands_data.md R119). -/
structure SectorsRead (b : CommandBlock) (k : UnitId) (st : BackingStore) (s : State) (j : Nat) (t : State) :
    Prop where
  frame : Frame k s t
  unit : t.unit k = { s.unit k with
    backingStore := some
      { st with
        pos := startPosition (s.unit k) b + j * (s.unit k).bytesPerSector.toNat
        seekPlan := st.seekPlan.tail
        readPlan := st.readPlan.drop j } }
  remaining : t.xfer.remaining = byteCount b - j * (s.unit k).bytesPerSector.toNat
  dma : t.xfer.dma = if b.ti then dmaAddress b else dmaAt (dmaAddress b) (j * ((s.unit k).bytesPerSector.toNat / 2))
  stored : Stored s.mem t.mem (dmaAddress b)
    (if b.ti then []
      else (st.data.drop (startPosition (s.unit k) b)).take (j * (s.unit k).bytesPerSector.toNat))

/-- Write Data on unit `k`, entered in `s`, has put `j` whole sectors on the medium (44_commands_data.md R120). -/
structure SectorsWritten (b : CommandBlock) (k : UnitId) (st : BackingStore) (s : State) (j : Nat) (t : State) :
    Prop where
  frame : Frame k s t
  unit : t.unit k = { s.unit k with
    backingStore := some
      { st with
        data := BackingStore.overwrite st.data (startPosition (s.unit k) b)
          (memoryBytes s.mem (dmaAddress b) (j * (s.unit k).bytesPerSector.toNat))
        pos := startPosition (s.unit k) b + j * (s.unit k).bytesPerSector.toNat
        seekPlan := st.seekPlan.tail
        writePlan := st.writePlan.drop j } }
  remaining : t.xfer.remaining = byteCount b - j * (s.unit k).bytesPerSector.toNat
  dma : t.xfer.dma = dmaAt (dmaAddress b) (j * ((s.unit k).bytesPerSector.toNat / 2))
  mem : t.mem = s.mem

section
variable {b : CommandBlock} {k : UnitId} {st : BackingStore} {s : State}

theorem transferStart_frame (hon : (s.unit k).backingStore.isSome = true) : Frame k s (transferStart b k st s) :=
  (takeOperands_frame b k s).trans <| (Frame.setStore k (takeOperands b k s) _ hon).trans <|
    (Frame.emit k _ _).trans <| (takeDma_frame k b _).trans (takeAddress_frame k b _)

theorem transferStart_sectorsRead (hon : (s.unit k).backingStore.isSome = true) :
    SectorsRead b k st s 0 (transferStart b k st s) where
  frame := transferStart_frame hon
  unit := by simp [transferStart_unit_same]
  remaining := by
    rw [Nat.zero_mul]
    rfl
  dma := by
    rw [Nat.zero_mul, dmaAt_zero, ite_self]
    rfl
  stored := by
    rw [Nat.zero_mul, List.take_zero, ite_self]
    exact Stored.refl s.mem _

theorem transferStart_sectorsWritten (hon : (s.unit k).backingStore.isSome = true) :
    SectorsWritten b k st s 0 (transferStart b k st s) where
  frame := transferStart_frame hon
  unit := by simp [transferStart_unit_same, memoryBytes, BackingStore.overwrite]
  remaining := by
    rw [Nat.zero_mul]
    rfl
  dma := by
    rw [Nat.zero_mul, dmaAt_zero]
    rfl
  mem := rfl

theorem transferStart_sectorsOn (hcanonical : CanonicalStart (s.unit k) b) :
    SectorsOn (s.unit k) b 0 (transferStart b k st s).xfer :=
  ⟨hcanonical.1, hcanonical.2, rfl⟩

end

/-! ## One more sector -/

/-- A read that delivers all it is asked for stays inside the content (45_unit_management.md R130). -/
theorem le_length_of_deliveredBytes {st : BackingStore} {answer : Option Nat} {pos n : Nat} (hn : 0 < n)
    (h : deliveredBytes st answer pos n = n) : pos + n ≤ st.data.length := by
  unfold deliveredBytes at h
  omega

/-- One iteration of Write Data whose store write is not short: the bytes fetched and zero bytes to the end of the
sector are on the medium, and the counters have advanced (44_commands_data.md R120). -/
theorem writeSector_full {k : UnitId} {u : DiskUnit} {s : State} {st : BackingStore} {n : Nat}
    (hu : s.unit k = { u with backingStore := some st }) (ha : admittedSectorSize u = true)
    (hd : s.xfer.dma.getLsbD 0 = false) (he : s.xfer.remaining % 2 = 0)
    (hc : s.xfer.cylinder ≤ u.cylinders.toNat) (hn : n = min s.xfer.remaining u.bytesPerSector.toNat)
    (hp : ∀ a, st.writePlan.head? = some a → u.bytesPerSector.toNat ≤ a.accepted) :
    ∃ t, writeSector k s = .again t ∧
      t.unit k = { u with
        backingStore := some
          { st with
            data := BackingStore.overwrite st.data st.pos
              (memoryBytes s.mem s.xfer.dma n ++ List.replicate (u.bytesPerSector.toNat - n) 0#8)
            pos := st.pos + u.bytesPerSector.toNat
            writePlan := st.writePlan.tail } } ∧
      t.xfer.remaining = s.xfer.remaining - n ∧ t.xfer.cylinder = (advanceChs u s.xfer).cylinder ∧
      t.xfer.head = (advanceChs u s.xfer).head ∧ t.xfer.sector = (advanceChs u s.xfer).sector ∧
      t.xfer.dma = dmaAt s.xfer.dma (n / 2) ∧ t.mem = s.mem := by
  obtain ⟨s1, hunit, hmem, hleft, hdma, hcyl, hhead, hsector, -, hbody⟩ := writeSector_fetches hu ha hd he hc hn
  dsimp only at hbody
  generalize hbytes :
    memoryBytes s.mem s.xfer.dma n ++ List.replicate (u.bytesPerSector.toNat - n) 0#8 = bytes at hbody ⊢
  have hlen : bytes.length = u.bytesPerSector.toNat := by
    rw [← hbytes, List.length_append, memoryBytes_length, List.length_replicate]
    omega
  rw [storeWrite_full (by rw [hunit, hu]) (by rwa [hlen]), hlen, if_pos rfl] at hbody
  generalize hs2 : State.emit _ _ = s2 at hbody
  have hunit2 : s2.unit k = { u with
      backingStore := some
        { st with
          data := BackingStore.overwrite st.data st.pos bytes
          pos := st.pos + u.bytesPerSector.toNat
          writePlan := st.writePlan.tail } } := by
    rw [← hs2, State.emit_unit, State.unit_setStore_same, hunit, hu]
  have hxfer2 : s2.xfer = s1.xfer := by
    rw [← hs2, State.emit_xfer, State.setStore_xfer]
  have hmem2 : s2.mem = s1.mem := by
    rw [← hs2, State.emit_mem, State.setStore_mem]
  obtain ⟨ac, ah, as⟩ := advanceChs_congr (u := u) (v := s2.unit k) (x := s.xfer)
    (y := { s2.xfer with remaining := s2.xfer.remaining - n }) (by rw [hunit2]) (by rw [hunit2])
    (by rw [hxfer2]; exact hcyl) (by rw [hxfer2]; exact hhead) (by rw [hxfer2]; exact hsector)
  refine ⟨_, hbody, hunit2, ?_, ac, ah, as, ?_, hmem2.trans hmem⟩
  · rw [nextSector_remaining, hxfer2, hleft]
  · rw [nextSector_dma, hxfer2, hdma]

section
variable {b : CommandBlock} {k : UnitId} {st : BackingStore} {s t : State} {j : Nat}
  (ha : admittedSectorSize (s.unit k) = true) (hc : t.xfer.cylinder ≤ (s.unit k).cylinders.toNat)
  (hfit : (j + 1) * (s.unit k).bytesPerSector.toNat ≤ byteCount b)
include ha hc hfit

theorem SectorsRead.next (h : SectorsRead b k st s j t)
    (hp : deliveredBytes st st.readPlan[j]?
      (startPosition (s.unit k) b + j * (s.unit k).bytesPerSector.toNat) (s.unit k).bytesPerSector.toNat =
        (s.unit k).bytesPerSector.toNat) :
    ∃ v, readSector k b.ti t = .again v ∧ SectorsRead b k st s (j + 1) v ∧
      CountersAdvanced (s.unit k) t.xfer v.xfer := by
  obtain ⟨hframe, hunit, hleft, hdma, hstored⟩ := h
  obtain ⟨heven, hpos, -⟩ := (admittedSectorSize_iff _).1 ha
  have hwords := two_mul_sector_words ha j
  have hcount := byteCount_even b
  have hlen := le_length_of_deliveredBytes (by omega) hp
  have hd : t.xfer.dma.getLsbD 0 = false := by
    rw [hdma]
    split
    · exact dmaAddress_even b
    · exact dmaAt_even (dmaAddress_even b) _
  rw [Nat.succ_mul] at hfit
  obtain ⟨v, hbody, hvu, hvr, hvc, hvh, hvs, hvd, hvm, -⟩ := readSector_full (ti := b.ti) hunit ha hd (by omega) hc
    (n := (s.unit k).bytesPerSector.toNat) (by omega) (by rwa [List.head?_drop])
  refine ⟨v, hbody, ⟨?_, ?_, ?_, ?_, ?_⟩, ⟨hvc, hvh, hvs⟩⟩
  · have := readSector_frame k b.ti t
    rw [hbody] at this
    exact hframe.trans this
  · rw [hvu, Nat.succ_mul, ← Nat.add_assoc, List.tail_drop]
  · rw [hvr, hleft, Nat.succ_mul, Nat.sub_add_eq]
  · rw [hvd, hdma]
    split
    · rfl
    · rw [dmaAt_add, Nat.succ_mul]
  · rw [hdma] at hvm
    cases hti : b.ti with
    | true =>
      simp only [hti, if_true] at hstored hvm ⊢
      exact Stored.append (n := 0) hstored rfl (by rwa [dmaAt_zero]) (Nat.zero_le _)
    | false =>
      simp only [hti, Bool.false_eq_true, if_false] at hstored hvm ⊢
      rw [Nat.succ_mul, List.take_add, List.drop_drop]
      refine Stored.append hstored ?_ hvm ?_
      · rw [List.length_take, List.length_drop, hwords]
        omega
      · rw [List.length_take, List.length_take, List.length_drop]
        omega

theorem SectorsWritten.next (h : SectorsWritten b k st s j t)
    (hp : ∀ a, st.writePlan[j]? = some a → (s.unit k).bytesPerSector.toNat ≤ a.accepted) :
    ∃ v, writeSector k t = .again v ∧ SectorsWritten b k st s (j + 1) v ∧
      CountersAdvanced (s.unit k) t.xfer v.xfer := by
  obtain ⟨hframe, hunit, hleft, hdma, hmem⟩ := h
  obtain ⟨heven, hpos, -⟩ := (admittedSectorSize_iff _).1 ha
  have hwords := two_mul_sector_words ha j
  have hcount := byteCount_even b
  have hd : t.xfer.dma.getLsbD 0 = false := hdma ▸ dmaAt_even (dmaAddress_even b) _
  rw [Nat.succ_mul] at hfit
  obtain ⟨v, hbody, hvu, hvr, hvc, hvh, hvs, hvd, hvm⟩ := writeSector_full hunit ha hd (by omega) hc
    (n := (s.unit k).bytesPerSector.toNat) (by omega) (by rwa [List.head?_drop])
  refine ⟨v, hbody, ⟨?_, ?_, ?_, ?_, hvm.trans hmem⟩, ⟨hvc, hvh, hvs⟩⟩
  · have := writeSector_frame k t
    rw [hbody] at this
    exact hframe.trans this
  · have happend := BackingStore.overwrite_append st.data (startPosition (s.unit k) b)
      (memoryBytes s.mem (dmaAddress b) (j * (s.unit k).bytesPerSector.toNat)) (memoryBytes s.mem t.xfer.dma
        (s.unit k).bytesPerSector.toNat)
    rw [memoryBytes_length, hdma, ← hwords, ← memoryBytes_add, hwords] at happend
    rw [hvu, hmem, Nat.sub_self, List.replicate_zero, List.append_nil, hdma, happend, Nat.succ_mul, ← Nat.add_assoc,
      List.tail_drop]
  · rw [hvr, hleft, Nat.succ_mul, Nat.sub_add_eq]
  · rw [hvd, hdma, dmaAt_add, Nat.succ_mul]

end

/-! ## A transfer that runs past the last cylinder (42_geometry_dma.md R102) -/

/-- The sectors of cylinders 0 to `C` from the block's address on: what a transfer from a canonical start can move. -/
def sectorsLeft (u : DiskUnit) (b : CommandBlock) : Nat := admittedSectors u - linearSector u b

/-- The iterations of a transfer on unit `k` move `n` whole sectors: `P j` says what `j` of them moved mean. -/
structure MovesSectors (body : State → Iteration) (b : CommandBlock) (k : UnitId) (s : State) (n : Nat)
    (P : Nat → State → Prop) : Prop where
  remaining : ∀ {j t}, P j t → t.xfer.remaining = byteCount b - j * (s.unit k).bytesPerSector.toNat
  next : ∀ {j t}, j < n → t.xfer.cylinder ≤ (s.unit k).cylinders.toNat →
    (j + 1) * (s.unit k).bytesPerSector.toNat ≤ byteCount b → P j t →
      ∃ v, body t = .again v ∧ P (j + 1) v ∧ CountersAdvanced (s.unit k) t.xfer v.xfer
  past : ∀ {j t}, (s.unit k).cylinders.toNat < t.xfer.cylinder → P j t → body t = .stop .cylinderOutOfRange t

section
variable {b : CommandBlock} {k : UnitId} {st : BackingStore} {s : State}
  (hvalid : ValidAddress (s.unit k) b) (hcanonical : CanonicalStart (s.unit k) b)
  (ha : admittedSectorSize (s.unit k) = true)
  (hpast : admittedSectors (s.unit k) < linearSector (s.unit k) b + sectorsNeeded (s.unit k) b)
include hvalid hcanonical ha hpast

/-- A transfer from a canonical start that needs more sectors than are left moves these and stops. -/
theorem transferSectors_runs_past {body : State → Iteration} {P : Nat → State → Prop}
    (hmoves : MovesSectors body b k s (sectorsLeft (s.unit k) b) P) (hstart : P 0 (transferStart b k st s)) :
    ∃ t, transferSectors b (s.unit k) body (transferStart b k st s) = .ended .cylinderOutOfRange t ∧
      P (sectorsLeft (s.unit k) b) t := by
  have hon := transferStart_sectorsOn (st := st) hcanonical
  have hinside : linearSector (s.unit k) b < admittedSectors (s.unit k) := hon.cylinder_le_iff.1 hvalid.1.1
  obtain ⟨-, hsize, -⟩ := (admittedSectorSize_iff _).1 ha
  generalize hn : sectorsLeft (s.unit k) b = n at hmoves ⊢
  replace hn : linearSector (s.unit k) b + n = admittedSectors (s.unit k) := by
    rw [← hn, sectorsLeft]
    omega
  have hbytes : n * (s.unit k).bytesPerSector.toNat < byteCount b :=
    mul_lt_byteCount_of_lt_sectorsNeeded (by omega)
  have hfits : ∀ j, j ≤ n → j * (s.unit k).bytesPerSector.toNat < byteCount b := fun j hj =>
    (Nat.mul_le_mul_right _ hj).trans_lt hbytes
  have hleft : ∀ {j t}, j ≤ n → P j t → t.xfer.remaining ≠ 0 := by
    intro j t hj ht
    have := hfits j hj
    rw [hmoves.remaining ht]
    omega
  have hgo : ∀ j t, j < n → (P j t ∧ SectorsOn (s.unit k) b j t.xfer) → t.xfer.remaining ≠ 0 ∧
      ∃ v, body t = .again v ∧ P (j + 1) v ∧ SectorsOn (s.unit k) b (j + 1) v.xfer := by
    rintro j t hj ⟨ht, hat⟩
    obtain ⟨v, hbody, hv, hadv⟩ := hmoves.next hj (hat.cylinder_le_iff.2 (by omega)) (hfits _ hj).le ht
    exact ⟨hleft hj.le ht, v, hbody, hv, hat.advance hadv⟩
  have hn_le : n ≤ n * (s.unit k).bytesPerSector.toNat := Nat.le_mul_of_pos_right n (Nat.zero_lt_of_lt hsize)
  obtain ⟨fuel, hfuel⟩ : ∃ fuel, byteCount b = fuel + 1 + n := ⟨byteCount b - 1 - n, by omega⟩
  obtain ⟨t, ⟨ht, hat⟩, hloop⟩ := sectorLoop_iterates hgo (fuel + 1) ⟨hstart, hon⟩
  have hcyl : (s.unit k).cylinders.toNat < t.xfer.cylinder := by
    rw [← Nat.not_le, hat.cylinder_le_iff]
    omega
  refine ⟨t, ?_, ht⟩
  rw [transferSectors, if_pos ha, hfuel, hloop, sectorLoop_of_stop (hleft le_rfl ht) fuel (hmoves.past hcyl ht)]

end

/-- A reference store that holds the bytes delivers them (45_unit_management.md R132). -/
theorem deliveredBytes_reference {st : BackingStore} (h : st.readPlan = []) {pos n : Nat}
    (hn : pos + n ≤ st.data.length) (j : Nat) : deliveredBytes st st.readPlan[j]? pos n = n := by
  simp only [deliveredBytes, h, List.getElem?_nil, Option.getD_none]
  omega

section
variable {b : CommandBlock} {k : UnitId} {st : BackingStore} {s : State} {n : Nat} (href : Reference st)
  (ha : admittedSectorSize (s.unit k) = true)
include href ha

theorem readSector_movesSectors
    (hdata : startPosition (s.unit k) b + n * (s.unit k).bytesPerSector.toNat ≤ st.data.length) :
    MovesSectors (readSector k b.ti) b k s n (SectorsRead b k st s) where
  remaining h := h.remaining
  next {j t} hj hcyl hfit h := by
    obtain ⟨-, hplan, -⟩ := href
    refine h.next ha hcyl hfit (deliveredBytes_reference hplan ?_ j)
    have := Nat.mul_le_mul_right (s.unit k).bytesPerSector.toNat hj
    rw [Nat.succ_mul] at this
    omega
  past hcyl h := readSector_past_cylinder (by rw [h.unit]; exact hcyl) b.ti

theorem writeSector_movesSectors : MovesSectors (writeSector k) b k s n (SectorsWritten b k st s) where
  remaining h := h.remaining
  next _ hcyl hfit h := by
    obtain ⟨-, -, hplan⟩ := href
    exact h.next ha hcyl hfit (by simp [hplan])
  past hcyl h := writeSector_past_cylinder (by rw [h.unit]; exact hcyl)

end

/-- Settles O41: the sectors left are read, each of them inside the content, and the check stops the next one. -/
theorem readStopsAfterTheLastCylinder : Obligations.ReadStopsAfterTheLastCylinder := by
  intro b s k st hready hst href hvalid hcanonical ha u moved hpast hdata
  have hready' : Ready b k (enterCommand s) := ⟨hready.selected, hready.online, hready.safe⟩
  obtain ⟨t, hloop, hframe, hunit, -, -, hstored⟩ := transferSectors_runs_past (s := enterCommand s) hvalid hcanonical
    ha hpast (readSector_movesSectors href ha hdata) (transferStart_sectorsRead hready'.online)
  have hexec : exec (.rddata b) s = (rddataHandler b (enterCommand s)).finish := rfl
  rw [rddataHandler_of_ready (s := enterCommand s) hst (.inl href.1) hvalid hready', hloop] at hexec
  refine ⟨_, hexec, complete_posted .cylinderOutOfRange hframe.regs hframe.cfg hframe.pending hframe.reply, ?_,
    hframe.others, hstored⟩
  obtain ⟨hseek, hplan, -⟩ := href
  rw [complete_unit, hunit, hseek, hplan, List.tail_nil, List.drop_nil]
  rfl

/-- Settles O42: the sectors left are written and the check stops the next one. -/
theorem writeStopsAfterTheLastCylinder : Obligations.WriteStopsAfterTheLastCylinder := by
  intro b s k st hready hw hst href hvalid hcanonical ha u moved hpast
  have hready' : Ready b k (enterCommand s) := ⟨hready.selected, hready.online, hready.safe⟩
  obtain ⟨t, hloop, hframe, hunit, -, -, hmem⟩ := transferSectors_runs_past (s := enterCommand s) hvalid hcanonical
    ha hpast (writeSector_movesSectors href ha) (transferStart_sectorsWritten hready'.online)
  have hexec : exec (.wrdata b) s = (wrdataHandler b (enterCommand s)).finish := rfl
  rw [wrdataHandler_of_ready (s := enterCommand s) hst (.inl href.1) hvalid hready' hw, hloop] at hexec
  refine ⟨_, _, hexec, complete_posted .cylinderOutOfRange hframe.regs hframe.cfg hframe.pending hframe.reply, ?_,
    overwrite_written _ _ _, hframe.others, hmem⟩
  obtain ⟨hseek, -, hplan⟩ := href
  rw [complete_unit, hunit, hseek, hplan, List.tail_nil, List.drop_nil]
  rfl

end Sys2Proof.Machine
end

section
/-! PROOF. The commands without sector data: the words Store Registers and Unformatted Read report, the commands that
do nothing, and the reposition of Restore (43_commands_control.md). -/

namespace Sys2Proof.Machine

/-! ## The commands that read no operand (43_commands_control.md R115, R116) -/

/-- Settles O32: the completion is posted on the state the command entered with. -/
theorem unformattedWriteIsAlwaysUnsupported : Obligations.UnformattedWriteIsAlwaysUnsupported := fun _ s =>
  ⟨complete .unsupported (enterCommand s), rfl, complete_posted .unsupported rfl rfl rfl rfl, rfl, rfl, rfl, rfl⟩

/-- Settles O33: the completion is posted on the state the command entered with. -/
theorem seekAlwaysSucceeds : Obligations.SeekAlwaysSucceeds := fun _ s =>
  ⟨complete .success (enterCommand s), rfl, complete_posted .success rfl rfl rfl rfl, rfl, rfl, rfl, rfl⟩

/-! ## The words a command reports (42_geometry_dma.md R108, R110) -/

/-- The words of a transfer that are moved: none under transfer inhibit (30_encoding.md R67). -/
def uninhibited (b : CommandBlock) (ws : List Word) : List Word := if b.ti then [] else ws

theorem uninhibited_length_le (b : CommandBlock) (ws : List Word) : (uninhibited b ws).length ≤ ws.length := by
  unfold uninhibited
  split
  · exact Nat.zero_le _
  · exact le_rfl

/-- A transfer skipped under transfer inhibit is the transfer of the words that are moved. -/
theorem dmaWriteWords_uninhibited (b : CommandBlock) (ws : List Word) (s : State) :
    (if b.ti then s else dmaWriteWords ws s) = dmaWriteWords (uninhibited b ws) s := by
  unfold uninhibited
  split <;> rfl

/-- The geometry words in plain arithmetic (43_commands_control.md R113). -/
theorem geometryWords_eq (u : DiskUnit) : geometryWords u =
    [ BitVec.ofNat 16 (u.sectorsPerTrack.toNat * u.bytesPerSector.toNat / 2),
      BitVec.ofNat 16 (u.sectorsPerTrack.toNat * 256),
      BitVec.ofNat 16 (u.heads.toNat * 2048 ||| u.cylinders.toNat) ] := by
  simp only [geometryWords, trunc16, Nat.shiftRight_eq_div_pow, Nat.shiftLeft_eq, Config.overheadByte, Nat.or_zero,
    Nat.reducePow]

/-- The echo words in plain arithmetic: a sector number fits below the bit it is ORed with
(43_commands_control.md R114). -/
theorem echoWords_eq (u : DiskUnit) (b : CommandBlock) : echoWords u b =
    [ BitVec.ofNat 16 (b.head.toNat * 2048 ||| b.cylinder.toNat),
      BitVec.ofNat 16 (256 + b.sector.toNat),
      BitVec.ofNat 16 (u.bytesPerSector.toNat / 2) ] := by
  have hsector : 1 <<< 8 ||| b.sector.toNat = 256 + b.sector.toNat :=
    (Nat.shiftLeft_add_eq_or_of_lt b.sector.isLt 1).symm
  rw [echoWords, hsector]
  simp only [trunc16, Nat.shiftRight_eq_div_pow, Nat.shiftLeft_eq, Nat.reducePow]

/-- From `s` to `t` the words have gone to host memory from the block's address on, they are all that was written, and
no store was accessed. -/
def Reports (b : CommandBlock) (ws : List Word) (s t : State) : Prop :=
  Stored s.mem t.mem (dmaAddress b) (unpackWords ws) ∧
    (dmaWrites t.trace).map Prod.snd = (dmaWrites s.trace).map Prod.snd ++ ws ∧
    storeAccesses t.trace = storeAccesses s.trace

/-- Up to three words written from the block's address on. -/
theorem dmaWriteWords_reports {b : CommandBlock} {s : State} (hdma : s.xfer.dma = dmaAddress b) {ws : List Word}
    (hlen : ws.length ≤ 3) : Reports b ws s (dmaWriteWords ws s) := by
  have heven : s.xfer.dma.getLsbD 0 = false := hdma ▸ dmaAddress_even b
  obtain ⟨hwrites, -, haccesses⟩ := dmaWriteWords_trace ws s heven
  refine ⟨hdma ▸ dmaWriteWords_stored ws s heven (by omega), ?_, haccesses⟩
  rw [hwrites, List.map_append, List.map_snd_zip (by simp)]

/-- A command that has touched only units by the time it takes its operands, reports up to three words and
succeeds. -/
theorem complete_reports {b : CommandBlock} {k : UnitId} {s u : State} (hframe : Frame k (enterCommand s) u)
    (hmem : u.mem = s.mem) (htrace : u.trace = s.trace) {ws : List Word} (hlen : ws.length ≤ 3) :
    Posted s (complete .success (dmaWriteWords ws (takeDma b (takeOperands b k u)))) 0x0000#16 0x4000#16 ∧
      Reports b ws s (complete .success (dmaWriteWords ws (takeDma b (takeOperands b k u)))) := by
  have hreports := dmaWriteWords_reports (b := b) (s := takeDma b (takeOperands b k u)) rfl hlen
  have hend := hframe.trans <| (takeOperands_frame b k u).trans <| (takeDma_frame k b _).trans <|
    dmaWriteWords_frame k ws _
  refine ⟨complete_posted .success hend.regs hend.cfg hend.pending hend.reply, ?_⟩
  rw [Reports, ← hmem, ← htrace]
  exact hreports

/-! ## Store Registers (43_commands_control.md R113) -/

/-- Store Registers on an attached unit clears the flag and reports the geometry. -/
theorem stregHandler_of_online {b : CommandBlock} {s : State} {k : UnitId}
    (hk : currentUnit s.cfg.maxUnits b.sel = some k) (hon : (s.unit k).backingStore.isSome = true) :
    stregHandler b s = .ended .success
      (dmaWriteWords (uninhibited b ((geometryWords (s.unit k)).take (wordLimit b)))
        (takeDma b (takeOperands b k (clearUnsafe k s)))) := by
  rw [stregHandler, requireUnit_some hk, requireOnline_ok hon, ← dmaWriteWords_uninhibited]

/-- Settles O30: the geometry words are reported from the state in which the flag is cleared. -/
theorem storeRegistersReportsTheGeometry : Obligations.StoreRegistersReportsTheGeometry := by
  intro b s k hk hon u words moved
  have hexec : exec (.streg b) s = (stregHandler b (enterCommand s)).finish := rfl
  rw [stregHandler_of_online (s := enterCommand s) hk hon, geometryWords_eq] at hexec
  have hlen : moved.length ≤ 3 := (uninhibited_length_le b _).trans (List.length_take_le' _ words)
  obtain ⟨hposted, hreports⟩ := complete_reports (b := b) (Frame.clearUnsafe k (enterCommand s)) rfl rfl hlen
  refine ⟨_, hexec, hposted, ?_, fun j hj => ?_, hreports⟩
  · rw [complete_unit, dmaWriteWords_unit]
    exact clearUnsafe_unit_same k (enterCommand s)
  · rw [complete_unit, dmaWriteWords_unit]
    exact State.unit_setUnit_ne (enterCommand s) _ hj

/-! ## Unformatted Read (43_commands_control.md R114) -/

/-- Unformatted Read past its checks reports the echo words. -/
theorem ufreadHandler_of_ready {b : CommandBlock} {s : State} {k : UnitId} (hready : Ready b k s)
    (hvalid : ValidAddress (s.unit k) b) : ufreadHandler b s = .ended .success
      (dmaWriteWords (uninhibited b ((echoWords (s.unit k) b).take (echoLimit s.cfg b)))
        (takeDma b (takeOperands b k s))) := by
  obtain ⟨⟨hcyl, hhead⟩, hsector⟩ := hvalid
  rw [ufreadHandler, requireUnit_some hready.selected, requireOnline_ok hready.online, requireSafe_ok hready.safe,
    (validate_eq_none_iff _ _ _ _).2 ⟨hcyl, hhead, hsector⟩, ← dmaWriteWords_uninhibited]

/-- Settles O31: the echo words are reported from the state the command entered with. -/
theorem unformattedReadEchoesTheAddress : Obligations.UnformattedReadEchoesTheAddress := by
  intro b s k hready hvalid words moved
  have hready' : Ready b k (enterCommand s) := ⟨hready.selected, hready.online, hready.safe⟩
  have hexec : exec (.ufread b) s = (ufreadHandler b (enterCommand s)).finish := rfl
  rw [ufreadHandler_of_ready hready' hvalid, echoWords_eq] at hexec
  have hlen : moved.length ≤ 3 := (uninhibited_length_le b _).trans (List.length_take_le' _ words)
  obtain ⟨hposted, hreports⟩ := complete_reports (b := b) (Frame.refl k (enterCommand s)) rfl rfl hlen
  exact ⟨_, hexec, hposted, dmaWriteWords_units moved _, hreports⟩

/-! ## Restore (43_commands_control.md R117) -/

/-- Cylinder 0, head 0, sector 0 is a valid address of every geometry. -/
theorem validate_home (u : DiskUnit) : validate u 0 0 0 = none :=
  (validate_eq_none_iff u 0 0 0).2 ⟨Nat.zero_le _, Nat.zero_le _, Nat.zero_le _⟩

/-- The start of a medium's data is the end of its header (42_geometry_dma.md R100). -/
theorem bytePosition_home (u : DiskUnit) : bytePosition u 0 0 0 = 16 := by
  simp [bytePosition, Config.headerLen]

/-- Restore on an attached unit clears the flag and seeks home. -/
theorem exec_restore_of_online {b : CommandBlock} {s : State} {k : UnitId} {st : BackingStore}
    (hk : currentUnit s.cfg.maxUnits b.sel = some k) (hst : (s.unit k).backingStore = some st) :
    exec (.restore b) s =
      (seekUnit k 0 0 0 (takeOperands b k (clearUnsafe k (enterCommand s))) fun s1 => .ended .success s1).finish := by
  have hexec : exec (.restore b) s = (restoreHandler b (enterCommand s)).finish := rfl
  rw [hexec, restoreHandler, requireUnit_some (s := enterCommand s) hk,
    requireOnline_ok (s := enterCommand s) (Option.isSome_of_eq_some hst)]

/-- Restore that has repositioned the store of unit `k` to `st'`, granted or not, and ends with an outcome. -/
theorem exec_restore_ends {b : CommandBlock} {s : State} {k : UnitId} {st' : BackingStore} {e : Event} {o : CmdOutcome}
    (hexec : exec (.restore b) s = (Handler.ended o
      (((takeOperands b k (clearUnsafe k (enterCommand s))).setStore k st').emit e)).finish) :
    ∃ t, exec (.restore b) s = .next t ∧ Posted s t o.status o.detail ∧
      t.unit k = { s.unit k with unsafeFlag := false, backingStore := some st' } ∧
      (∀ j, j ≠ k → t.unit j = s.unit j) ∧ t.mem = s.mem := by
  refine ⟨_, hexec, complete_posted o rfl rfl rfl rfl, ?_, fun j hj => ?_, rfl⟩
  · rw [complete_unit, State.emit_unit, State.unit_setStore_same, takeOperands_unit, clearUnsafe_unit_same,
      enterCommand_unit]
  · rw [complete_unit, State.emit_unit, State.unit_setStore_ne _ _ hj, takeOperands_unit, clearUnsafe,
      State.unit_setUnit_ne _ _ hj, enterCommand_unit]

/-- Settles O34: the flag is cleared before the seek, whose answer is the one the environment planned. -/
theorem restoreClearsUnsafeAndSeeksHome : Obligations.RestoreClearsUnsafeAndSeeksHome := by
  intro b s k st hk hst
  have hexec := exec_restore_of_online hk hst
  have hcleared : ((takeOperands b k (clearUnsafe k (enterCommand s))).unit k).backingStore = some st :=
    (clearUnsafe_backingStore k k (enterCommand s)).trans hst
  refine ⟨fun hgranted => ?_, fun pos rest hfailed => ?_⟩
  · rw [seekUnit_moved hcleared hgranted (validate_home _), bytePosition_home] at hexec
    exact exec_restore_ends hexec
  · rw [seekUnit_failed hcleared hfailed (validate_home _)] at hexec
    exact exec_restore_ends hexec

end Sys2Proof.Machine
end

section
/-! PROOF. Write Format sector by sector: whole sectors of zero bytes, and the sector the environment cuts short
(44_commands_data.md R118). -/

namespace Sys2Proof.Machine

/-! ## The end of a command on one unit -/

/-- A handler that ends with an outcome posts it, and the frame of its unit is the command's. -/
theorem exec_ends {i : Instr} {s t : State} {h : Handler} {o : CmdOutcome} {k : UnitId} (hexec : exec i s = h.finish)
    (hend : h = .ended o t) (hframe : Frame k (enterCommand s) t) :
    exec i s = .next (complete o t) ∧ Posted s (complete o t) o.status o.detail ∧
      ∀ j, j ≠ k → (complete o t).unit j = s.unit j :=
  ⟨by rw [hexec, hend, Handler.finish],
    complete_posted o hframe.regs hframe.cfg hframe.pending hframe.reply, hframe.others⟩

/-- The entry of a command leaves the unit ready. -/
theorem Ready.enter {b : CommandBlock} {k : UnitId} {s : State} (h : Ready b k s) : Ready b k (enterCommand s) :=
  ⟨h.selected, h.online, h.safe⟩

/-! ## Whole sectors formatted -/

/-- The position of sector 0 of the block's track. -/
def trackPosition (u : DiskUnit) (b : CommandBlock) : Nat := startPosition u { b with sector := 0#8 }

/-- Write Format on unit `k`, entered in `s`, has put `n` whole sectors of zero bytes on the medium, and no word of
memory has moved. -/
structure SectorsFormatted (b : CommandBlock) (k : UnitId) (st : BackingStore) (s : State) (n : Nat) (t : State) :
    Prop where
  frame : Frame k s t
  unit : t.unit k = { s.unit k with
    backingStore := some
      { st with
        data := BackingStore.overwrite st.data (trackPosition (s.unit k) b)
          (List.replicate (n * (s.unit k).bytesPerSector.toNat) 0#8)
        pos := trackPosition (s.unit k) b + n * (s.unit k).bytesPerSector.toNat
        seekPlan := st.seekPlan.tail
        writePlan := st.writePlan.drop n } }
  mem : t.mem = s.mem
  dma : SameDma s t

section
variable {b : CommandBlock} {k : UnitId} {st : BackingStore} {s t : State} {n : Nat}

/-- A sector of zero bytes that the store accepts whole, as it does unless it has planned less. -/
theorem SectorsFormatted.next (h : SectorsFormatted b k st s n t)
    (hp : ∀ a, st.writePlan[n]? = some a → (s.unit k).bytesPerSector.toNat ≤ a.accepted) (left : Nat) :
    ∃ v, formatSectors k (left + 1) t = formatSectors k left v ∧ SectorsFormatted b k st s (n + 1) v := by
  obtain ⟨hframe, hunit, hmem, hdma⟩ := h
  have hsize : (t.unit k).bytesPerSector = (s.unit k).bytesPerSector := hframe.drive.bytesPerSector
  generalize hzero : List.replicate (s.unit k).bytesPerSector.toNat 0#8 = zero
  have hlen : zero.length = (s.unit k).bytesPerSector.toNat := by rw [← hzero, List.length_replicate]
  have hwrite := storeWrite_full (bytes := zero) (by rw [hunit]) (by rwa [hlen, List.head?_drop])
  have happend := BackingStore.overwrite_append st.data (trackPosition (s.unit k) b)
    (List.replicate (n * (s.unit k).bytesPerSector.toNat) 0#8) zero
  rw [← hzero, List.length_replicate, List.replicate_append_replicate, ← Nat.succ_mul, hzero] at happend
  refine ⟨(storeWrite k zero t).2, ?_, hframe.trans (storeWrite_frame k zero t), ?_,
    (storeWrite_mem k zero t).trans hmem, hdma.trans (storeWrite_sameDma k zero t)⟩
  · rw [formatSectors, hsize, hzero, if_pos (by rw [hwrite])]
  · rw [hwrite, State.emit_unit, State.unit_setStore_same, hunit, happend, hlen, Nat.add_assoc, ← Nat.succ_mul,
      List.tail_drop]

/-- The sector the store cuts short ends the command: the bytes accepted are on the medium, and after them what the
environment left (45_unit_management.md R131). -/
theorem SectorsFormatted.short (h : SectorsFormatted b k st s n t) {a : WriteAnswer}
    (hp : st.writePlan[n]? = some a) (hlt : a.accepted < (s.unit k).bytesPerSector.toNat) (left : Nat) :
    ∃ v, formatSectors k (left + 1) t = .ended .shortWrite v ∧ Frame k s v ∧ v.mem = s.mem ∧ SameDma s v ∧
      v.unit k = { s.unit k with
        backingStore := some
          { st with
            data := BackingStore.overwrite st.data (trackPosition (s.unit k) b)
              (List.replicate (n * (s.unit k).bytesPerSector.toNat + a.accepted) 0#8 ++
                a.tail.take ((s.unit k).bytesPerSector.toNat - a.accepted))
            pos := trackPosition (s.unit k) b + n * (s.unit k).bytesPerSector.toNat + a.accepted
            seekPlan := st.seekPlan.tail
            writePlan := st.writePlan.drop (n + 1) } } := by
  obtain ⟨hframe, hunit, hmem, hdma⟩ := h
  have hsize : (t.unit k).bytesPerSector = (s.unit k).bytesPerSector := hframe.drive.bytesPerSector
  obtain ⟨hn, ha⟩ := List.getElem?_eq_some_iff.1 hp
  generalize hzero : List.replicate (s.unit k).bytesPerSector.toNat 0#8 = zero
  have hlen : zero.length = (s.unit k).bytesPerSector.toNat := by rw [← hzero, List.length_replicate]
  have hwrite := storeWrite_short (bytes := zero) (a := a) (rest := st.writePlan.drop (n + 1)) (by rw [hunit])
    (by rw [List.drop_eq_getElem_cons hn, ha]) (by rwa [hlen])
  have htake : zero.take a.accepted = List.replicate a.accepted 0#8 := by
    rw [← hzero, List.take_replicate, Nat.min_eq_left hlt.le]
  have happend := BackingStore.overwrite_append st.data (trackPosition (s.unit k) b)
    (List.replicate (n * (s.unit k).bytesPerSector.toNat) 0#8)
    (List.replicate a.accepted 0#8 ++ a.tail.take ((s.unit k).bytesPerSector.toNat - a.accepted))
  rw [List.length_replicate, ← List.append_assoc, List.replicate_append_replicate] at happend
  refine ⟨(storeWrite k zero t).2, ?_, hframe.trans (storeWrite_frame k zero t),
    (storeWrite_mem k zero t).trans hmem, hdma.trans (storeWrite_sameDma k zero t), ?_⟩
  · rw [formatSectors, hsize, hzero, if_neg (by rw [hwrite, hlen]; exact hlt.ne)]
  · rw [hwrite, State.emit_unit, State.unit_setStore_same, hunit, hlen, htake, happend]

/-! ## Write Format past its checks -/

variable (hready : Ready b k s) (hw : (s.unit k).writeProtected = false) (hst : (s.unit k).backingStore = some st)
  (hseek : SeekGranted st) (hvalid : ValidTrack (s.unit k) b) (ha : admittedSectorSize (s.unit k) = true)
include hready hw hst hseek hvalid ha

/-- Write Format past its checks is the loop over the sectors of the track, and no sector is formatted yet. -/
theorem wrfmtHandler_of_ready :
    ∃ t, wrfmtHandler b s = formatSectors k (s.unit k).sectorsPerTrack.toNat t ∧ SectorsFormatted b k st s 0 t := by
  have hpos : bytePosition (s.unit k) b.cylinder.toNat b.head.toNat 0 = trackPosition (s.unit k) b :=
    bytePosition_eq (s.unit k) { b with sector := 0#8 }
  have hvalidate : validate (s.unit k) b.cylinder.toNat b.head.toNat 0 = none :=
    (validate_eq_none_iff _ _ _ _).2 ⟨hvalid.1, hvalid.2, Nat.zero_le _⟩
  rw [wrfmtHandler, requireUnit_some hready.selected, requireOnline_ok hready.online, requireSafe_ok hready.safe,
    requireWritable_ok hw, seekUnit_moved (s := takeOperands b k s) hst hseek hvalidate, takeOperands_unit, hpos,
    if_pos ha]
  refine ⟨_, rfl, (takeOperands_frame b k s).trans <|
    (Frame.setStore k (takeOperands b k s) _ hready.online).trans (Frame.emit k _ _), ?_, rfl, ⟨rfl, rfl⟩⟩
  simp [BackingStore.overwrite]

/-- Sectors the store accepts whole are formatted one after the other. -/
theorem wrfmtHandler_formats {left : Nat} (hleft : left + n = (s.unit k).sectorsPerTrack.toNat)
    (hp : ∀ i a, i < n → st.writePlan[i]? = some a → (s.unit k).bytesPerSector.toNat ≤ a.accepted) :
    ∃ t, wrfmtHandler b s = formatSectors k left t ∧ SectorsFormatted b k st s n t := by
  induction n generalizing left with
  | zero =>
    rw [Nat.add_zero] at hleft
    exact hleft ▸ wrfmtHandler_of_ready hready hw hst hseek hvalid ha
  | succ n ih =>
    obtain ⟨t, hloop, ht⟩ := ih (left := left + 1) (by omega) fun i a hi => hp i a (Nat.lt_succ_of_lt hi)
    obtain ⟨v, hnext, hv⟩ := ht.next (fun a => hp n a n.lt_succ_self) left
    exact ⟨v, hloop.trans hnext, hv⟩

end

/-- Settles O35: every sector of the track is accepted whole. -/
theorem writeFormatZeroesTheTrack : Obligations.WriteFormatZeroesTheTrack := by
  intro b s k st hready hw hst href hvalid ha u size pos
  obtain ⟨hseek, -, hplan⟩ := href
  have hpos : trackPosition u b = pos := by
    change 16 + ((b.cylinder.toNat * u.heads.toNat + b.head.toNat) * u.sectorsPerTrack.toNat + 0) *
      u.bytesPerSector.toNat = _
    rw [Nat.add_zero, Nat.mul_assoc]
  obtain ⟨t, hloop, hframe, hunit, hmem, hdma⟩ := wrfmtHandler_formats (s := enterCommand s)
    (n := u.sectorsPerTrack.toNat) hready.enter hw hst (.inl hseek) hvalid ha (Nat.zero_add _) (by simp [hplan])
  obtain ⟨hexec, hposted, hothers⟩ := exec_ends (i := .wrfmt b) rfl hloop hframe
  refine ⟨_, _, hexec, hposted, ?_, overwrite_written st.data (List.replicate size 0#8) pos, hothers, hmem,
    hdma.writes, hdma.reads⟩
  rw [complete_unit, hunit, hseek, hplan, List.tail_nil, List.drop_nil, enterCommand_unit, hpos]

end Sys2Proof.Machine
end

section
/-! PROOF. Read Data and Write Data up to their last sector, canonical start or not: the last sector of a transfer that
succeeds, and the sector a store delivers or accepts short (44_commands_data.md R119, R120). -/

namespace Sys2Proof.Machine

/-! ## The counters of a transfer the in-loop check lets go on (42_geometry_dma.md R102, R112) -/

/-- The counters after `j` sectors of a transfer that may go on to sector `last`: canonical ones follow the linear
position, others stay in the block's cylinder. -/
inductive CountersReach (u : DiskUnit) (b : CommandBlock) (last j : Nat) (x : Transfer) : Prop where
  /-- Head and sector are inside their counts. -/
  | follow (on : SectorsOn u b j x) (inside : linearSector u b + last < admittedSectors u)
  /-- Head or sector is past its count, so nothing carries into the cylinder. -/
  | stay (cylinder : x.cylinder = b.cylinder.toNat)
      (outside : u.heads.toNat ≤ x.head ∨ u.sectorsPerTrack.toNat ≤ x.sector)

/-- A head or a sector past its count never carries into the cylinder, and stays past it (42_geometry_dma.md R112). -/
theorem advanceChs_outside {u : DiskUnit} {x : Transfer}
    (h : u.heads.toNat ≤ x.head ∨ u.sectorsPerTrack.toNat ≤ x.sector) :
    (advanceChs u x).cylinder = x.cylinder ∧
      (u.heads.toNat ≤ (advanceChs u x).head ∨ u.sectorsPerTrack.toNat ≤ (advanceChs u x).sector) := by
  unfold advanceChs
  split
  · rw [if_neg (by omega)]
    exact ⟨rfl, .inl (by dsimp only; omega)⟩
  · exact ⟨rfl, h.imp_right Nat.le_succ_of_le⟩

section
variable {u : DiskUnit} {b : CommandBlock} {last j : Nat} {x : Transfer} (h : CountersReach u b last j x)
include h

theorem CountersReach.advance {y : Transfer} (hy : CountersAdvanced u x y) : CountersReach u b last (j + 1) y := by
  cases h with
  | follow on inside => exact .follow (on.advance hy) inside
  | stay cylinder outside =>
    obtain ⟨hcyl, hout⟩ := advanceChs_outside outside
    rw [← hy.head, ← hy.sector] at hout
    exact .stay (hy.cylinder.trans (hcyl.trans cylinder)) hout

theorem CountersReach.cylinder_le (hvalid : ValidAddress u b) (hj : j ≤ last) : x.cylinder ≤ u.cylinders.toNat := by
  cases h with
  | follow on inside => exact on.cylinder_le_iff.2 (by omega)
  | stay cylinder _ => exact cylinder ▸ hvalid.1.1

end

theorem transferStart_countersReach {b : CommandBlock} {k : UnitId} {st : BackingStore} {s : State} {last : Nat}
    (h : ReachesSector (s.unit k) b last) : CountersReach (s.unit k) b last 0 (transferStart b k st s).xfer := by
  by_cases hcanonical : CanonicalStart (s.unit k) b
  · exact .follow (transferStart_sectorsOn hcanonical) (by omega)
  · refine .stay rfl ?_
    change _ ≤ b.head.toNat ∨ _ ≤ b.sector.toNat
    omega

/-! ## The sectors before the last one -/

theorem sectorLoop_of_done {body : State → Iteration} {s : State} (h : s.xfer.remaining = 0) :
    ∀ fuel, sectorLoop body fuel s = .ended .success s
  | 0 => rfl
  | _ + 1 => if_pos h

/-- A transfer that the in-loop check lets go on to sector `j` moves the `j` sectors before it and comes to it. -/
theorem transferSectors_reaches {b : CommandBlock} {k : UnitId} {st : BackingStore} {s : State} {j : Nat}
    {body : State → Iteration} {P : Nat → State → Prop} (hvalid : ValidAddress (s.unit k) b)
    (ha : admittedSectorSize (s.unit k) = true) (hreach : ReachesSector (s.unit k) b j)
    (hbytes : j * (s.unit k).bytesPerSector.toNat < byteCount b) (hmoves : MovesSectors body b k s j P)
    (hstart : P 0 (transferStart b k st s)) :
    ∃ t, P j t ∧ t.xfer.cylinder ≤ (s.unit k).cylinders.toNat ∧ t.xfer.remaining ≠ 0 ∧
      ∃ fuel, transferSectors b (s.unit k) body (transferStart b k st s) = sectorLoop body (fuel + 1) t := by
  obtain ⟨-, hsize, -⟩ := (admittedSectorSize_iff _).1 ha
  have hfits : ∀ i, i ≤ j → i * (s.unit k).bytesPerSector.toNat < byteCount b := fun i hi =>
    (Nat.mul_le_mul_right _ hi).trans_lt hbytes
  have hleft : ∀ {i t}, i ≤ j → P i t → t.xfer.remaining ≠ 0 := by
    intro i t hi ht
    have := hfits i hi
    rw [hmoves.remaining ht]
    omega
  have hgo : ∀ i t, i < j → (P i t ∧ CountersReach (s.unit k) b j i t.xfer) → t.xfer.remaining ≠ 0 ∧
      ∃ v, body t = .again v ∧ P (i + 1) v ∧ CountersReach (s.unit k) b j (i + 1) v.xfer := by
    rintro i t hi ⟨ht, hat⟩
    obtain ⟨v, hbody, hv, hadv⟩ := hmoves.next hi (hat.cylinder_le hvalid hi.le) (hfits _ hi).le ht
    exact ⟨hleft hi.le ht, v, hbody, hv, hat.advance hadv⟩
  have hj_le : j ≤ j * (s.unit k).bytesPerSector.toNat := Nat.le_mul_of_pos_right j (Nat.zero_lt_of_lt hsize)
  obtain ⟨fuel, hfuel⟩ : ∃ fuel, byteCount b = fuel + 1 + j := ⟨byteCount b - 1 - j, by omega⟩
  obtain ⟨t, ⟨ht, hat⟩, hloop⟩ := sectorLoop_iterates hgo (fuel + 1) ⟨hstart, transferStart_countersReach hreach⟩
  exact ⟨t, ht, hat.cylinder_le hvalid le_rfl, hleft le_rfl ht, fuel, by rw [transferSectors, if_pos ha, hfuel, hloop]⟩

section
variable {b : CommandBlock} {k : UnitId} {st : BackingStore} {s : State} {n : Nat}
  (ha : admittedSectorSize (s.unit k) = true)
include ha

/-- Sectors any store delivers whole are moved (45_unit_management.md R130). -/
theorem readSector_movesSectors_of_delivered
    (hp : ∀ j, j < n → deliveredBytes st st.readPlan[j]?
      (startPosition (s.unit k) b + j * (s.unit k).bytesPerSector.toNat) (s.unit k).bytesPerSector.toNat =
        (s.unit k).bytesPerSector.toNat) :
    MovesSectors (readSector k b.ti) b k s n (SectorsRead b k st s) where
  remaining h := h.remaining
  next {j _} hj hcyl hfit h := h.next ha hcyl hfit (hp j hj)
  past hcyl h := readSector_past_cylinder (by rw [h.unit]; exact hcyl) b.ti

/-- Sectors any store accepts whole are moved (45_unit_management.md R131). -/
theorem writeSector_movesSectors_of_accepted
    (hp : ∀ j a, j < n → st.writePlan[j]? = some a → (s.unit k).bytesPerSector.toNat ≤ a.accepted) :
    MovesSectors (writeSector k) b k s n (SectorsWritten b k st s) where
  remaining h := h.remaining
  next {j _} hj hcyl hfit h := h.next ha hcyl hfit fun a => hp j a hj
  past hcyl h := writeSector_past_cylinder (by rw [h.unit]; exact hcyl)

end

/-! ## The words moved so far -/

@[simp] theorem complete_writes (o : CmdOutcome) (s : State) :
    dmaWrites (complete o s).trace = dmaWrites s.trace := rfl
@[simp] theorem complete_reads (o : CmdOutcome) (s : State) : dmaReads (complete o s).trace = dmaReads s.trace := rfl

/-- From `s` to `t` the operation has moved the words from the block's address up to the running one; `seen` picks the
writes or the reads. -/
def WordsMoved (seen : List Event → List DmaAddr) (b : CommandBlock) (s t : State) : Prop :=
  ∃ n, 2 * n + t.xfer.remaining ≤ byteCount b ∧ t.xfer.dma = dmaAt (dmaAddress b) n ∧
    Appends seen (dmaAddress b) n s t

section
variable {seen : List Event → List DmaAddr} {b : CommandBlock} {s t v : State}

theorem WordsMoved.next (h : WordsMoved seen b s t) (hmoves : (Iteration.again v).Moves seen t) :
    WordsMoved seen b s v := by
  obtain ⟨n, hn, hdma, hsoFar⟩ := h
  obtain ⟨m, hm, hdma', hrun⟩ := hmoves
  rw [hdma] at hdma' hrun
  exact ⟨n + m, by omega, by rw [hdma', dmaAt_add], hsoFar.trans hrun⟩

/-- The running address says how many words have been moved, since no transfer passes the window twice. -/
theorem WordsMoved.length_eq (h : WordsMoved seen b s t) {n : Nat} (hdma : t.xfer.dma = dmaAt (dmaAddress b) n)
    (hn : 2 * n ≤ byteCount b) : (seen t.trace).length = (seen s.trace).length + n := by
  obtain ⟨m, hm, hdma', hrun⟩ := h
  have hcount := byteCount_even b
  have heq := congrArg BitVec.toNat (hdma'.symm.trans hdma)
  rw [dmaAt_toNat, dmaAt_toNat] at heq
  obtain rfl : m = n := by omega
  rw [hrun, List.length_append, List.length_map, List.length_range]

theorem MovesSectors.counting {body : State → Iteration} {k : UnitId} {n : Nat} {P : Nat → State → Prop}
    (h : MovesSectors body b k s n P) (hbody : ∀ x, x.xfer.dma.getLsbD 0 = false → (body x).Moves seen x) :
    MovesSectors body b k s n fun j x => P j x ∧ WordsMoved seen b s x where
  remaining hx := h.remaining hx.1
  next hj hcyl hfit := by
    rintro ⟨hx, hwords⟩
    obtain ⟨v, hv, hnext, hadv⟩ := h.next hj hcyl hfit hx
    obtain ⟨m, -, hdma, -⟩ := id hwords
    have hmoves := hbody _ (hdma ▸ dmaAt_even (dmaAddress_even b) m)
    rw [hv] at hmoves
    exact ⟨v, hv, ⟨hnext, hwords.next hmoves⟩, hadv⟩
  past hcyl hx := h.past hcyl hx.1

theorem transferStart_wordsMoved {k : UnitId} {st : BackingStore}
    (h : seen (transferStart b k st s).trace = seen s.trace) : WordsMoved seen b s (transferStart b k st s) :=
  ⟨0, by rw [Nat.mul_zero, Nat.zero_add]; exact le_rfl, (dmaAt_zero _).symm, .none h⟩

end

/-! ## The last sector (42_geometry_dma.md R111) -/

theorem exists_last_sector {u : DiskUnit} {b : CommandBlock} (ha : admittedSectorSize u = true)
    (h : byteCount b ≠ 0) : ∃ j, sectorsNeeded u b = j + 1 ∧ j * u.bytesPerSector.toNat < byteCount b ∧
      byteCount b ≤ (j + 1) * u.bytesPerSector.toNat := by
  obtain ⟨-, hsize, -⟩ := (admittedSectorSize_iff u).1 ha
  have hneeded : sectorsNeeded u b = (byteCount b - 1) / u.bytesPerSector.toNat + 1 := by
    rw [sectorsNeeded, ← Nat.add_div_right _ (by omega)]
    congr 1
    omega
  refine ⟨_, hneeded, mul_lt_byteCount_of_lt_sectorsNeeded (hneeded ▸ Nat.lt_succ_self _), ?_⟩
  have := (Nat.div_lt_iff_lt_mul (by omega)).1 (Nat.lt_add_one ((byteCount b - 1) / u.bytesPerSector.toNat))
  omega

/-- A transfer that stays inside reaches its last sector. -/
theorem StaysInside.reachesSector {u : DiskUnit} {b : CommandBlock} {j : Nat} (h : StaysInside u b)
    (hj : sectorsNeeded u b = j + 1) : ReachesSector u b j :=
  h.imp_right <| .imp_right fun hle => by omega

/-! ## Read Data -/

/-- A store delivers all it is asked for where its content goes on so far and it has planned no less
(45_unit_management.md R130). -/
theorem deliveredBytes_eq_asked {st : BackingStore} {answer : Option Nat} {pos n : Nat}
    (hanswer : ∀ l, answer = some l → n ≤ l) (hdata : pos + n ≤ st.data.length) :
    deliveredBytes st answer pos n = n := by
  have : n ≤ answer.getD n := by
    cases answer with
    | none => exact le_rfl
    | some l => exact hanswer l rfl
  unfold deliveredBytes
  omega

section
variable {b : CommandBlock} {k : UnitId} {st : BackingStore} {s t : State} {j : Nat}
  (h : SectorsRead b k st s j t)
include h

theorem SectorsRead.dma_even : t.xfer.dma.getLsbD 0 = false := by
  rw [h.dma]
  split
  · exact dmaAddress_even b
  · exact dmaAt_even (dmaAddress_even b) _

/-- The bytes of the next sector follow those of the sectors before it. -/
theorem SectorsRead.stored_append (ha : admittedSectorSize (s.unit k) = true) {n : Nat} {m : Memory}
    (hn : j * (s.unit k).bytesPerSector.toNat + n ≤ byteCount b)
    (hdata : startPosition (s.unit k) b + j * (s.unit k).bytesPerSector.toNat + n ≤ st.data.length)
    (hnext : Stored t.mem m t.xfer.dma (if b.ti then []
      else (st.data.drop (startPosition (s.unit k) b + j * (s.unit k).bytesPerSector.toNat)).take n)) :
    Stored s.mem m (dmaAddress b) (if b.ti then []
      else (st.data.drop (startPosition (s.unit k) b)).take (j * (s.unit k).bytesPerSector.toNat + n)) := by
  have hwords := two_mul_sector_words ha j
  have hcount := byteCount_even b
  have hstored := h.stored
  rw [h.dma] at hnext
  cases hti : b.ti with
  | true =>
    simp only [hti, if_true] at hstored hnext ⊢
    exact hstored.append (n := 0) rfl (by rwa [dmaAt_zero]) (Nat.zero_le _)
  | false =>
    simp only [hti, Bool.false_eq_true, if_false] at hstored hnext ⊢
    rw [List.take_add, List.drop_drop]
    refine hstored.append ?_ hnext ?_
    · rw [List.length_take, List.length_drop, hwords]
      omega
    · rw [List.length_take, List.length_take, List.length_drop]
      omega

variable (hcyl : t.xfer.cylinder ≤ (s.unit k).cylinders.toNat)
include hcyl

/-- The last sector of a Read Data, delivered as far as the byte count goes. -/
theorem SectorsRead.last (ha : admittedSectorSize (s.unit k) = true)
    (hlt : j * (s.unit k).bytesPerSector.toNat < byteCount b)
    (hle : byteCount b ≤ (j + 1) * (s.unit k).bytesPerSector.toNat)
    (hp : deliveredBytes st st.readPlan[j]? (startPosition (s.unit k) b + j * (s.unit k).bytesPerSector.toNat)
      (byteCount b - j * (s.unit k).bytesPerSector.toNat) = byteCount b - j * (s.unit k).bytesPerSector.toNat) :
    ∃ v, readSector k b.ti t = .again v ∧ v.xfer.remaining = 0 ∧ Frame k s v ∧
      v.unit k = { s.unit k with
        backingStore := some
          { st with
            pos := startPosition (s.unit k) b + byteCount b
            seekPlan := st.seekPlan.tail
            readPlan := st.readPlan.drop (j + 1) } } ∧
      Stored s.mem v.mem (dmaAddress b)
        (if b.ti then [] else (st.data.drop (startPosition (s.unit k) b)).take (byteCount b)) := by
  have hwords := two_mul_sector_words ha j
  have hcount := byteCount_even b
  have hlen := le_length_of_deliveredBytes (by omega) hp
  have hbytes : byteCount b = j * (s.unit k).bytesPerSector.toNat +
      (byteCount b - j * (s.unit k).bytesPerSector.toNat) := by omega
  have hleft := h.remaining
  rw [Nat.succ_mul] at hle
  obtain ⟨v, hbody, hvu, hvr, -, -, -, -, hvm, -⟩ := readSector_full (ti := b.ti) h.unit ha h.dma_even (by omega) hcyl
    (n := byteCount b - j * (s.unit k).bytesPerSector.toNat) (by omega) (by rwa [List.head?_drop])
  have hvframe := readSector_frame k b.ti t
  rw [hbody] at hvframe
  have hstored := h.stored_append ha (by omega) hlen hvm
  rw [← hbytes] at hstored
  exact ⟨v, hbody, by omega, h.frame.trans hvframe, by rw [hvu, Nat.add_assoc, ← hbytes, List.tail_drop], hstored⟩

/-- The sector a store delivers short ends Read Data, and nothing of it is moved. -/
theorem SectorsRead.short {n got : Nat}
    (hn : n = min (byteCount b - j * (s.unit k).bytesPerSector.toNat) (s.unit k).bytesPerSector.toNat)
    (hgot : got = deliveredBytes st st.readPlan[j]?
      (startPosition (s.unit k) b + j * (s.unit k).bytesPerSector.toNat) n) (hlt : got < n) :
    ∃ v, readSector k b.ti t = .stop .shortRead v ∧ Frame k s v ∧ v.mem = t.mem ∧
      dmaWrites v.trace = dmaWrites t.trace ∧
      v.unit k = { s.unit k with
        backingStore := some
          { st with
            pos := startPosition (s.unit k) b + j * (s.unit k).bytesPerSector.toNat + got
            seekPlan := st.seekPlan.tail
            readPlan := st.readPlan.drop (j + 1) } } := by
  obtain ⟨hframe, hunit, hleft, -, -⟩ := h
  obtain ⟨v, hbody, hvu, hvm, hvw⟩ := readSector_short (ti := b.ti) hunit hcyl (n := n) (got := got)
    (by rw [hleft, hn]) (by rwa [List.head?_drop]) hlt
  have hvframe := readSector_frame k b.ti t
  rw [hbody] at hvframe
  exact ⟨v, hbody, hframe.trans hvframe, hvm, hvw, by rw [hvu, List.tail_drop]⟩

end

/-- The words written so far are those of the bytes moved. -/
theorem SectorsRead.writes_length {b : CommandBlock} {k : UnitId} {st : BackingStore} {s t : State} {j : Nat}
    (h : SectorsRead b k st s j t) (hwords : WordsMoved writeAddresses b s t)
    (ha : admittedSectorSize (s.unit k) = true) (hfit : j * (s.unit k).bytesPerSector.toNat ≤ byteCount b)
    (hdata : 0 < j →
      startPosition (s.unit k) b + j * (s.unit k).bytesPerSector.toNat ≤ st.data.length) :
    let moved := if b.ti then []
      else (st.data.drop (startPosition (s.unit k) b)).take (j * (s.unit k).bytesPerSector.toNat)
    (dmaWrites t.trace).length = (dmaWrites s.trace).length + moved.length / 2 := by
  intro moved
  have hmoved : moved.length = if b.ti then 0 else j * (s.unit k).bytesPerSector.toNat := by
    simp only [moved]
    split
    · rfl
    · rw [List.length_take, List.length_drop]
      obtain rfl | hpos := Nat.eq_zero_or_pos j
      · simp
      · have := hdata hpos
        omega
  have hdma : t.xfer.dma = dmaAt (dmaAddress b) (moved.length / 2) := by
    rw [h.dma, hmoved]
    split
    · rw [Nat.zero_div, dmaAt_zero]
    · rw [← two_mul_sector_words ha j, Nat.mul_div_cancel_left _ Nat.two_pos]
  have hwritten := hwords.length_eq hdma (by
    rw [hmoved]
    split <;> omega)
  rwa [writeAddresses, writeAddresses, List.length_map, List.length_map] at hwritten

/-- Settles O36: the whole sectors and the last one are read, each of them inside the content. -/
theorem readDataMovesTheBytes : Obligations.ReadDataMovesTheBytes := by
  intro b s k st hready hst href hvalid ha hinside hdata
  obtain ⟨hseek, hplan, -⟩ := id href
  by_cases h0 : byteCount b = 0
  · obtain ⟨t, hexec, hposted, hunit, hothers, hmem, -⟩ := zeroByteCountMovesNothing b (.rddata b) s k st hready hst
      (.inl hseek) hvalid ha h0 (.inl rfl)
    refine ⟨t, hexec, hposted, ?_, hothers, ?_⟩
    · rw [hunit, hseek, h0, Nat.add_zero, List.tail_nil]
    · rw [hmem, h0, List.take_zero, ite_self]
      exact Stored.refl _ _
  · obtain ⟨j, hneeded, hlt, hle⟩ := exists_last_sector ha h0
    obtain ⟨t, ht, hcyl, hleft, fuel, hloop⟩ := transferSectors_reaches (st := st) (s := enterCommand s) hvalid ha
      (hinside.reachesSector hneeded) hlt (readSector_movesSectors (s := enterCommand s) href ha (by
        rw [enterCommand_unit]; omega)) (transferStart_sectorsRead hready.online)
    obtain ⟨v, hbody, hdone, hframe, hunit, hstored⟩ := ht.last hcyl ha hlt hle
      (deliveredBytes_reference hplan (by rw [enterCommand_unit]; omega) j)
    rw [sectorLoop_of_again hleft fuel hbody, sectorLoop_of_done hdone] at hloop
    obtain ⟨hexec, hposted, hothers⟩ := exec_ends (i := .rddata b) rfl
      ((rddataHandler_of_ready (s := enterCommand s) hst (.inl hseek) hvalid hready.enter).trans hloop) hframe
    refine ⟨_, hexec, hposted, ?_, hothers, hstored⟩
    rw [complete_unit, hunit, hseek, hplan, List.tail_nil, List.drop_nil, enterCommand_unit]

/-- Settles O39: the sectors before the short one are read, and the loop stops at it. -/
theorem shortReadDiscardsTheSector : Obligations.ShortReadDiscardsTheSector := by
  intro b s k st j hready hst hseek hvalid ha u size start asked got moved hbytes hreach hplan hdata hshort
  have hdelivered : ∀ i, i < j → deliveredBytes st st.readPlan[i]? (start + i * size) size = size := by
    intro i hi
    have hnext := Nat.mul_le_mul_right size hi
    rw [Nat.succ_mul] at hnext
    exact deliveredBytes_eq_asked (fun l => hplan i l hi) (by omega)
  obtain ⟨t, ⟨ht, hwords⟩, hcyl, hleft, fuel, hloop⟩ := transferSectors_reaches (st := st) (s := enterCommand s) hvalid
    ha hreach hbytes
    ((readSector_movesSectors_of_delivered (s := enterCommand s) ha hdelivered).counting (readSector_writes k b.ti))
    ⟨transferStart_sectorsRead hready.online, transferStart_wordsMoved rfl⟩
  obtain ⟨v, hbody, hframe, hmem, hwrites, hunit⟩ := ht.short hcyl (n := asked) (got := got) rfl rfl hshort
  rw [sectorLoop_of_stop hleft fuel hbody] at hloop
  obtain ⟨hexec, hposted, hothers⟩ := exec_ends (i := .rddata b) rfl
    ((rddataHandler_of_ready (s := enterCommand s) hst hseek hvalid hready.enter).trans hloop) hframe
  refine ⟨_, hexec, hposted, hunit, hothers, ?_, ?_⟩
  · exact hmem ▸ ht.stored
  · rw [complete_writes, hwrites]
    exact ht.writes_length hwords ha hbytes.le hdata

end Sys2Proof.Machine
end

section
/-! PROOF. Write Data up to its last sector: the image of whole sectors it puts on the medium, the sector the store cuts
short, and the round trip through Read Data (44_commands_data.md R119, R120). -/

namespace Sys2Proof.Machine

/-! ## The sectors of the image (44_commands_data.md R120) -/

/-- The bytes of sector `j` as Write Data offers them: what is fetched of it, and zero bytes to its end. -/
def sectorBytes (u : DiskUnit) (m : Memory) (b : CommandBlock) (j : Nat) : List Byte :=
  memoryBytes m (dmaAt (dmaAddress b) (j * (u.bytesPerSector.toNat / 2)))
      (min (byteCount b - j * u.bytesPerSector.toNat) u.bytesPerSector.toNat) ++
    List.replicate (u.bytesPerSector.toNat - min (byteCount b - j * u.bytesPerSector.toNat) u.bytesPerSector.toNat) 0#8

theorem sectorBytes_length (u : DiskUnit) (m : Memory) (b : CommandBlock) (j : Nat) :
    (sectorBytes u m b j).length = u.bytesPerSector.toNat := by
  rw [sectorBytes, List.length_append, memoryBytes_length, List.length_replicate]
  omega

theorem memoryBytes_take (m : Memory) (a : DmaAddr) (n i : Nat) :
    (memoryBytes m a n).take i = memoryBytes m a (min i n) := by
  rw [memoryBytes, ← List.map_take, List.take_range, memoryBytes]

/-- Up to sector `j` the image is the bytes of memory, and there the bytes of that sector. -/
theorem sectorImage_take {u : DiskUnit} {m : Memory} {b : CommandBlock} {j i : Nat} (ha : admittedSectorSize u = true)
    (hlt : j * u.bytesPerSector.toNat < byteCount b) (hi : i ≤ u.bytesPerSector.toNat) :
    (sectorImage u m b).take (j * u.bytesPerSector.toNat + i) =
      memoryBytes m (dmaAddress b) (j * u.bytesPerSector.toNat) ++ (sectorBytes u m b j).take i := by
  have hneeded : (j + 1) * u.bytesPerSector.toNat ≤ sectorsNeeded u b * u.bytesPerSector.toNat := by
    obtain ⟨-, hsize, -⟩ := (admittedSectorSize_iff u).1 ha
    refine Nat.mul_le_mul_right _ ((Nat.le_div_iff_mul_le (by omega)).2 ?_)
    rw [Nat.succ_mul]
    omega
  rw [Nat.succ_mul] at hneeded
  have hwords := two_mul_sector_words ha j
  have hbytes : byteCount b = 2 * (j * (u.bytesPerSector.toNat / 2)) + (byteCount b - j * u.bytesPerSector.toNat) := by
    omega
  have hmemory := memoryBytes_add m (dmaAddress b) (j * (u.bytesPerSector.toNat / 2))
    (byteCount b - j * u.bytesPerSector.toNat)
  rw [← hbytes, hwords] at hmemory
  rw [sectorImage, sectorBytes, hmemory, List.append_assoc, List.take_append, memoryBytes_length,
    List.take_of_length_le (by rw [memoryBytes_length]; omega), Nat.add_sub_cancel_left]
  simp only [List.take_append, memoryBytes_take, memoryBytes_length, List.take_replicate]
  congr 3 <;> omega

/-- An image of `j + 1` sectors ends with sector `j`. -/
theorem sectorImage_eq {u : DiskUnit} {m : Memory} {b : CommandBlock} {j : Nat} (ha : admittedSectorSize u = true)
    (hneeded : sectorsNeeded u b = j + 1) (hlt : j * u.bytesPerSector.toNat < byteCount b)
    (hle : byteCount b ≤ (j + 1) * u.bytesPerSector.toNat) :
    sectorImage u m b = memoryBytes m (dmaAddress b) (j * u.bytesPerSector.toNat) ++ sectorBytes u m b j := by
  have h := sectorImage_take (m := m) ha hlt le_rfl
  have hlen : (sectorImage u m b).length = (j + 1) * u.bytesPerSector.toNat := by
    rw [sectorImage, List.length_append, memoryBytes_length, List.length_replicate, hneeded]
    omega
  rwa [← Nat.succ_mul, List.take_of_length_le hlen.le, List.take_of_length_le (sectorBytes_length u m b j).le] at h

/-! ## One sector more -/

section
variable {b : CommandBlock} {k : UnitId} {st : BackingStore} {s t : State} {j : Nat}
  (h : SectorsWritten b k st s j t) (hcyl : t.xfer.cylinder ≤ (s.unit k).cylinders.toNat)
  (ha : admittedSectorSize (s.unit k) = true) (hlt : j * (s.unit k).bytesPerSector.toNat < byteCount b)
include h hcyl ha hlt

/-- The last sector of a Write Data, accepted whole. -/
theorem SectorsWritten.last (hneeded : sectorsNeeded (s.unit k) b = j + 1)
    (hle : byteCount b ≤ (j + 1) * (s.unit k).bytesPerSector.toNat)
    (hp : ∀ a, st.writePlan[j]? = some a → (s.unit k).bytesPerSector.toNat ≤ a.accepted) :
    ∃ v, writeSector k t = .again v ∧ v.xfer.remaining = 0 ∧ Frame k s v ∧ v.mem = s.mem ∧
      v.unit k = { s.unit k with
        backingStore := some
          { st with
            data := BackingStore.overwrite st.data (startPosition (s.unit k) b) (sectorImage (s.unit k) s.mem b)
            pos := startPosition (s.unit k) b + (j + 1) * (s.unit k).bytesPerSector.toNat
            seekPlan := st.seekPlan.tail
            writePlan := st.writePlan.drop (j + 1) } } := by
  obtain ⟨hframe, hunit, hleft, hdma, hmem⟩ := h
  have hwords := two_mul_sector_words ha j
  have hcount := byteCount_even b
  have happend := BackingStore.overwrite_append st.data (startPosition (s.unit k) b)
    (memoryBytes s.mem (dmaAddress b) (j * (s.unit k).bytesPerSector.toNat)) (sectorBytes (s.unit k) s.mem b j)
  rw [memoryBytes_length, ← sectorImage_eq ha hneeded hlt hle] at happend
  obtain ⟨v, hbody, hvu, hvr, -, -, -, -, hvm⟩ := writeSector_full hunit ha (hdma ▸ dmaAt_even (dmaAddress_even b) _)
    (by omega) hcyl rfl (by rwa [List.head?_drop])
  have hvframe := writeSector_frame k t
  rw [hbody] at hvframe
  refine ⟨v, hbody, ?_, hframe.trans hvframe, hvm.trans hmem, ?_⟩
  · rw [Nat.succ_mul] at hle
    omega
  · rw [hvu, hmem, hleft, hdma, ← sectorBytes, happend, Nat.succ_mul, ← Nat.add_assoc, List.tail_drop]

/-- The sector a store cuts short ends Write Data, which has read the words of that sector too. -/
theorem SectorsWritten.short {a : WriteAnswer} (hp : st.writePlan[j]? = some a)
    (hshort : a.accepted < (s.unit k).bytesPerSector.toNat) :
    ∃ v, writeSector k t = .stop .shortWrite v ∧ Frame k s v ∧ v.mem = s.mem ∧
      (dmaReads v.trace).length = (dmaReads t.trace).length +
        min (byteCount b - j * (s.unit k).bytesPerSector.toNat) (s.unit k).bytesPerSector.toNat / 2 ∧
      v.unit k = { s.unit k with
        backingStore := some
          { st with
            data := BackingStore.overwrite st.data (startPosition (s.unit k) b)
              ((sectorImage (s.unit k) s.mem b).take (j * (s.unit k).bytesPerSector.toNat + a.accepted) ++
                a.tail.take ((s.unit k).bytesPerSector.toNat - a.accepted))
            pos := startPosition (s.unit k) b + j * (s.unit k).bytesPerSector.toNat + a.accepted
            seekPlan := st.seekPlan.tail
            writePlan := st.writePlan.drop (j + 1) } } := by
  obtain ⟨hframe, hunit, hleft, hdma, hmem⟩ := h
  obtain ⟨hj, hanswer⟩ := List.getElem?_eq_some_iff.1 hp
  have hwords := two_mul_sector_words ha j
  have hcount := byteCount_even b
  have happend := BackingStore.overwrite_append st.data (startPosition (s.unit k) b)
    (memoryBytes s.mem (dmaAddress b) (j * (s.unit k).bytesPerSector.toNat))
    ((sectorBytes (s.unit k) s.mem b j).take a.accepted ++
      a.tail.take ((s.unit k).bytesPerSector.toNat - a.accepted))
  rw [memoryBytes_length, ← List.append_assoc, ← sectorImage_take ha hlt hshort.le] at happend
  obtain ⟨s1, hunit1, hmem1, -, -, -, -, -, hreads, hbody⟩ := writeSector_fetches hunit ha
    (hdma ▸ dmaAt_even (dmaAddress_even b) _) (by omega) hcyl rfl
  dsimp only at hbody
  rw [hmem, hleft, hdma, ← sectorBytes] at hbody
  have hlen := sectorBytes_length (s.unit k) s.mem b j
  have hwrite := storeWrite_short (bytes := sectorBytes (s.unit k) s.mem b j) (a := a)
    (rest := st.writePlan.drop (j + 1)) (by rw [hunit1, hunit]) (by rw [List.drop_eq_getElem_cons hj, hanswer])
    (by rwa [hlen])
  rw [if_neg (by rw [hwrite]; exact hshort.ne)] at hbody
  have hvframe := writeSector_frame k t
  rw [hbody] at hvframe
  refine ⟨_, hbody, hframe.trans hvframe, ?_, ?_, ?_⟩
  · rw [storeWrite_mem, hmem1, hmem]
  · rw [(storeWrite_sameDma ..).reads, hreads, hleft]
  · rw [hwrite, State.emit_unit, State.unit_setStore_same, hunit1, hunit, hlen, happend]

end

/-- Settles O37: the whole sectors and the last one are accepted by the reference store. -/
theorem writeDataStoresWholeSectors : Obligations.WriteDataStoresWholeSectors := by
  intro b s k st hready hw hst href hvalid ha hinside u
  obtain ⟨hseek, -, hplan⟩ := id href
  by_cases h0 : byteCount b = 0
  · obtain ⟨t, hexec, hposted, hunit, hothers, hmem, -⟩ := zeroByteCountMovesNothing b (.wrdata b) s k st hready hst
      (.inl hseek) hvalid ha h0 (.inr ⟨rfl, hw⟩)
    have hnone : sectorsNeeded u b = 0 := by
      obtain ⟨-, hsize, -⟩ := (admittedSectorSize_iff u).1 ha
      rw [sectorsNeeded, h0]
      exact ceilDiv_zero (by omega)
    have himage : sectorImage u s.mem b = [] := by
      rw [sectorImage, hnone, h0, Nat.zero_mul]
      rfl
    refine ⟨t, _, hexec, hposted, ?_, overwrite_written st.data (sectorImage u s.mem b) (startPosition u b), hothers,
      hmem⟩
    rw [hunit, himage, hnone, hseek, Nat.zero_mul]
    rfl
  · obtain ⟨j, hneeded, hlt, hle⟩ := exists_last_sector ha h0
    obtain ⟨t, ht, hcyl, hleft, fuel, hloop⟩ := transferSectors_reaches (st := st) (s := enterCommand s) hvalid ha
      (hinside.reachesSector hneeded) hlt (writeSector_movesSectors (s := enterCommand s) href ha)
      (transferStart_sectorsWritten hready.online)
    obtain ⟨v, hbody, hdone, hframe, hmem, hunit⟩ := ht.last hcyl ha hlt hneeded hle (by simp [hplan])
    rw [sectorLoop_of_again hleft fuel hbody, sectorLoop_of_done hdone] at hloop
    obtain ⟨hexec, hposted, hothers⟩ := exec_ends (i := .wrdata b) rfl
      ((wrdataHandler_of_ready (s := enterCommand s) hst (.inl hseek) hvalid hready.enter hw).trans hloop) hframe
    refine ⟨_, _, hexec, hposted, ?_, overwrite_written st.data (sectorImage u s.mem b) (startPosition u b), hothers,
      hmem⟩
    rw [complete_unit, hunit, hseek, hplan, List.tail_nil, List.drop_nil, hneeded]
    rfl

/-! ## A short write (45_unit_management.md R131) -/

/-- Command `i` reports that the store `st` of unit `k` cut the write of sector `j` short by answer `a`: of `image`,
which starts at `start`, the sectors before `j` and the bytes accepted are on the medium, and `words` words were read
from memory (60_exceptions.md R145). -/
def ReportsShortWrite (i : Instr) (s : State) (k : UnitId) (st : BackingStore) (a : WriteAnswer) (j start : Nat)
    (image : List Byte) (words : Nat) : Prop :=
  let u := s.unit k
  let size := u.bytesPerSector.toNat
  ∃ t data, exec i s = .next t ∧ Posted s t 0xC000#16 0x2001#16 ∧
    t.unit k = { u with
      backingStore := some
        { st with
          data := data
          pos := start + j * size + a.accepted
          seekPlan := st.seekPlan.tail
          writePlan := st.writePlan.drop (j + 1) } } ∧
    Written st.data data start (image.take (j * size + a.accepted) ++ a.tail.take (size - a.accepted)) ∧
    (∀ n, n ≠ k → t.unit n = s.unit n) ∧ t.mem = s.mem ∧
    (dmaReads t.trace).length = (dmaReads s.trace).length + words

section
variable {b : CommandBlock} {s : State} {k : UnitId} {st : BackingStore} {a : WriteAnswer} {j : Nat}
  (hready : Ready b k s) (hw : (s.unit k).writeProtected = false) (hst : (s.unit k).backingStore = some st)
  (hseek : SeekGranted st) (ha : admittedSectorSize (s.unit k) = true) (hanswer : st.writePlan[j]? = some a)
  (hshort : a.accepted < (s.unit k).bytesPerSector.toNat)
  (hwhole : ∀ n c, n < j → st.writePlan[n]? = some c → (s.unit k).bytesPerSector.toNat ≤ c.accepted)
include hready hw hst hseek ha hanswer hshort hwhole

theorem wrfmt_reportsShortWrite (hvalid : ValidTrack (s.unit k) b) (hj : j < (s.unit k).sectorsPerTrack.toNat) :
    ReportsShortWrite (.wrfmt b) s k st a j (trackPosition (s.unit k) b)
      (List.replicate ((s.unit k).sectorsPerTrack.toNat * (s.unit k).bytesPerSector.toNat) 0#8) 0 := by
  obtain ⟨t, hloop, ht⟩ := wrfmtHandler_formats (s := enterCommand s) hready.enter hw hst hseek hvalid ha
    (Nat.sub_add_cancel hj.le) hwhole
  obtain ⟨left, hleft⟩ : ∃ left, (s.unit k).sectorsPerTrack.toNat - j = left + 1 := ⟨_, (Nat.sub_one_add_one
    (Nat.sub_ne_zero_of_lt hj)).symm⟩
  obtain ⟨v, hend, hframe, hmem, hdma, hunit⟩ := ht.short hanswer hshort left
  obtain ⟨hexec, hposted, hothers⟩ := exec_ends (i := .wrfmt b) rfl (hloop.trans (hleft ▸ hend)) hframe
  have hfit := Nat.mul_le_mul_right (s.unit k).bytesPerSector.toNat hj
  rw [Nat.succ_mul] at hfit
  refine ⟨_, _, hexec, hposted, ?_, overwrite_written st.data _ _, hothers, hmem, congrArg List.length hdma.reads⟩
  rw [complete_unit, hunit, List.take_replicate, Nat.min_eq_left (by omega), enterCommand_unit]

theorem wrdata_reportsShortWrite (hvalid : ValidAddress (s.unit k) b)
    (hlt : j * (s.unit k).bytesPerSector.toNat < byteCount b) (hreach : ReachesSector (s.unit k) b j) :
    ReportsShortWrite (.wrdata b) s k st a j (startPosition (s.unit k) b) (sectorImage (s.unit k) s.mem b)
      (min (byteCount b) ((j + 1) * (s.unit k).bytesPerSector.toNat) / 2) := by
  obtain ⟨t, ⟨ht, hwords⟩, hcyl, hleft, fuel, hloop⟩ := transferSectors_reaches (st := st) (s := enterCommand s)
    hvalid ha hreach hlt ((writeSector_movesSectors_of_accepted (s := enterCommand s) ha hwhole).counting
      (writeSector_reads k)) ⟨transferStart_sectorsWritten hready.online, transferStart_wordsMoved rfl⟩
  obtain ⟨v, hbody, hframe, hmem, hreads, hunit⟩ := ht.short hcyl ha hlt hanswer hshort
  rw [sectorLoop_of_stop hleft fuel hbody] at hloop
  obtain ⟨hexec, hposted, hothers⟩ := exec_ends (i := .wrdata b) rfl
    ((wrdataHandler_of_ready (s := enterCommand s) hst hseek hvalid hready.enter hw).trans hloop) hframe
  have hsoFar := two_mul_sector_words ha j
  have hcounted := hwords.length_eq ht.dma (by rw [enterCommand_unit]; omega)
  refine ⟨_, _, hexec, hposted, hunit, overwrite_written st.data _ _, hothers, hmem, ?_⟩
  rw [complete_reads, hreads, hcounted, Nat.succ_mul, enterCommand_unit, enterCommand_trace]
  omega

end

/-- Settles O40: the sectors before the short one are accepted whole, and the command stops at it. -/
theorem shortWriteIsReported : Obligations.ShortWriteIsReported := by
  intro b i s k st a j hready hw hst hseek ha u size hanswer hshort hwhole hi start image
  change ReportsShortWrite i s k st a j start image _
  obtain ⟨rfl, hvalid, hj⟩ | ⟨rfl, hvalid, hlt, hreach⟩ := hi
  · simp only [start, image, if_true]
    exact wrfmt_reportsShortWrite hready hw hst hseek ha hanswer hshort hwhole hvalid hj
  · simp only [start, image, reduceCtorEq, if_false]
    exact wrdata_reportsShortWrite hready hw hst hseek ha hanswer hshort hwhole hvalid hlt hreach

/-! ## The round trip (95_test_vectors.md S-P4) -/

theorem byteCount_le_sectorImage_length (u : DiskUnit) (m : Memory) (b : CommandBlock) :
    byteCount b ≤ (sectorImage u m b).length := by
  rw [sectorImage, List.length_append, memoryBytes_length]
  exact Nat.le_add_right _ _

/-- The bytes of memory stand at the front of the image. -/
theorem sectorImage_getElem? {u : DiskUnit} {m : Memory} {b : CommandBlock} {n : Nat} (hn : n < byteCount b) :
    (sectorImage u m b)[n]? = some (Memory.readByte m (dmaByte (dmaAddress b) n)) := by
  rw [sectorImage, List.getElem?_append_left (by rwa [memoryBytes_length]), memoryBytes, List.getElem?_map,
    List.getElem?_range hn, Option.map_some]

/-- Settles O44: Read Data finds on the medium what Write Data put there. -/
theorem writeThenReadRoundTrip : Obligations.WriteThenReadRoundTrip := by
  intro b s k st lo hi hready hw hst href hvalid ha hinside back
  obtain ⟨t, data, hwrite, hposted, hunit, hwritten, -, -⟩ := writeDataStoresWholeSectors b s k st hready hw hst href
    hvalid ha hinside
  have hback : Ready back k t := ⟨by rw [hposted.cfg]; exact hready.selected, by rw [hunit]; rfl, by
    rw [hunit]; exact hready.safe⟩
  by_cases h0 : byteCount b = 0
  · obtain ⟨r, hread, hposted', -⟩ := zeroByteCountMovesNothing back (.rddata back) t k _ hback
      (congrArg DiskUnit.backingStore hunit) (.inl href.1) (by rw [hunit]; exact hvalid) (by rw [hunit]; exact ha) h0
      (.inl rfl)
    exact ⟨t, r, hwrite, hread, hposted', fun n hn => absurd hn (by omega)⟩
  · have hcontent : ∀ n, n < byteCount b → data[startPosition (s.unit k) b + n]? =
        some (Memory.readByte s.mem (dmaByte (dmaAddress b) n)) := fun n hn =>
      (hwritten.content n (hn.trans_le (byteCount_le_sectorImage_length ..))).trans (sectorImage_getElem? hn)
    have hlen : startPosition (s.unit k) b + byteCount b ≤ data.length := by
      obtain ⟨hlast, -⟩ := List.getElem?_eq_some_iff.1 (hcontent (byteCount b - 1) (by omega))
      omega
    obtain ⟨r, hread, hposted', -, -, hstored, -⟩ := readDataMovesTheBytes back t k _ hback
      (congrArg DiskUnit.backingStore hunit) href (by rw [hunit]; exact hvalid) (by rw [hunit]; exact ha)
      (by rw [hunit]; exact hinside) (by rw [hunit]; exact hlen)
    rw [hunit] at hstored
    refine ⟨t, r, hwrite, hread, hposted', fun n hn => Option.some.inj ?_⟩
    calc some (Memory.readByte r.mem (dmaByte (dmaAddress back) n))
        = ((data.drop (startPosition (s.unit k) b)).take (byteCount b))[n]? := hstored n (by
          change n < ((data.drop (startPosition (s.unit k) b)).take (byteCount b)).length
          rw [List.length_take, List.length_drop]
          omega)
      _ = data[startPosition (s.unit k) b + n]? := by rw [List.getElem?_take_of_lt hn, List.getElem?_drop]
      _ = some (Memory.readByte s.mem (dmaByte (dmaAddress b) n)) := hcontent n hn

end Sys2Proof.Machine
end

section
/-! PROOF. Unit management: a detach empties its unit, an attach installs the image whose header it reads or answers an
error, and a data command has no meaning on a unit attached with an inadmissible sector size. -/

namespace Sys2Proof.Machine

/-! ## Inadmissible geometries (45_unit_management.md R134) -/

theorem transferSectors_inadmissible {u : DiskUnit} (ha : admittedSectorSize u = false) (b : CommandBlock)
    (body : State → Iteration) (s : State) : transferSectors b u body s = .noMeaning .inadmissibleGeometry :=
  if_neg (by simp [ha])

/-- Write Format past its checks and its seek has no meaning on such a unit. -/
theorem wrfmtHandler_inadmissible {b : CommandBlock} {k : UnitId} {s : State} {st : BackingStore} (hready : Ready b k s)
    (hst : (s.unit k).backingStore = some st) (hseek : SeekGranted st) (ha : admittedSectorSize (s.unit k) = false)
    (hw : (s.unit k).writeProtected = false) (hvalid : ValidTrack (s.unit k) b) :
    wrfmtHandler b s = .noMeaning .inadmissibleGeometry := by
  have hvalidate : validate (s.unit k) b.cylinder.toNat b.head.toNat 0 = none :=
    (validate_eq_none_iff _ _ _ _).2 ⟨hvalid.1, hvalid.2, Nat.zero_le _⟩
  rw [wrfmtHandler, requireUnit_some hready.selected, requireOnline_ok hready.online, requireSafe_ok hready.safe,
    requireWritable_ok hw, seekUnit_moved (s := takeOperands b k s) hst hseek hvalidate, if_neg (by simp [ha])]

/-- Settles O43: past the checks and the seek each of the three commands asks for an admitted sector size first. -/
theorem inadmissibleGeometryIsRefused : Obligations.InadmissibleGeometryIsRefused := by
  intro b i s k st hready hst hseek ha hi
  obtain ⟨rfl, hw, hvalid⟩ | ⟨rfl, hvalid⟩ | ⟨rfl, hw, hvalid⟩ := hi
  · exact congrArg Handler.finish (wrfmtHandler_inadmissible hready.enter hst hseek ha hw hvalid)
  · exact congrArg Handler.finish <| (rddataHandler_of_ready (s := enterCommand s) hst hseek hvalid hready.enter).trans
      (transferSectors_inadmissible ha b _ _)
  · exact congrArg Handler.finish <|
      (wrdataHandler_of_ready (s := enterCommand s) hst hseek hvalid hready.enter hw).trans
        (transferSectors_inadmissible ha b _ _)

/-! ## The unit an operation names (45_unit_management.md R126(a), R128) -/

theorem unitOfNat_val {m : Nat} {k : UnitId} (hk : k.val < m) : unitOfNat m k.val = some k :=
  unitOfNat_eq_some_iff.2 ⟨rfl, hk⟩

theorem unitOfNat_of_le {m n : Nat} (h : m ≤ n) : unitOfNat m n = none :=
  Option.eq_none_iff_forall_ne_some.2 fun _ hk => absurd (unitOfNat_some hk).2 (Nat.not_lt.2 h)

section
variable {s : State} {k : UnitId}

theorem exec_detach (hk : k.val < s.cfg.maxUnits) : exec (.detach k.val) s = .next (detachUnit k s) := by
  change execDetach k.val s = _
  rw [execDetach, unitOfNat_val hk]

theorem exec_attach (hk : k.val < s.cfg.maxUnits) (st : BackingStore) (ro : Bool) :
    exec (.attach k.val st ro) s = .next (attachDetached k st ro (detachIfAttached k s)) := by
  change execAttach k.val st ro s = _
  rw [execAttach, unitOfNat_val hk]

theorem detachIfAttached_of_detached (hoff : (s.unit k).backingStore = none) : detachIfAttached k s = s :=
  if_neg (by simp [hoff])

theorem exec_attach_of_detached (hk : k.val < s.cfg.maxUnits) (hoff : (s.unit k).backingStore = none)
    (st : BackingStore) (ro : Bool) : exec (.attach k.val st ro) s = .next (attachDetached k st ro s) := by
  rw [exec_attach hk, detachIfAttached_of_detached hoff]

end

theorem exec_detach_of_le {s : State} {n : Nat} (h : s.cfg.maxUnits ≤ n) : exec (.detach n) s = .next s := by
  change execDetach n s = _
  rw [execDetach, unitOfNat_of_le h]

theorem exec_attach_of_le {s : State} {n : Nat} (h : s.cfg.maxUnits ≤ n) (st : BackingStore) (ro : Bool) :
    exec (.attach n st ro) s = .next (s.withReply .attachError) := by
  change execAttach n st ro s = _
  rw [execAttach, unitOfNat_of_le h]

/-! ## Detach (45_unit_management.md R127) -/

/-- Releasing a store is seen by the environment and changes nothing else. -/
theorem releaseStore_eq (k : UnitId) (s : State) : releaseStore k s =
    { s with trace := (s.unit k).backingStore.toList.map (Event.released k) ++ s.trace } := by
  unfold releaseStore
  cases (s.unit k).backingStore <;> rfl

/-- A detach changes the unit's descriptor, its attention line and the interrupt line; the environment sees the store it
gets back and one level on the sink. -/
theorem detachUnit_eq (k : UnitId) (s : State) : detachUnit k s =
    driveSink { s with
      regs := { s.regs with w0 := s.regs.w0 &&& ~~~attnMask k }
      units := s.units.set k DiskUnit.detached
      trace := (s.unit k).backingStore.toList.map (Event.released k) ++ s.trace } := by
  rw [detachUnit, releaseStore_eq]
  rfl

/-- Settles O53: the detach field by field, and the unit number no unit has. -/
theorem detachEmptiesTheUnit : Obligations.DetachEmptiesTheUnit := by
  refine fun s => ⟨fun k hk => ?_, fun n hn => exec_detach_of_le hn⟩
  rw [exec_detach hk, detachUnit_eq]
  exact ⟨_, rfl, Units.get_set_same s.units k DiskUnit.detached,
    fun j hj => Units.get_set_ne s.units DiskUnit.detached hj, rfl, rfl, rfl, rfl, rfl, rfl, rfl, rfl⟩

/-- Settles O52: after the detach the unit has no store, so the second attach finds nothing to detach. -/
theorem reattachDetachesFirst : Obligations.ReattachDetachesFirst := by
  intro s k st ro hk hon
  have hoff : ((detachUnit k s).unit k).backingStore = none :=
    congrArg DiskUnit.backingStore (State.unit_setUnit_same (releaseStore k s) k DiskUnit.detached)
  refine ⟨detachUnit k s, exec_detach hk, hoff, ?_⟩
  rw [exec_attach hk, exec_attach_of_detached (by rwa [detachUnit_cfg]) hoff, detachIfAttached, if_pos hon]

/-! ## The header in bytes (45_unit_management.md R121) -/

theorem headerField_toNat (a b c d : Byte) :
    (headerField a b c d).toNat = ((a.toNat * 256 + b.toNat) * 256 + c.toNat) * 256 + d.toNat := by
  change BitVec.toNat (w := 8 + 8 + 8 + 8) (a ++ b ++ c ++ d) = _
  simp only [append_toNat, Nat.reducePow]

theorem headerField_eq (a b c d : Byte) :
    headerField a b c d = BitVec.ofNat 32 (((a.toNat * 256 + b.toNat) * 256 + c.toNat) * 256 + d.toNat) := by
  rw [← headerField_toNat, BitVec.ofNat_toNat, BitVec.setWidth_eq]

theorem parseHeader_length {bytes : List Byte} {g : Geometry} (h : parseHeader bytes = some g) : bytes.length = 16 := by
  unfold parseHeader at h
  split at h
  · rfl
  · contradiction

/-- The last four bytes of a header are the sector size. -/
theorem parseHeader_bytesPerSector {bytes : List Byte} {g : Geometry} {b0 b1 b2 b3 : Byte}
    (h : parseHeader bytes = some g) (hlast : bytes.drop 12 = [b0, b1, b2, b3]) :
    g.bytesPerSector = headerField b0 b1 b2 b3 := by
  unfold parseHeader at h
  split at h
  · cases h
    cases hlast
    rfl
  · contradiction

/-! ## The store accesses of an attach (45_unit_management.md R129, R130) -/

section
variable {st : BackingStore}

theorem seek_of_granted (h : SeekGranted st) (pos : Nat) :
    st.seek pos = (true, { st with pos := pos, seekPlan := st.seekPlan.tail }) := by
  obtain h | ⟨rest, h⟩ := h
  · rw [BackingStore.seek_reference st pos h, h, List.tail_nil]
  · rw [BackingStore.seek, h, List.tail_cons]

theorem readLimit_le (st : BackingStore) (n : Nat) : st.readLimit n ≤ n := by
  unfold BackingStore.readLimit
  split <;> omega

/-- The environment that plans nothing shorter is ready to deliver all that is asked. -/
theorem readLimit_of_le {n : Nat} (h : ∀ l, st.readPlan.head? = some l → n ≤ l) : st.readLimit n = n := by
  unfold BackingStore.readLimit
  split
  · rfl
  · rename_i l rest hplan
    exact Nat.min_eq_right (h l (by rw [hplan, List.head?_cons]))

theorem readLimit_of_lt {n l : Nat} (hplan : st.readPlan.head? = some l) (hl : l < n) : st.readLimit n < n := by
  unfold BackingStore.readLimit
  split
  · rename_i hnil
    simp [hnil] at hplan
  · rename_i l' rest hcons
    rw [hcons, List.head?_cons, Option.some.injEq] at hplan
    omega

/-- The bytes a header read at position 0 delivers. -/
def headerBytes (st : BackingStore) : List Byte := st.data.take (st.readLimit 16)

/-- After a granted reposition the store has used up its two answers and stands behind the bytes it delivered; the
header counts if its sector size is at most 512. -/
theorem readHeader_of_granted (h : SeekGranted st) : readHeader st =
    ((parseHeader (headerBytes st)).filter fun g => g.bytesPerSector.toNat ≤ Config.maxSectorSize,
      { st with pos := (headerBytes st).length, seekPlan := st.seekPlan.tail, readPlan := st.readPlan.tail }) := by
  have hread : ({ st with pos := 0, seekPlan := st.seekPlan.tail } : BackingStore).read Config.headerLen =
      (headerBytes st, { st with
        pos := (headerBytes st).length, seekPlan := st.seekPlan.tail, readPlan := st.readPlan.tail }) := by
    simp only [BackingStore.read, Nat.zero_add]
    rfl
  rw [readHeader, seek_of_granted h, if_pos rfl, hread]
  dsimp only
  cases parseHeader (headerBytes st) with
  | none => rfl
  | some g => simp only [Option.filter_some, decide_eq_true_eq]

theorem readHeader_of_failed {pos : Nat} {rest : List SeekAnswer} (h : st.seekPlan = .failed pos :: rest) :
    (readHeader st).1 = none := by
  have hseek : st.seek 0 = (false, { st with pos := pos, seekPlan := rest }) := by
    rw [BackingStore.seek, h]
  rw [readHeader, hseek, if_neg Bool.false_ne_true]

/-- A header that counts is parsed from the bytes delivered and has a sector size of at most 512. -/
theorem parse_of_readHeader (h : SeekGranted st) {g : Geometry} (hg : (readHeader st).1 = some g) :
    parseHeader (headerBytes st) = some g ∧ g.bytesPerSector.toNat ≤ 512 := by
  rw [readHeader_of_granted h, Option.filter_eq_some_iff, decide_eq_true_eq] at hg
  exact hg

/-- Fewer than 16 bytes, held or delivered, are no header. -/
theorem readHeader_of_short (h : SeekGranted st)
    (hshort : st.data.length < 16 ∨ ∃ l, st.readPlan.head? = some l ∧ l < 16) : (readHeader st).1 = none := by
  refine Option.eq_none_iff_forall_ne_some.2 fun g hg => ?_
  have hlen := parseHeader_length (parse_of_readHeader h hg).1
  rw [headerBytes, List.length_take] at hlen
  obtain hdata | ⟨l, hplan, hl⟩ := hshort
  · omega
  · have := readLimit_of_lt hplan hl
    omega

/-- A sector above 512 bytes is refused, whatever is delivered. -/
theorem readHeader_of_large (h : SeekGranted st) {b0 b1 b2 b3 : Byte}
    (hsize : (st.data.drop 12).take 4 = [b0, b1, b2, b3])
    (hlarge : 512 < ((b0.toNat * 256 + b1.toNat) * 256 + b2.toNat) * 256 + b3.toNat) : (readHeader st).1 = none := by
  refine Option.eq_none_iff_forall_ne_some.2 fun g hg => ?_
  obtain ⟨hparse, hle⟩ := parse_of_readHeader h hg
  have hlimit : st.readLimit 16 = 16 := by
    have hlen := parseHeader_length hparse
    rw [headerBytes, List.length_take] at hlen
    have := readLimit_le st 16
    omega
  have hlast : (headerBytes st).drop 12 = [b0, b1, b2, b3] := by
    rw [headerBytes, hlimit, List.drop_take, hsize]
  rw [parseHeader_bytesPerSector hparse hlast, headerField_toNat] at hle
  omega

/-- A whole header with a sector of at most 512 bytes is read, and the store then stands behind it. -/
theorem readHeader_of_whole (h : SeekGranted st) (hplan : ∀ l, st.readPlan.head? = some l → 16 ≤ l)
    {header payload : List Byte} {g : Geometry} (hdata : st.data = header ++ payload)
    (hparse : parseHeader header = some g) (hsize : g.bytesPerSector.toNat ≤ 512) :
    readHeader st = (some g, { st with pos := 16, seekPlan := st.seekPlan.tail, readPlan := st.readPlan.tail }) := by
  have hlen := parseHeader_length hparse
  have hbytes : headerBytes st = header := by
    rw [headerBytes, readLimit_of_le hplan, hdata, List.take_left' hlen]
  rw [readHeader_of_granted h, hbytes, hparse, hlen]
  exact congrArg (·, _) (Option.filter_some_pos (decide_eq_true hsize))

end

/-! ## Attach (45_unit_management.md R124 to R126) -/

/-- Reading a header is seen by the store's owner, drives no level and changes nothing else. -/
theorem headerEvents_eq (k : UnitId) (st : BackingStore) (s : State) :
    ∃ trace, headerEvents k st s = { s with trace := trace } ∧ sinkLevels trace = sinkLevels s.trace := by
  unfold headerEvents
  dsimp only
  split <;> exact ⟨_, rfl, rfl⟩

theorem attachDetached_of_error {st : BackingStore} (h : (readHeader st).1 = none) (k : UnitId) (ro : Bool)
    (s : State) : ∃ trace, attachDetached k st ro s = { s with reply := .attachError, trace := trace } ∧
      sinkLevels trace = sinkLevels s.trace := by
  obtain ⟨trace, hevents, hlevels⟩ := headerEvents_eq k st s
  refine ⟨trace, ?_, hlevels⟩
  rw [attachDetached, hevents, h]
  rfl

theorem attachDetached_of_header {st st' : BackingStore} {g : Geometry} (h : readHeader st = (some g, st'))
    (k : UnitId) (ro : Bool) (s : State) : ∃ trace, attachDetached k st ro s =
      installUnit k (attachedUnit g st' ro) { s with trace := trace } := by
  obtain ⟨trace, hevents, -⟩ := headerEvents_eq k st s
  refine ⟨trace, ?_⟩
  rw [attachDetached, hevents, h]

/-- Settles O50: the header of the image is read whole, and its geometry installed with the store. -/
theorem attachInstallsTheImage : Obligations.AttachInstallsTheImage := by
  intro s k st ro c0 c1 c2 c3 h0 h1 h2 h3 s0 s1 s2 s3 b0 b1 b2 b3 payload hk hoff hseek hplan hdata field hsize
  obtain ⟨trace, hattach⟩ := attachDetached_of_header
    (readHeader_of_whole hseek hplan hdata rfl ((headerField_toNat b0 b1 b2 b3).trans_le hsize)) k ro s
  rw [exec_attach_of_detached hk hoff, hattach]
  refine ⟨_, rfl, ?_, fun j hj => Units.get_set_ne s.units _ hj, rfl, rfl, rfl, rfl, rfl, rfl, rfl⟩
  refine (Units.get_set_same s.units k _).trans ?_
  simp only [attachedUnit, headerField_eq, field]

/-- Settles O51: each reason leaves no header to install. -/
theorem failedAttachLeavesTheUnitDetached : Obligations.FailedAttachLeavesTheUnitDetached := by
  intro s n st ro hoff hfail
  by_cases hn : s.cfg.maxUnits ≤ n
  · rw [exec_attach_of_le hn]
    exact ⟨_, rfl, rfl, rfl, rfl, rfl, rfl, rfl, rfl, rfl, rfl⟩
  have hnone : (readHeader st).1 = none := by
    obtain h | ⟨pos, rest, hplan⟩ | ⟨hseek, hshort⟩ | ⟨hseek, b0, b1, b2, b3, hsize, hlarge⟩ := hfail
    · exact absurd h hn
    · exact readHeader_of_failed hplan
    · exact readHeader_of_short hseek hshort
    · exact readHeader_of_large hseek hsize hlarge
  have hk : n < 4 := (Nat.not_le.1 hn).trans_le s.cfg.lastUnit.isLt
  obtain ⟨trace, hattach, hlevels⟩ := attachDetached_of_error hnone ⟨n, hk⟩ ro s
  have hexec := exec_attach_of_detached (k := ⟨n, hk⟩) (Nat.not_le.1 hn) (hoff ⟨n, hk⟩ rfl) st ro
  rw [hattach] at hexec
  exact ⟨_, hexec, rfl, rfl, rfl, rfl, rfl, rfl, rfl, rfl, hlevels⟩

end Sys2Proof.Machine
end

section
/-! PROOF. Completion and exceptions: the outcome a command posts, the arbiter's level, the acknowledgement, the
attention lines, and the one refusal of a step. -/

namespace Sys2Proof.Machine

/-! ## The outcomes (60_exceptions.md R135, R136) -/

/-- Settles O21: the twelve pairs of masks, evaluated. -/
theorem outcomeMasksAreTheTable : Obligations.OutcomeMasksAreTheTable := by
  unfold Obligations.OutcomeMasksAreTheTable
  decide

/-- Settles O22: the handler ends with an outcome of its column and the completion posts it. -/
theorem everyCommandPostsOneOutcome : Obligations.EveryCommandPostsOneOutcome :=
  fun _ _ _ _ hc h => exec_command_posted hc h

/-! ## The level and the acknowledgement (60_exceptions.md R140, R146) -/

theorem completionPending_iff (w7 : Word) : completionPending w7 = true ↔
    w7.getLsbD 12 = true ∧ (w7.getLsbD 14 = true ∨ w7.getLsbD 13 = true) := by
  simp only [completionPending, Bool.and_eq_true, Bool.or_eq_true]

/-- Settles O19: the completion term and the attention term, each in words. -/
theorem arbiterLevelIsTheStatedFunction : Obligations.ArbiterLevelIsTheStatedFunction := by
  intro w0 w7
  rw [arbiterLevel, Bool.and_eq_true, Bool.or_eq_true, completionPending_iff, attentionPending_iff, idle]

/-- Bit `n` of a full write to `w7` is the value's, but for the reserved bit (10_state.md R14, R20). -/
theorem mergeWrite_seven_full (old value : Word) {n : Nat} (hn : n < 16) (h11 : n ≠ 11) :
    (mergeWrite 7 old value 0#2).getLsbD n = value.getLsbD n := by
  rw [mergeWrite_getLsbD 7 old value 0#2 hn, writeMask_getLsbD 7 n hn]
  simp [h11]

/-- With no completion to report the level is left to the attention lines. -/
theorem arbiterLevel_of_acknowledged {w0 w7 : Word} (hidle : idle w7 = true) (hcomplete : w7.getLsbD 14 = false)
    (herror : w7.getLsbD 13 = false) : arbiterLevel w0 w7 = attentionPending w0 := by
  simp only [arbiterLevel, completionPending, hidle, hcomplete, herror, Bool.or_self, Bool.and_false, Bool.false_or,
    Bool.true_and]

/-- Settles O17: the write is a merge and an arbitration, and without a completion the level is the attention term's. -/
theorem acknowledgeRemovesTheCompletion : Obligations.AcknowledgeRemovesTheCompletion := by
  intro s value hidle h15 h14 h13
  have hkeeps : idle (mergeWrite 7 s.regs.w7 value 0#2) = true := idle_mergeWrite hidle (.inr h15)
  have hcomplete : (mergeWrite 7 s.regs.w7 value 0#2).getLsbD 14 = false :=
    (mergeWrite_seven_full _ value (by decide) (by decide)).trans h14
  have herror : (mergeWrite 7 s.regs.w7 value 0#2).getLsbD 13 = false :=
    (mergeWrite_seven_full _ value (by decide) (by decide)).trans h13
  have hlevel := arbiterLevel_of_acknowledged (w0 := s.regs.w0) hkeeps hcomplete herror
  exact ⟨_, exec_regwr_seven_plain (.inr hkeeps), (Bool.eq_iff_iff.1 hlevel).trans (attentionPending_iff _),
    rfl, hcomplete, herror, rfl, rfl⟩

/-! ## The attention lines (10_state.md R35, 60_exceptions.md R143) -/

/-- Words that agree under a mask agree under a part of it. -/
theorem and_eq_and_of_mask {w v m n : Word} (h : w &&& m = v &&& m) (hn : m &&& n = n) : w &&& n = v &&& n := by
  rw [← hn, ← BitVec.and_assoc, h, BitVec.and_assoc]

/-- A host write leaves of `w0` all but the enables, the attention lines among it. -/
theorem mergeRegister_attention (i : Fin 8) (value : Word) (lanes : BitVec 2) (s : State) :
    (mergeRegister i value lanes s).regs.w0 &&& 0x00F0#16 = s.regs.w0 &&& 0x00F0#16 := by
  rw [← Regs.get_zero]
  by_cases hi : i = 0
  · subst hi
    rw [mergeRegister_get_same]
    exact and_eq_and_of_mask (mergeWrite_and_not_mask 0 s.regs.w0 value lanes) (by decide)
  · rw [mergeRegister_get_ne (Ne.symm hi), Regs.get_zero]

theorem exec_command_attention {b : CommandBlock} {i : Instr} (hc : Command b i) {s t : State}
    (h : exec i s = .next t) : t.regs.w0 &&& 0x00F0#16 = s.regs.w0 &&& 0x00F0#16 := by
  obtain ⟨o, _, hposted⟩ := exec_command_posted hc h
  rw [hposted.regs]
  exact and_eq_and_of_mask (posted_low_byte s.regs.w0 o) (by decide)

theorem execRegwr_attention {index : Nat} {value : Word} {lanes : BitVec 2} {s t : State}
    (h : execRegwr index value lanes s = .next t) : t.regs.w0 &&& 0x00F0#16 = s.regs.w0 &&& 0x00F0#16 := by
  obtain e | ⟨i, _, e, _⟩ | ⟨_, _, _, e⟩ := execRegwr_cases index value lanes s
  · cases e.symm.trans h
    rfl
  · cases e.symm.trans h
    rw [arbitrateWrite_regs]
    exact mergeRegister_attention i value lanes s
  · rw [e, executeCommand_eq_exec] at h
    exact (exec_command_attention (decodeBlock_command _) h).trans (mergeRegister_attention 7 value lanes s)

/-- Settles O18: a command posts above the low byte, a read changes no register, a write merges only the enables. -/
theorem attentionChangesOnlyByUnitManagement : Obligations.AttentionChangesOnlyByUnitManagement := by
  rintro i s t h (⟨b, hc⟩ | ⟨n, rfl⟩ | ⟨n, v, l, rfl⟩)
  · exact exec_command_attention hc h
  · cases h
    rfl
  · exact execRegwr_attention h

/-! ## The refusal (45_unit_management.md R134, 60_exceptions.md R149) -/

/-- A register write is refused only as the command it starts. -/
theorem execRegwr_refused {index : Nat} {value : Word} {lanes : BitVec 2} {s : State} {r : Refusal}
    (h : execRegwr index value lanes s = .refused r) : BlamesAUnit s r := by
  obtain e | ⟨i, _, e, _⟩ | ⟨_, _, _, e⟩ := execRegwr_cases index value lanes s
  · cases e.symm.trans h
  · cases e.symm.trans h
  · rw [e, executeCommand_eq_exec] at h
    exact exec_command_refused (s := driveSink (mergeRegister 7 value lanes s)) (decodeBlock_command _) h

theorem execAttach_answers (unit : Nat) (st : BackingStore) (readOnly : Bool) (s : State) :
    ∃ t, execAttach unit st readOnly s = .next t := by
  unfold execAttach
  split <;> exact ⟨_, rfl⟩

theorem execDetach_answers (unit : Nat) (s : State) : ∃ t, execDetach unit s = .next t := by
  unfold execDetach
  split <;> exact ⟨_, rfl⟩

theorem exec_hostOp_refused {o : HostOp} {s : State} {r : Refusal} (h : exec o.instr s = .refused r) :
    BlamesAUnit s r := by
  cases o with
  | regrd index => cases h
  | regwr index value lanes => exact execRegwr_refused h
  | init => cases h
  | attach unit st readOnly =>
    obtain ⟨t, e⟩ := execAttach_answers unit st readOnly s
    cases e.symm.trans h
  | detach unit =>
    obtain ⟨t, e⟩ := execDetach_answers unit s
    cases e.symm.trans h

/-- Settles O58: of what a step can do only a host operation is refused, and of these only a command. -/
theorem onlyInadmissibleGeometryIsRefused : Obligations.OnlyInadmissibleGeometryIsRefused := by
  intro s r h
  unfold step at h
  split at h
  · cases h
  · rename_i o rest _
    exact exec_hostOp_refused (s := s.begin rest) h
  · cases h

end Sys2Proof.Machine
end

section
/-! PROOF. Reset and hazards: what a step runs, what INIT leaves, the state after reset, and the write that keeps the
high lane of `w7`. -/

namespace Sys2Proof.Machine

/-! ## The step (70_reset_and_hazards.md R159, R176) -/

/-- Settles O7: the two heads of the queue it speaks of, each by the step's own equation. -/
theorem stepRunsThePendingOperation : Obligations.StepRunsThePendingOperation := by
  refine ⟨fun s o rest h => ?_, fun s h => ?_⟩
  · rw [step, h]
    rfl
  · rw [step, h]

/-! ## The write that preserves the high lane of `w7` (70_reset_and_hazards.md R165) -/

/-- The merge keeps the high byte of a register whose high lane is preserved. -/
theorem mergeWrite_highLane (i : Fin 8) (old value : Word) {lanes : BitVec 2} (h : lanes.getLsbD 1 = true) {n : Nat}
    (h8 : 8 ≤ n) (hn : n < 16) : (mergeWrite i old value lanes).getLsbD n = old.getLsbD n := by
  have hhigh : (if n < 8 then 0 else 1) = 1 := if_neg (by omega)
  rw [mergeWrite_getLsbD i old value lanes hn, hhigh, h]
  simp

theorem and_highByte_eq {v w : Word} (h : ∀ n, 8 ≤ n → n < 16 → v.getLsbD n = w.getLsbD n) :
    v &&& 0xFF00#16 = w &&& 0xFF00#16 := by
  have mask : ∀ n < 16, (0xFF00#16).getLsbD n = decide (8 ≤ n) := by decide
  apply BitVec.eq_of_getLsbD_eq
  intro n hn
  rw [BitVec.getLsbD_and, BitVec.getLsbD_and, mask n hn]
  by_cases h8 : 8 ≤ n
  · rw [h n h8 hn]
  · simp [h8]

/-- Of `w7` the arbiter reads only the high byte (60_exceptions.md R140). -/
theorem arbiterLevel_of_highByte {v w : Word} (h : ∀ n, 8 ≤ n → n < 16 → v.getLsbD n = w.getLsbD n) (w0 : Word) :
    arbiterLevel w0 v = arbiterLevel w0 w := by
  simp only [arbiterLevel, completionPending, idle, h 15 (by omega) (by omega), h 14 (by omega) (by omega),
    h 13 (by omega) (by omega), h 12 (by omega) (by omega)]

/-- Settles O16: the merge keeps the high byte of `w7`, so `IDLE` does not change and the arbiter reads what it read
before. -/
theorem lowLaneWriteNeverStartsACommand : Obligations.LowLaneWriteNeverStartsACommand := by
  intro s value lanes hlane
  have hkeeps : ∀ n, 8 ≤ n → n < 16 → (mergeWrite 7 s.regs.w7 value lanes).getLsbD n = s.regs.w7.getLsbD n :=
    fun n => mergeWrite_highLane 7 s.regs.w7 value hlane
  have hquiet : idle s.regs.w7 = false ∨ idle (mergeWrite 7 s.regs.w7 value lanes) = true :=
    (Bool.eq_false_or_eq_true _).symm.imp_right fun hidle => idle_mergeWrite hidle (.inl hlane)
  refine ⟨_, exec_regwr_seven_plain hquiet, and_highByte_eq hkeeps, ?_⟩
  rw [← arbiterLevel_of_highByte hkeeps s.regs.w0]
  rfl

/-! ## INIT (70_reset_and_hazards.md R157) -/

/-- `ATTN[k]` of `init` is bit `7 - k`, set exactly when unit `k` exists and is attached. -/
theorem attentionOf_getLsbD_iff (k : UnitId) (s : State) (n : Nat) : (attentionOf k s).getLsbD n = true ↔
    n = 7 - k.val ∧ k.val < s.cfg.maxUnits ∧ (s.unit k).backingStore.isSome = true := by
  unfold attentionOf
  split
  · rename_i h
    rw [attnMask_getLsbD, decide_eq_true_iff, and_iff_left h]
  · rename_i h
    rw [BitVec.getLsbD_zero]
    exact ⟨fun hf => absurd hf Bool.false_ne_true, fun hon => absurd hon.2 h⟩

/-- A bit of `w0` after `init` is the attention line of an attached unit of the controller. -/
theorem initRegs_w0_getLsbD_iff (s : State) (n : Nat) : (initRegs s).w0.getLsbD n = true ↔
    ∃ k : UnitId, n = 7 - k.val ∧ k.val < s.cfg.maxUnits ∧ (s.unit k).backingStore.isSome = true := by
  simp only [← attentionOf_getLsbD_iff, initRegs, BitVec.getLsbD_or, Bool.or_eq_true, Fin.exists_fin_succ]
  simp [or_assoc]

/-- After `init` `w0` holds attention lines only. -/
theorem initRegs_w0_outside (s : State) {n : Nat} (h : n < 4 ∨ 8 ≤ n) : (initRegs s).w0.getLsbD n = false := by
  rw [← Bool.not_eq_true, initRegs_w0_getLsbD_iff]
  rintro ⟨k, hk, _⟩
  omega

theorem initRegs_w0_attention (s : State) (k : UnitId) : (initRegs s).w0.getLsbD (7 - k.val) =
    (decide (k.val < s.cfg.maxUnits) && (s.unit k).backingStore.isSome) := by
  rw [Bool.eq_iff_iff, initRegs_w0_getLsbD_iff, Bool.and_eq_true, decide_eq_true_iff]
  refine ⟨?_, fun hon => ⟨k, rfl, hon⟩⟩
  rintro ⟨j, hj, hon⟩
  obtain rfl : j = k := Fin.ext (by omega)
  exact hon

theorem initRegs_w0_and_rest (s : State) : (initRegs s).w0 &&& 0xFF0F#16 = 0x0000#16 := by
  have mask : ∀ n < 16, (0xFF0F#16).getLsbD n = decide (n < 4 ∨ 8 ≤ n) := by decide
  apply BitVec.eq_of_getLsbD_eq
  intro n hn
  rw [BitVec.getLsbD_and, mask n hn, BitVec.getLsbD_zero]
  by_cases h : n < 4 ∨ 8 ≤ n
  · rw [initRegs_w0_outside s h, Bool.false_and]
  · rw [decide_eq_false h, Bool.and_false]

/-- After `init` no completion is posted and no attention line is enabled, so the arbiter drives the line low. -/
theorem arbiterLevel_initRegs (s : State) : arbiterLevel (initRegs s).w0 (initRegs s).w7 = false := by
  have hattention : attentionPending (initRegs s).w0 = false := by
    rw [← Bool.not_eq_true, attentionPending_iff]
    rintro ⟨k, _, henable⟩
    exact absurd ((initRegs_w0_outside s (.inl (by omega))).symm.trans henable) Bool.false_ne_true
  have hw7 : (initRegs s).w7 = maskIdle := rfl
  rw [hw7, arbiterLevel_of_acknowledged (by decide) (by decide) (by decide), hattention]

/-- INIT replaces the registers and drives the line low; the rest of the state stays. -/
theorem exec_init (s : State) :
    exec .init s = .next { s with regs := initRegs s, intLevel := false, trace := .sink false :: s.trace } := by
  rw [← arbiterLevel_initRegs s]
  rfl

/-- Settles O54: the registers `init` sets, with `w0` bit by bit, and the one level the arbiter drives. -/
theorem initResetsTheRegisters : Obligations.InitResetsTheRegisters := fun s =>
  ⟨_, exec_init s, rfl, rfl, rfl, rfl, rfl, rfl, rfl, initRegs_w0_attention s, initRegs_w0_and_rest s, rfl, rfl, rfl,
    rfl, rfl, rfl, rfl, rfl⟩

/-! ## Reset (70_reset_and_hazards.md R158) -/

theorem State.reset_unit (k : UnitId) : State.reset.unit k = DiskUnit.detached := by
  fin_cases k <;> rfl

/-- With no unit attached `init` leaves the registers of reset. -/
theorem initRegs_of_detached {s : State} (h : ∀ k : UnitId, s.unit k = DiskUnit.detached) :
    initRegs s = Regs.reset := by
  have hnone : ∀ k, attentionOf k s = 0#16 := fun k => if_neg (by simp [h k, DiskUnit.detached])
  simp only [initRegs, hnone]
  rfl

/-- Settles O55: the fields of the reset state, and the registers and the line INIT gives when no unit is attached. -/
theorem resetIsInitAfterPowerOn : Obligations.ResetIsInitAfterPowerOn := by
  refine ⟨rfl, rfl, rfl, rfl, rfl, rfl, rfl, rfl, rfl, State.reset_unit, fun s hs => ?_⟩
  refine ⟨_, exec_init s, initRegs_of_detached hs, Units.ext_get fun k => ?_, rfl⟩
  exact (hs k).trans (State.reset_unit k).symm

end Sys2Proof.Machine
end
